-- ==== Sys2Proof/Word.lean ====
section
/-! DEFINITION. The machine's word types (R7, R10) and the record of one node of the tree arena (R63). -/

namespace Sys2Proof

/-- A symbol, a buffer byte, a code length: SYM_W = 8 bits (R7). -/
abbrev Byte := BitVec 8

/-- A register, an address, a count, a command word: 32 bits (R7, R80, R110). -/
abbrev Word := BitVec 32

/-- An index into the node arena: 9 bits (R63). -/
abbrev NodeIdx := BitVec 9

/-- The value of one CBITS entry: 255 bits (R64). -/
abbrev CodeBits := BitVec 255

/-- A bit string, first bit first (R14). -/
abbrev Bits := List Bool

/-- One entry of the node arena NODE (R63): a leaf holds a symbol, an internal node two child indices. -/
structure Node where
  leaf  : Bool
  sym   : Byte
  w     : Word
  left  : NodeIdx
  right : NodeIdx
deriving DecidableEq, Repr, Inhabited

end Sys2Proof
end

