-- ==== Sys2Proof/Machine/Bits.lean ====
section
/-! DEFINITION. Bit strings and byte order: bin8, pack and unpack (R14, R15), the value of a bit string (R155),
the code a table entry stands for (R64), and the little-endian lanes of the bus (R83). -/

namespace Sys2Proof.Machine

/-- The unsigned value of a bit string read most significant bit first (R15, R155). -/
def natOfBits (s : Bits) : Nat := s.foldl (fun n b => 2 * n + b.toNat) 0

/-- bin8: the 8-bit string of a byte, most significant bit first (R14). -/
def bin8 (v : Byte) : Bits :=
  [v.getLsbD 7, v.getLsbD 6, v.getLsbD 5, v.getLsbD 4, v.getLsbD 3, v.getLsbD 2, v.getLsbD 1, v.getLsbD 0]

/-- pack (R15): bit 8j of the string is the most significant bit of byte j. A string whose length is no
multiple of 8, to which R15 gives no bytes, loses its incomplete last byte; no command packs one (R184). -/
def pack : Bits → List Byte
  | b7 :: b6 :: b5 :: b4 :: b3 :: b2 :: b1 :: b0 :: rest =>
    BitVec.ofNat 8 (natOfBits [b7, b6, b5, b4, b3, b2, b1, b0]) :: pack rest
  | _ => []

/-- unpack (R15): the bits of every byte, in order. -/
def unpack : List Byte → Bits
  | [] => []
  | v :: rest => bin8 v ++ unpack rest

/-- The code that a table entry of length `len` and value `bits` stands for: bit i of the code is bit
len - 1 - i of the value (R64). -/
def codeOf (len : Byte) (bits : CodeBits) : Bits :=
  (List.range len.toNat).map fun i => bits.getLsbD (len.toNat - 1 - i)

/-- The 32-bit word of four bytes, the lowest-addressed in bits 7 to 0 (R83). -/
def wordOfBytes (b0 b1 b2 b3 : Byte) : Word := b3 ++ b2 ++ b1 ++ b0

/-- The four bytes of a word, the lowest-addressed first (R84). -/
def bytesOfWord (v : Word) : List Byte :=
  [v.extractLsb' 0 8, v.extractLsb' 8 8, v.extractLsb' 16 8, v.extractLsb' 24 8]

end Sys2Proof.Machine
end

