-- ==== Sys2Proof/Syntax.lean ====
section
/-! DEFINITION. The instructions: every row of spec/opcode_table.json. The first seven are the command words
that a write to CMD issues and the ENGINE completes (R111, R113), the last four the HOST's bus transactions
(R114). -/

namespace Sys2Proof

/-- A HOST bus transaction as it stands on the bus, the triple of R114. -/
structure BusTxn where
  attr  : BitVec 2
  addr  : Word
  wdata : Word
deriving DecidableEq, Repr

/-- One constructor per row of the opcode table. -/
inductive Instr where
  /-- NOP, command word 0 (R231). -/
  | nop
  /-- CLEAR, command word 1 (R233). -/
  | clear
  /-- ANALYZE, command word 2 (R130). -/
  | analyze
  /-- BUILD, command word 3 (R150). -/
  | build
  /-- ENCODE, command word 4 (R180). -/
  | encode
  /-- DECODE, command word 5 (R200). -/
  | decode
  /-- Any other command word, held whole because it is the ERR_INFO of ILLEGAL_CMD (R113, R241). -/
  | illegal (word : Word)
  /-- RD8, a byte read (R81, R114). -/
  | rd8 (addr : Word)
  /-- RD32, a word read (R81, R114). -/
  | rd32 (addr : Word)
  /-- WR8, a byte write, only bits 7 to 0 of WDATA being used (R81, R114). -/
  | wr8 (addr : Word) (value : Byte)
  /-- WR32, a word write (R81, R114). -/
  | wr32 (addr : Word) (value : Word)
deriving DecidableEq, Repr

end Sys2Proof
end

