-- ==== Sys2Proof/WellFormed.lean ====
section
/-! DEFINITION. Which terms of Instr stand for an instruction of the spec. -/

namespace Sys2Proof

/-- The OPC field of a command word, bits 7 to 0 (R110). -/
def opcField (w : Word) : Byte := w.extractLsb' 0 8

/-- The RSV field of a command word, bits 31 to 8 (R110). -/
def rsvField (w : Word) : BitVec 24 := w.extractLsb' 8 24

/-- R113: a word is illegal when OPC is in 0x06..0xFF or RSV is not 0. -/
def isIllegalWord (w : Word) : Bool := decide (6 ≤ (opcField w).toNat) || decide (rsvField w ≠ 0)

/-- The one check: `illegal` holds a word that R113 calls illegal, since R111 gives the other six words a
constructor of their own. -/
def Instr.wellFormed : Instr → Bool
  | .illegal w => isIllegalWord w
  | .nop | .clear | .analyze | .build | .encode | .decode => true
  | .rd8 _ | .rd32 _ | .wr8 _ _ | .wr32 _ _ => true

end Sys2Proof
end

