-- ==== Sys2Proof/Decode.lean ====
section
/-! DEFINITION. Decoding and encoding. A command word (R110, R111, R113) and a bus transaction (R114) are decoded
each by a total function; `decode` reads either from bytes, a command from the 4 bytes of its word and a
transaction from the 9 bytes ATTR, ADDR, WDATA (this byte order is the model's, log 5). -/

namespace Sys2Proof

open Sys2Proof.Machine (bytesOfWord wordOfBytes)

/-- R111 and R113: every one of the 2^32 command words is one of the six commands or illegal. -/
def decodeCommand (w : Word) : Instr :=
  if isIllegalWord w then .illegal w
  else if opcField w = 0x00 then .nop
  else if opcField w = 0x01 then .clear
  else if opcField w = 0x02 then .analyze
  else if opcField w = 0x03 then .build
  else if opcField w = 0x04 then .encode
  else .decode

/-- R114: ATTR[1] is WE, ATTR[0] is SZ; a byte write uses WDATA[7:0], a read ignores WDATA. -/
def decodeBus (t : BusTxn) : Instr :=
  match t.attr.getLsbD 1, t.attr.getLsbD 0 with
  | false, false => .rd8 t.addr
  | false, true  => .rd32 t.addr
  | true,  false => .wr8 t.addr (t.wdata.extractLsb' 0 8)
  | true,  true  => .wr32 t.addr t.wdata

/-- Why a byte string is no instruction. -/
inductive DecodeError where
  /-- Neither the 4 bytes of a command word nor the 9 of a bus transaction. -/
  | wrongLength (n : Nat)
  /-- Bits 7 to 2 of the ATTR byte are not 0: ATTR has 2 bits (R114). -/
  | attrTooWide (b : Byte)
deriving DecidableEq, Repr

/-- The instruction of a byte string. -/
def decode : List Byte → Except DecodeError Instr
  | [b0, b1, b2, b3] => .ok (decodeCommand (wordOfBytes b0 b1 b2 b3))
  | [attr, a0, a1, a2, a3, d0, d1, d2, d3] =>
    if attr.extractLsb' 2 6 ≠ 0 then .error (.attrTooWide attr)
    else .ok (decodeBus
      { attr := attr.extractLsb' 0 2, addr := wordOfBytes a0 a1 a2 a3, wdata := wordOfBytes d0 d1 d2 d3 })
  | bs => .error (.wrongLength bs.length)

/-- The command word of a command, the OPC column of R111; none for a bus transaction. -/
def commandWord : Instr → Option Word
  | .nop => some 0x00000000
  | .clear => some 0x00000001
  | .analyze => some 0x00000002
  | .build => some 0x00000003
  | .encode => some 0x00000004
  | .decode => some 0x00000005
  | .illegal w => some w
  | .rd8 _ | .rd32 _ | .wr8 _ _ | .wr32 _ _ => none

/-- The bus transaction of a HOST instruction, the table of R114; none for a command. A read's WDATA, which
R114 ignores, is 0. -/
def busTxn : Instr → Option BusTxn
  | .rd8 a => some { attr := 0b00, addr := a, wdata := 0 }
  | .rd32 a => some { attr := 0b01, addr := a, wdata := 0 }
  | .wr8 a v => some { attr := 0b10, addr := a, wdata := v.setWidth 32 }
  | .wr32 a v => some { attr := 0b11, addr := a, wdata := v }
  | .nop | .clear | .analyze | .build | .encode | .decode | .illegal _ => none

/-- The bytes of a bus transaction. -/
def bytesOfTxn (t : BusTxn) : List Byte :=
  t.attr.setWidth 8 :: (bytesOfWord t.addr ++ bytesOfWord t.wdata)

/-- The bytes of an instruction. -/
def encode (i : Instr) : List Byte :=
  match commandWord i, busTxn i with
  | some w, _ => bytesOfWord w
  | none, some t => bytesOfTxn t
  | none, none => []

/-- The bytes of the number w, byte 0 the lowest 8 bits. -/
def bytesOfNat (n w : Nat) : List Byte := (List.range n).map fun i => BitVec.ofNat 8 (w / 2 ^ (8 * i))

/-- How many bytes an instruction has whose table row has `nbits` bits: a command row has the 32 bits of its
word, a bus row only the ATTR bits (ADDR and WDATA are operands the row gives no bits). -/
def instrBytes (nbits : Nat) : Nat := if nbits = 32 then 4 else 9

/-- The decoder's reading of an instruction numbered as spec/opcode_table.json numbers it. -/
def decodeTableWord (nbits w : Nat) : Option Instr :=
  match decode (bytesOfNat (instrBytes nbits) (w % 2 ^ nbits)) with
  | .ok i => some i
  | .error _ => none

end Sys2Proof
end

