-- ==== Sys2Proof/Config.lean ====
section
/-! DEFINITION. What the machine's builder fixes (R6, R7, R80) and the free values (U2 to U7 of
spec/93_implementation_defined.md): opaque constants, so that no proof can know one. -/

namespace Sys2Proof.Config

/-- NSYM_MAX, the number of possible symbols (R7). -/
def nsymMax : Nat := 256

/-- NODE_MAX, the capacity of the node arena (R7). -/
def nodeMax : Nat := 511

/-- MAXLEN, the largest code length (R7). -/
def maxLen : Nat := 255

/-- HDR_W, the width of the payload's padding header in bits (R7). -/
def hdrW : Nat := 8

/-- REG_BASE, the first address of the register block (R80). -/
def regBase : Nat := 0x00000000

/-- The size of the REG region in bytes (R80). -/
def regBytes : Nat := 0x1000

/-- IBUF_BASE, the address of input byte 0 (R80). -/
def ibufBase : Nat := 0x01000000

/-- OBUF_BASE, the address of output byte 0 (R80). -/
def obufBase : Nat := 0x02000000

/-- The value the ID register always reads (R32). -/
def idValue : Word := 0x48430007

/-- The two open parameters of R6. A machine holds its own in State, where no step changes them, so that a
statement about every state is a statement about every pair of sizes. -/
structure Sizes where
  ibufBytes : Nat
  obufBytes : Nat
deriving DecidableEq, Repr

/-- The range R6 gives both parameters. -/
abbrev Sizes.Valid (z : Sizes) : Prop :=
  (1 ≤ z.ibufBytes ∧ z.ibufBytes ≤ 2 ^ 24) ∧ (1 ≤ z.obufBytes ∧ z.obufBytes ≤ 2 ^ 24)

/-- The sizes of the one machine that `State.reset` names: those of spec/95_test_vectors.md.
DESIGN CHOICE (log 1): R6 leaves them open. -/
def defaultSizes : Sizes := { ibufBytes := 64, obufBytes := 64 }

/-- The content of buffer byte `addr` after draw number `draw`: any value (U3, U4, U5). -/
opaque freeByte : (draw addr : Nat) → Byte

/-- What a HOST read of a gated register or OBUF word answers while BUSY, at draw `draw`: any value (U2). -/
opaque freeWord : (draw : Nat) → Word

/-- The content of NODE entry `i` after the reset of draw number `draw`: any value (U6). -/
opaque freeNode : (draw i : Nat) → Node

/-- The content of CBITS entry `i` after the reset of draw number `draw`: any value (U6). -/
opaque freeCode : (draw i : Nat) → CodeBits

/-- What a read of the arena past its last entry would give: index 511 fits in 9 bits and names no entry.
No reachable state reads it (log 8). -/
opaque absentNode : Node

/-- What a read of ORDER past its last entry would give. No reachable state reads it (log 8). -/
opaque absentSym : Byte

/-- What BUILD would take for the root if its queue were empty. No reachable state makes it so (log 8). -/
opaque absentRoot : Nat

end Sys2Proof.Config
end

