-- ==== Sys2Proof/Machine/State.lean ====
section
/-! DEFINITION. The state of HUFCORE (R30) as plain data, the reasons a step can stop, and the state after reset
(R280). -/

namespace Sys2Proof.Machine

/-- CTRL: the two interrupt enables, its only writable bits (R33). -/
structure Ctrl where
  ieDone : Bool
  ieErr  : Bool
deriving DecidableEq, Repr

/-- STATUS: bits 0 to 7 (R35 to R42). Bits 31 to 8 are reserved, read 0 and hold nothing (R43). -/
structure Status where
  busy      : Bool
  done      : Bool
  err       : Bool
  freqValid : Bool
  treeValid : Bool
  degen     : Bool
  wrBlocked : Bool
  busErr    : Bool
deriving DecidableEq, Repr

/-- The error codes that are ever reported (R240); codes 8 to 15 are reserved and have no constructor. -/
inductive ErrCode where
  | none
  | illegalCmd
  | notReady
  | lengthRange
  | emptyInput
  | unknownSymbol
  | malformedPayload
  | outputOverflow
deriving DecidableEq, Repr

/-- A `raise` of a command's pseudocode: the error code and its information word (R13). -/
structure Raise where
  code : ErrCode
  info : Word
deriving DecidableEq, Repr

/-- The buffers' written bytes by HOST address (R80). An address not listed holds the free value of its region's
last draw; see `Memory.lookup`. -/
abbrev Memory := List Host.Cell

/-- What the outside lets happen next (R4, R5, R94, R281): a HOST transaction, the ENGINE's turn, a RESET. -/
inductive Event where
  | host (t : BusTxn)
  | engine
  | reset
deriving DecidableEq, Repr

/-- The architectural state R30 lists, then the model's own fields (log 1 to 4). -/
structure State where
  ctrl     : Ctrl              -- CTRL (R33)
  status   : Status            -- STATUS (R35 to R43)
  errCode  : ErrCode           -- ERRCODE (R44)
  errInfo  : Word              -- ERR_INFO (R45)
  inLen    : Word              -- IN_LEN (R46)
  outLen   : Word              -- OUT_LEN (R47)
  bitLen   : Word              -- BITLEN (R48)
  pad      : BitVec 4          -- PAD (R49)
  nsym     : BitVec 9          -- NSYM (R50)
  total    : Word              -- TOTAL (R51)
  rootIdx  : NodeIdx           -- ROOT.ROOT_IDX (R52)
  nnodes   : BitVec 10         -- ROOT.NNODES (R52)
  sel      : BitVec 9          -- SEL.IDX (R53)
  freq     : Vector Word 256      -- FREQ (R61)
  order    : Vector Byte 256      -- ORDER (R62)
  node     : Vector Node 511      -- NODE (R63)
  clen     : Vector Byte 256      -- CLEN (R64)
  cbits    : Vector CodeBits 256  -- CBITS (R64)
  pending  : Word              -- PENDING (R66)
  mem      : Memory            -- IBUF and OBUF (R68)
  sizes    : Config.Sizes      -- the parameters IBUF_BYTES and OBUF_BYTES, which nothing writes (R6)
  ibufDraw : Nat               -- model: the draw that IBUF's unwritten bytes come from (R68, R89)
  obufDraw : Nat               -- model: the draw that OBUF's unwritten bytes come from (R68, R247)
  draws    : Nat               -- model: the number of the next free draw (R60)
  rdata    : Option Word       -- model: what the last read transaction returned to the HOST
  schedule : List Event        -- model: what the outside does next, oldest first
deriving DecidableEq, Repr

/-- Why a step stops with a fault. There is no constructor: "Every bus transaction and every command word has a
defined outcome" (spec/93_implementation_defined.md), so nothing raises one. -/
inductive Fault where
deriving DecidableEq, Repr

/-- Why an instruction has no meaning. -/
inductive Refusal where
  /-- Raised by an arm of `exec` for an instruction not modelled yet; safe. No arm raises it now. -/
  | notModelled (mnemonic : String)
deriving DecidableEq, Repr

/-- The machine of sizes `z` right after RESET (R280), the contents R280 calls unspecified coming from draw
number `d`. -/
def State.resetWith (z : Config.Sizes) (d : Nat) : State where
  ctrl := { ieDone := false, ieErr := false }
  status := { busy := false, done := false, err := false, freqValid := false, treeValid := false,
              degen := false, wrBlocked := false, busErr := false }
  errCode := .none
  errInfo := 0
  inLen := 0
  outLen := 0
  bitLen := 0
  pad := 0
  nsym := 0
  total := 0
  rootIdx := 0
  nnodes := 0
  sel := 0
  freq := Vector.replicate 256 0
  order := Vector.replicate 256 0
  node := Vector.ofFn fun i => Config.freeNode d i
  clen := Vector.replicate 256 0
  cbits := Vector.ofFn fun i => Config.freeCode d i
  pending := 0
  mem := []
  sizes := z
  ibufDraw := d
  obufDraw := d
  draws := d + 1
  rdata := none
  schedule := []

/-- The machine right after power-on reset, at the sizes of `Config.defaultSizes` (log 1), with nothing scheduled. -/
def State.reset : State := State.resetWith Config.defaultSizes 0

end Sys2Proof.Machine
end

