-- ==== Sys2Proof/Machine/Ops.lean ====
section
/-! DEFINITION. The named operations over memory, tables and registers, ISSUE (R230), COMPLETE with its error
effects (R246, R247), which is what HUFCORE has for taking an exception, and RESET (R280, R281). -/

namespace Sys2Proof.Machine

/-! ### Buffer memory -/

/-- The byte written at an address, none where nothing was written since the region's last draw. -/
def Memory.lookup : Memory → Nat → Option Byte
  | [], _ => none
  | (k, v) :: rest, a => if k = a then some v else Memory.lookup rest a

/-- A write keeps the addresses rising. -/
def Memory.insert : Memory → Nat → Byte → Memory
  | [], a, v => [(a, v)]
  | (k, w) :: rest, a, v =>
    if a < k then (a, v) :: (k, w) :: rest
    else if a = k then (a, v) :: rest
    else (k, w) :: Memory.insert rest a v

/-- Forgets every byte written in [lo, hi), so that the region reads as its draw gives. -/
def Memory.forget (m : Memory) (lo hi : Nat) : Memory := m.filter fun c => !(decide (lo ≤ c.1) && decide (c.1 < hi))

/-- The canonical form: addresses strictly rising. An unlisted address holds no written byte, so no entry says
what an unlisted one says, and memories that agree at every address are equal. -/
abbrev Memory.wf (m : Memory) : Prop := m.Pairwise fun c d => c.1 < d.1

/-- An address is in OBUF (R80). -/
abbrev State.InObuf (s : State) (a : Nat) : Prop :=
  Config.obufBase ≤ a ∧ a < Config.obufBase + s.sizes.obufBytes

/-- The draw an unwritten byte comes from: OBUF has its own, so that R247 can redraw it alone. -/
def State.drawOf (s : State) (a : Nat) : Nat := if s.InObuf a then s.obufDraw else s.ibufDraw

/-- MemRead(a, 1) of R83: the byte written at `a`, or the stable free value of R68 and R89. -/
def State.readByte (s : State) (a : Nat) : Byte := (s.mem.lookup a).getD (Config.freeByte (s.drawOf a) a)

/-- MemRead(a, 4) of R83, little-endian. -/
def State.readWord (s : State) (a : Nat) : Word :=
  wordOfBytes (s.readByte a) (s.readByte (a + 1)) (s.readByte (a + 2)) (s.readByte (a + 3))

/-- MemWrite(a, 1, v) of R84, and of the ENGINE (R88). -/
def State.writeByte (s : State) (a : Nat) (v : Byte) : State := { s with mem := s.mem.insert a v }

/-- Writes bytes at ascending addresses from `a`. -/
def State.writeBytes (s : State) (a : Nat) : List Byte → State
  | [] => s
  | v :: rest => State.writeBytes (s.writeByte a v) (a + 1) rest

/-- MemWrite(a, 4, v) of R84, little-endian. -/
def State.writeWord (s : State) (a : Nat) (v : Word) : State := s.writeBytes a (bytesOfWord v)

/-- R247: every OBUF byte becomes unspecified, a new value being drawn for each. -/
def State.redrawObuf (s : State) : State :=
  { s with
    mem := s.mem.forget Config.obufBase (Config.obufBase + s.sizes.obufBytes)
    obufDraw := s.draws
    draws := s.draws + 1 }

/-! ### The tables -/

/-- Entry `b` of a table with one entry per symbol. -/
def tableAt {α : Type} (t : Vector α 256) (b : Byte) : α := t[b.toNat]'b.isLt

/-- A table with entry `b` replaced. -/
def tableSet {α : Type} (t : Vector α 256) (b : Byte) (x : α) : Vector α 256 := t.set b.toNat x b.isLt

/-- A table whose first entries are those of a list, the others as they were: the write
`NODE[0..t-1] <- N[0..t-1]` of R150. -/
def overlay {α : Type} {n : Nat} (t : Vector α n) (l : List α) : Vector α n :=
  Vector.ofFn fun i => l[i.val]?.getD t[i]

/-- ORDER[i] (R62). -/
def State.orderAt (s : State) (i : Nat) : Byte := s.order[i]?.getD Config.absentSym

/-- NODE[i] (R63). -/
def State.nodeAt (s : State) (i : NodeIdx) : Node := s.node[i.toNat]?.getD Config.absentNode

/-! ### The HOST's side of a transaction -/

/-- A read transaction returns `v` to the HOST. It changes nothing else (R87). -/
def State.returning (s : State) (v : Word) : State := { s with rdata := some v }

/-- The next draw is used up (R60). -/
def State.nextDraw (s : State) : State := { s with draws := s.draws + 1 }

/-- R42, R86: a bus error sets BUS_ERR and nothing else. -/
def State.setBusErr (s : State) : State := { s with status := { s.status with busErr := true } }

/-- R41: a blocked write sets WR_BLOCKED and nothing else. -/
def State.setWrBlocked (s : State) : State := { s with status := { s.status with wrBlocked := true } }

/-- ISSUE of command word `v` (R230). -/
def State.issue (s : State) (v : Word) : State :=
  { s with pending := v, status := { s.status with busy := true, done := false, err := false } }

/-! ### COMPLETE (R246): what HUFCORE has for taking an exception -/

/-- The fields every COMPLETE writes (R246). -/
def State.finish (s : State) (code : ErrCode) (info : Word) : State :=
  { s with
    errCode := code
    errInfo := info
    status := { s.status with err := decide (code ≠ .none), done := true, busy := false } }

/-- R247 for a failed ENCODE or DECODE: the result registers become 0 and OBUF unspecified. -/
def State.dropOutput (s : State) : State := { s.redrawObuf with outLen := 0, bitLen := 0, pad := 0 }

/-- COMPLETE (R246) of a command that writes no OBUF: commit, or fail with nothing else changed (R247). -/
def complete (result : Except Raise State) (s : State) : State :=
  match result with
  | .ok s' => s'.finish .none 0
  | .error e => s.finish e.code e.info

/-- COMPLETE (R246) of ENCODE and DECODE: commit, or fail and drop the output (R247). -/
def completeOutput (result : Except Raise State) (s : State) : State :=
  match result with
  | .ok s' => s'.finish .none 0
  | .error e => s.dropOutput.finish e.code e.info

/-- The commit of ENCODE and DECODE (R180, R200): the output bytes and the three result registers. -/
def State.commitOutput (s : State) (out : List Byte) (bits pad : Nat) : State :=
  { s.writeBytes Config.obufBase out with
    outLen := BitVec.ofNat 32 out.length
    bitLen := BitVec.ofNat 32 bits
    pad := BitVec.ofNat 4 pad }

/-! ### RESET and the ENGINE's fetch -/

/-- RESET (R280, R281, R282): every state element to its reset value, a command in progress abandoned, the
unspecified contents drawn anew. What belongs to the outside (the schedule, the value last read) stays. -/
def State.applyReset (s : State) : State :=
  { State.resetWith s.sizes s.draws with rdata := s.rdata, schedule := s.schedule }

/-- The command that COMPLETE runs: the one PENDING names (R246). -/
def State.pendingInstr (s : State) : Instr := decodeCommand s.pending

end Sys2Proof.Machine
end

