-- ==== Sys2Proof/Machine/Flags.lean ====
section
/-! DEFINITION. STATUS and CTRL as the HOST reads and writes them (R33, R35 to R43), the code numbers of ERRCODE
(R240) and the interrupt output (R67). -/

namespace Sys2Proof.Machine

/-- The bit `b` at place `i` of a 32-bit word. -/
def bitAt (i : Nat) (b : Bool) : Word := (BitVec.ofBool b).setWidth 32 <<< i

/-- STATUS as read (R35 to R43); bits 31 to 8 read 0. -/
def Status.word (t : Status) : Word :=
  bitAt 0 t.busy ||| bitAt 1 t.done ||| bitAt 2 t.err ||| bitAt 3 t.freqValid ||| bitAt 4 t.treeValid
    ||| bitAt 5 t.degen ||| bitAt 6 t.wrBlocked ||| bitAt 7 t.busErr

/-- A HOST write of `v` to STATUS (R43): write-1-to-clear of bits 1, 2, 6 and 7. -/
def Status.clearedBy (t : Status) (v : Word) : Status :=
  { t with
    done := t.done && !v.getLsbD 1
    err := t.err && !v.getLsbD 2
    wrBlocked := t.wrBlocked && !v.getLsbD 6
    busErr := t.busErr && !v.getLsbD 7 }

/-- CTRL as read (R33); bits 31 to 2 read 0. -/
def Ctrl.word (c : Ctrl) : Word := bitAt 0 c.ieDone ||| bitAt 1 c.ieErr

/-- CTRL as a HOST write of `v` leaves it (R33). -/
def Ctrl.ofWord (v : Word) : Ctrl := { ieDone := v.getLsbD 0, ieErr := v.getLsbD 1 }

/-- The code number of R240. -/
def ErrCode.number : ErrCode → BitVec 4
  | .none => 0
  | .illegalCmd => 1
  | .notReady => 2
  | .lengthRange => 3
  | .emptyInput => 4
  | .unknownSymbol => 5
  | .malformedPayload => 6
  | .outputOverflow => 7

/-- The interrupt output IRQ (R67, R248). -/
def State.irq (s : State) : Bool := (s.status.done && s.ctrl.ieDone) || (s.status.err && s.ctrl.ieErr)

end Sys2Proof.Machine
end

