-- ==== Sys2Proof/Machine/Operands.lean ====
section
/-! DEFINITION. Where a transaction goes: the regions (R80), the register map (spec/10_state.md section 2), which
accesses are bus errors (R82 to R86). And the implicit operands of commands (R112). -/

namespace Sys2Proof.Machine

/-- The regions of the HOST address space (R80). -/
inductive Region where
  | reg
  | ibuf
  | obuf
  | unmapped
deriving DecidableEq, Repr

/-- The region of an address (R80). -/
def regionOf (z : Config.Sizes) (a : Nat) : Region :=
  if a < Config.regBase + Config.regBytes then .reg
  else if Config.ibufBase ≤ a ∧ a < Config.ibufBase + z.ibufBytes then .ibuf
  else if Config.obufBase ≤ a ∧ a < Config.obufBase + z.obufBytes then .obuf
  else .unmapped

/-- The host registers (spec/10_state.md section 2). -/
inductive RegName where
  | id | ctrl | cmd | status | errCode | errInfo | inLen | outLen | bitLen | pad | nsym | total | root | sel
  | freqRd | orderRd | codeLenRd | nodeRd | nodeWRd
  | codeBitsRd (k : Fin 8)
deriving DecidableEq, Repr

/-- The offset of a register from REG_BASE (spec/10_state.md section 2). -/
def RegName.offset : RegName → Nat
  | .id => 0x000
  | .ctrl => 0x004
  | .cmd => 0x008
  | .status => 0x00C
  | .errCode => 0x010
  | .errInfo => 0x014
  | .inLen => 0x018
  | .outLen => 0x01C
  | .bitLen => 0x020
  | .pad => 0x024
  | .nsym => 0x028
  | .total => 0x02C
  | .root => 0x030
  | .sel => 0x034
  | .freqRd => 0x038
  | .orderRd => 0x03C
  | .codeLenRd => 0x040
  | .nodeRd => 0x044
  | .nodeWRd => 0x048
  | .codeBitsRd k => 0x060 + 4 * k.val

/-- Every register. -/
def RegName.all : List RegName :=
  [.id, .ctrl, .cmd, .status, .errCode, .errInfo, .inLen, .outLen, .bitLen, .pad, .nsym, .total, .root, .sel,
   .freqRd, .orderRd, .codeLenRd, .nodeRd, .nodeWRd] ++ (List.finRange 8).map .codeBitsRd

/-- The register at an offset, none where the map has no register (R82, R86 (d)). -/
def regAt (offset : Nat) : Option RegName := RegName.all.find? fun r => r.offset == offset

/-- What a transaction reaches; `error` is a bus error of R86. -/
inductive Target where
  | reg (r : RegName)
  | ibuf
  | obuf
  | error
deriving DecidableEq, Repr

/-- What an 8-bit transaction at `a` reaches: a buffer byte; R86 (a) and (b) make every other address a bus error. -/
def target8 (z : Config.Sizes) (a : Nat) : Target :=
  match regionOf z a with
  | .ibuf => .ibuf
  | .obuf => .obuf
  | .reg | .unmapped => .error

/-- What a 32-bit transaction at `a` reaches: R86 (c) misaligned, (d) no register at the offset, (a) and (f) four
bytes not all in one buffer. -/
def target32 (z : Config.Sizes) (a : Nat) : Target :=
  if a % 4 ≠ 0 then .error
  else match regionOf z a with
    | .reg => match regAt (a - Config.regBase) with
      | some r => .reg r
      | none => .error
    | .ibuf => if regionOf z (a + 3) = .ibuf then .ibuf else .error
    | .obuf => if regionOf z (a + 3) = .obuf then .obuf else .error
    | .unmapped => .error

/-- The registers whose read is unspecified while BUSY (R60). -/
def RegName.gatedWhileBusy : RegName → Bool
  | .id | .ctrl | .cmd | .status | .inLen | .sel => false
  | .errCode | .errInfo | .outLen | .bitLen | .pad | .nsym | .total | .root => true
  | .freqRd | .orderRd | .codeLenRd | .nodeRd | .nodeWRd | .codeBitsRd _ => true

/-- The bytes IBUF[0 .. x[IN_LEN]-1], the operand of ANALYZE, ENCODE and DECODE (R112). -/
def State.inputBytes (s : State) : List Byte :=
  (List.range s.inLen.toNat).map fun i => s.readByte (Config.ibufBase + i)

/-- The symbols ORDER[0 .. NSYM-1], in insertion order, the operand of BUILD (R112, R150). -/
def State.symbols (s : State) : List Byte := (List.range s.nsym.toNat).map s.orderAt

end Sys2Proof.Machine
end

