-- ==== Sys2Proof/Machine/Registers.lean ====
section
/-! DEFINITION. What a HOST read of each register answers (R32 to R59) and what a HOST write of each does (R33,
R34, R41, R43, R46, R53, R230). -/

namespace Sys2Proof.Machine

/-- SEL.IDX[7:0], the symbol that FREQ_RD, CODELEN_RD and CODEBITS_RDk show (R54, R56, R57). -/
def State.selSym (s : State) : Byte := s.sel.extractLsb' 0 8

/-- ROOT as read (R52): both fields 0 while TREE_VALID = 0. -/
def State.rootWord (s : State) : Word :=
  if s.status.treeValid then s.nnodes.setWidth 32 <<< 16 ||| s.rootIdx.setWidth 32 else 0

/-- FREQ_RD (R54). -/
def State.freqRd (s : State) : Word := if s.status.freqValid then tableAt s.freq s.selSym else 0

/-- ORDER_RD (R55): bit 8 is VALID. -/
def State.orderRd (s : State) : Word :=
  if s.status.freqValid ∧ s.sel < s.nsym then 0x100 ||| (s.orderAt s.sel.toNat).setWidth 32 else 0

/-- CODELEN_RD (R56). -/
def State.codeLenRd (s : State) : Word :=
  if s.status.treeValid then (tableAt s.clen s.selSym).setWidth 32 else 0

/-- CODEBITS_RDk (R57): bits 32k+31 to 32k of the CBITS entry taken as a 256-bit value. -/
def State.codeBitsRd (s : State) (k : Fin 8) : Word :=
  if s.status.treeValid then ((tableAt s.cbits s.selSym).setWidth 256).extractLsb' (32 * k.val) 32 else 0

/-- The condition under which NODE_RD and NODEW_RD show an entry (R58): a tree, and SEL.IDX < NNODES. -/
def State.nodeShown (s : State) : Bool := s.status.treeValid && decide (s.sel.toNat < s.nnodes.toNat)

/-- The layout of NODE_RD (R58): left in bits 8 to 0, right in 17 to 9, sym in 25 to 18, leaf in 31. -/
def nodeWord (n : Node) : Word :=
  bitAt 31 n.leaf ||| n.sym.setWidth 32 <<< 18 ||| n.right.setWidth 32 <<< 9 ||| n.left.setWidth 32

/-- NODE_RD (R58). -/
def State.nodeRd (s : State) : Word := if s.nodeShown then nodeWord (s.nodeAt s.sel) else 0

/-- NODEW_RD (R59). -/
def State.nodeWRd (s : State) : Word := if s.nodeShown then (s.nodeAt s.sel).w else 0

/-- The value a HOST read of a register gives while R60 does not make it unspecified. -/
def State.readReg (s : State) : RegName → Word
  | .id => Config.idValue
  | .ctrl => s.ctrl.word
  | .cmd => 0
  | .status => s.status.word
  | .errCode => s.errCode.number.setWidth 32
  | .errInfo => s.errInfo
  | .inLen => s.inLen
  | .outLen => s.outLen
  | .bitLen => s.bitLen
  | .pad => s.pad.setWidth 32
  | .nsym => s.nsym.setWidth 32
  | .total => s.total
  | .root => s.rootWord
  | .sel => s.sel.setWidth 32
  | .freqRd => s.freqRd
  | .orderRd => s.orderRd
  | .codeLenRd => s.codeLenRd
  | .nodeRd => s.nodeRd
  | .nodeWRd => s.nodeWRd
  | .codeBitsRd k => s.codeBitsRd k

/-- A HOST write of `v` to a register while BUSY = 0: the read-only registers ignore it (spec/10_state.md
section 2), CMD issues (R230). -/
def State.writeRegIdle (s : State) (v : Word) : RegName → State
  | .ctrl => { s with ctrl := Ctrl.ofWord v }
  | .cmd => s.issue v
  | .status => { s with status := s.status.clearedBy v }
  | .inLen => { s with inLen := v }
  | .sel => { s with sel := v.extractLsb' 0 9 }
  | .id | .errCode | .errInfo | .outLen | .bitLen | .pad | .nsym | .total | .root => s
  | .freqRd | .orderRd | .codeLenRd | .nodeRd | .nodeWRd | .codeBitsRd _ => s

/-- A HOST write of `v` to a register while BUSY = 1: only CTRL and STATUS take it, any other address is blocked
(R33, R41, R43). -/
def State.writeRegBusy (s : State) (v : Word) : RegName → State
  | .ctrl => { s with ctrl := Ctrl.ofWord v }
  | .status => { s with status := s.status.clearedBy v }
  | .id | .cmd | .errCode | .errInfo | .inLen | .outLen | .bitLen | .pad | .nsym | .total | .root => s.setWrBlocked
  | .sel | .freqRd | .orderRd | .codeLenRd | .nodeRd | .nodeWRd | .codeBitsRd _ => s.setWrBlocked

/-- A HOST write of `v` to a register. -/
def State.writeReg (s : State) (r : RegName) (v : Word) : State :=
  if s.status.busy then s.writeRegBusy v r else s.writeRegIdle v r

end Sys2Proof.Machine
end

