-- ==== Sys2Proof/Machine/Bus.lean ====
section
/-! DEFINITION. The HOST's bus transactions RD8, RD32, WR8 and WR32 (R81 to R87, R41, R60). -/

namespace Sys2Proof.Machine

open Host (Outcome)

/-- A read that is a bus error: BUS_ERR is set and the HOST gets 0 (R86). -/
def State.badRead (s : State) : State := s.setBusErr.returning 0

/-- A read that R60 makes unspecified: a fresh draw, here of a byte. -/
def State.unspecifiedByte (s : State) (a : Nat) : State :=
  s.nextDraw.returning ((Config.freeByte s.draws a).setWidth 32)

/-- A read that R60 makes unspecified: a fresh draw, here of a word. -/
def State.unspecifiedWord (s : State) : State := s.nextDraw.returning (Config.freeWord s.draws)

/-- RD8 (R81, R83, R86, R60). -/
def State.read8 (s : State) (a : Nat) : State :=
  match target8 s.sizes a with
  | .ibuf => s.returning ((s.readByte a).setWidth 32)
  | .obuf =>
    if s.status.busy then s.unspecifiedByte a else s.returning ((s.readByte a).setWidth 32)
  | .reg _ | .error => s.badRead

/-- RD32 (R81 to R83, R86, R60). -/
def State.read32 (s : State) (a : Nat) : State :=
  match target32 s.sizes a with
  | .reg r =>
    if s.status.busy && r.gatedWhileBusy then s.unspecifiedWord else s.returning (s.readReg r)
  | .ibuf => s.returning (s.readWord a)
  | .obuf => if s.status.busy then s.unspecifiedWord else s.returning (s.readWord a)
  | .error => s.badRead

/-- WR8 (R81, R84, R86, R41). -/
def State.write8 (s : State) (a : Nat) (v : Byte) : State :=
  match target8 s.sizes a with
  | .ibuf => if s.status.busy then s.setWrBlocked else s.writeByte a v
  | .obuf | .reg _ | .error => s.setBusErr

/-- WR32 (R81, R82, R84, R86, R41). -/
def State.write32 (s : State) (a : Nat) (v : Word) : State :=
  match target32 s.sizes a with
  | .reg r => s.writeReg r v
  | .ibuf => if s.status.busy then s.setWrBlocked else s.writeWord a v
  | .obuf | .error => s.setBusErr

/-- RD8. -/
def execRd8 (addr : Word) (s : State) : Outcome State Fault Refusal := .next (s.read8 addr.toNat)

/-- RD32. -/
def execRd32 (addr : Word) (s : State) : Outcome State Fault Refusal := .next (s.read32 addr.toNat)

/-- WR8. -/
def execWr8 (addr : Word) (value : Byte) (s : State) : Outcome State Fault Refusal :=
  .next (s.write8 addr.toNat value)

/-- WR32. -/
def execWr32 (addr : Word) (value : Word) (s : State) : Outcome State Fault Refusal :=
  .next (s.write32 addr.toNat value)

end Sys2Proof.Machine
end

