-- ==== Sys2Proof/Machine/Control.lean ====
section
/-! DEFINITION. The control commands NOP (R231) and CLEAR (R233), and the illegal command words (R113). Each meaning
is the command's COMPLETE (R246). -/

namespace Sys2Proof.Machine

open Host (Outcome)

/-- NOP (R231): only the COMPLETE fields. -/
def execNop (s : State) : Outcome State Fault Refusal := .next (complete (.ok s) s)

/-- CLEAR's commit (R233). NODE, CBITS and ROOT are left as they are. -/
def State.cleared (s : State) : State :=
  { s with
    freq := Vector.replicate 256 0
    order := Vector.replicate 256 0
    clen := Vector.replicate 256 0
    nsym := 0
    total := 0
    status := { s.status with freqValid := false, treeValid := false, degen := false }
    outLen := 0
    bitLen := 0
    pad := 0 }

/-- CLEAR (R233). -/
def execClear (s : State) : Outcome State Fault Refusal := .next (complete (.ok s.cleared) s)

/-- An illegal command word (R113): ILLEGAL_CMD with ERR_INFO the whole word (R241). -/
def execIllegal (word : Word) (s : State) : Outcome State Fault Refusal :=
  .next (complete (.error { code := .illegalCmd, info := word }) s)

end Sys2Proof.Machine
end

