-- ==== Sys2Proof/Machine/Decoder.lean ====
section
/-! DEFINITION. DECODE, the bitstream decoder (R200 to R208). -/

namespace Sys2Proof.Machine

open Host (Outcome)

/-- The child that a bit leads to: 0 to the left, 1 to the right (R203). -/
def Node.child (n : Node) (b : Bool) : NodeIdx := if b then n.right else n.left

/-- walk_tree (R203) from a node and a candidate length: the symbols emitted and the final candidate length. -/
def State.walkTree (s : State) : NodeIdx → Nat → Bits → List Byte × Nat
  | _, len, [] => ([], len)
  | n, len, b :: rest =>
    let next := Node.child (s.nodeAt n) b
    if (s.nodeAt next).leaf then
      let r := s.walkTree s.rootIdx 0 rest
      ((s.nodeAt next).sym :: r.1, r.2)
    else s.walkTree next (len + 1) rest

/-- walk_degenerate (R204) from a candidate length, the one entry being "0" for `sym`. -/
def walkDegenerate (sym : Byte) : Nat → Bits → List Byte × Nat
  | len, [] => ([], len)
  | len, b :: rest =>
    if len = 0 ∧ b = false then
      let r := walkDegenerate sym len rest
      (sym :: r.1, r.2)
    else walkDegenerate sym (len + 1) rest

/-- The walk that STATUS.DEGEN selects (R200). -/
def State.walk (s : State) (body : Bits) : List Byte × Nat :=
  if s.status.degen then walkDegenerate (s.nodeAt s.rootIdx).sym 0 body else s.walkTree s.rootIdx 0 body

/-- s[8 .. 8n - P) of R202. -/
def bodyBits (input : List Byte) (p : Nat) : Bits := ((unpack input).take (8 * input.length - p)).drop 8

/-- ERR_INFO of MALFORMED_PAYLOAD: the sub-cause in bits 31 to 28, the detail below (R200, R241). -/
def malformedInfo (sub : BitVec 4) (detail : Nat) : Word := sub.setWidth 32 <<< 28 ||| BitVec.ofNat 32 detail

/-- DECODE from the header P on (R200). -/
def State.decodePadded (s : State) (p : Nat) : Except Raise State :=
  if p < 1 ∨ 8 < p then .error { code := .malformedPayload, info := malformedInfo 2 p }
  else
    let body := bodyBits s.inputBytes p
    let r := s.walk body
    if r.2 ≠ 0 then .error { code := .malformedPayload, info := malformedInfo 3 r.2 }
    else if s.sizes.obufBytes < r.1.length then
      .error { code := .outputOverflow, info := BitVec.ofNat 32 r.1.length }
    else .ok (s.commitOutput r.1 body.length p)

/-- DECODE's pseudocode (R200). -/
def decodeInput (s : State) : Except Raise State :=
  if s.status.treeValid = false then .error { code := .notReady, info := 2 }
  else if s.sizes.ibufBytes < s.inLen.toNat then .error { code := .lengthRange, info := s.inLen }
  else if s.inLen.toNat < 2 then .error { code := .malformedPayload, info := malformedInfo 1 s.inLen.toNat }
  else s.decodePadded (s.readByte Config.ibufBase).toNat

/-- DECODE (R200). -/
def execDecode (s : State) : Outcome State Fault Refusal := .next (completeOutput (decodeInput s) s)

end Sys2Proof.Machine
end

