-- ==== Sys2Proof/Machine/Encoder.lean ====
section
/-! DEFINITION. ENCODE, the bitstream encoder (R180 to R185). -/

namespace Sys2Proof.Machine

open Host (Outcome)

/-- The code of a symbol (R64). -/
def State.codeFor (s : State) (sym : Byte) : Bits := codeOf (tableAt s.clen sym) (tableAt s.cbits sym)

/-- ERR_INFO of UNKNOWN_SYMBOL: the symbol in bits 31 to 24, its index below (R180, R241). -/
def unknownInfo (sym : Byte) (i : Nat) : Word := sym.setWidth 32 <<< 24 ||| BitVec.ofNat 32 i

/-- The codes of the input symbols from index `i` on, concatenated (R181); the first symbol without a code
raises UNKNOWN_SYMBOL. -/
def State.encodeFrom (s : State) : Nat → List Byte → Except Raise Bits
  | _, [] => .ok []
  | i, sym :: rest =>
    if tableAt s.clen sym = 0 then .error { code := .unknownSymbol, info := unknownInfo sym i }
    else match s.encodeFrom (i + 1) rest with
      | .ok bits => .ok (s.codeFor sym ++ bits)
      | .error e => .error e

/-- The padding length P of R182, always 1 to 8. -/
def padLength (bits : Bits) : Nat := 8 - bits.length % 8

/-- The final bitstream (R183): header, code bits, padding. -/
def payloadBits (bits : Bits) : Bits :=
  bin8 (BitVec.ofNat 8 (padLength bits)) ++ bits ++ List.replicate (padLength bits) false

/-- The output bytes (R184). -/
def payload (bits : Bits) : List Byte := pack (payloadBits bits)

/-- ENCODE's pseudocode (R180). -/
def encodeInput (s : State) : Except Raise State :=
  if s.status.treeValid = false then .error { code := .notReady, info := 2 }
  else if s.sizes.ibufBytes < s.inLen.toNat then .error { code := .lengthRange, info := s.inLen }
  else if s.inLen = 0 then .error { code := .emptyInput, info := 0 }
  else match s.encodeFrom 0 s.inputBytes with
    | .error e => .error e
    | .ok bits =>
      if s.sizes.obufBytes < (payloadBits bits).length / 8 then
        .error { code := .outputOverflow, info := BitVec.ofNat 32 ((payloadBits bits).length / 8) }
      else .ok (s.commitOutput (payload bits) bits.length (padLength bits))

/-- ENCODE (R180). -/
def execEncode (s : State) : Outcome State Fault Refusal := .next (completeOutput (encodeInput s) s)

end Sys2Proof.Machine
end

