-- ==== Sys2Proof/Machine/Frequency.lean ====
section
/-! DEFINITION. ANALYZE, the frequency analyzer (R130 to R134). -/

namespace Sys2Proof.Machine

open Host (Outcome)

/-- The working copies F, O and k of R130. -/
structure Tally where
  freq  : Vector Word 256
  order : Vector Byte 256
  count : Nat
deriving DecidableEq, Repr

/-- The working copies before the scan (R130). -/
def Tally.empty : Tally := { freq := Vector.replicate 256 0, order := Vector.replicate 256 0, count := 0 }

/-- One input symbol: at its first occurrence it enters ORDER (R131), and it is counted (R132). -/
def Tally.add (t : Tally) (sym : Byte) : Tally :=
  let counted := tableSet t.freq sym (tableAt t.freq sym + 1)
  if tableAt t.freq sym = 0 then
    { freq := counted, order := t.order.setIfInBounds t.count sym, count := t.count + 1 }
  else { t with freq := counted }

/-- The single pass over the input, ascending (R130). -/
def Tally.scan (input : List Byte) : Tally := input.foldl Tally.add Tally.empty

/-- ANALYZE's commit (R130): the table replaced, the tree invalidated (R133). -/
def State.commitTally (s : State) (t : Tally) : State :=
  { s with
    freq := t.freq
    order := t.order
    nsym := BitVec.ofNat 9 t.count
    total := s.inLen
    status := { s.status with freqValid := true, treeValid := false, degen := false } }

/-- ANALYZE's pseudocode (R130). -/
def analyze (s : State) : Except Raise State :=
  if s.sizes.ibufBytes < s.inLen.toNat then .error { code := .lengthRange, info := s.inLen }
  else if s.inLen = 0 then .error { code := .emptyInput, info := 0 }
  else .ok (s.commitTally (Tally.scan s.inputBytes))

/-- ANALYZE (R130). -/
def execAnalyze (s : State) : Outcome State Fault Refusal := .next (complete (analyze s) s)

end Sys2Proof.Machine
end

