-- ==== Sys2Proof/Machine/TreeCode.lean ====
section
/-! DEFINITION. BUILD, the tree builder and code-table generator (R150 to R159). -/

namespace Sys2Proof.Machine

open Host (Outcome)

/-- An element of the priority queue H: the key (weight, seq) and the node's arena index (R150, R151). -/
structure QElem where
  weight : Nat
  seq    : Nat
  node   : Nat
deriving DecidableEq, Repr

/-- The lexicographic order of the keys: weight first, then seq (R17). -/
def QElem.before (a b : QElem) : Bool :=
  decide (a.weight < b.weight) || (decide (a.weight = b.weight) && decide (a.seq < b.seq))

/-- popmin (R17): the element of least key, and the queue without it. The list's own order does not matter
(R154). -/
def popMin : List QElem → Option (QElem × List QElem)
  | [] => none
  | e :: rest =>
    match popMin rest with
    | none => some (e, [])
    | some (m, rest') => if m.before e then some (m, e :: rest') else some (e, rest)

/-- The working state of R150: the queue H and the arena N[0..t-1]. -/
structure Forest where
  queue : List QElem
  arena : List Node
deriving DecidableEq, Repr

/-- A leaf of R150. -/
def leafNode (freq : Vector Word 256) (sym : Byte) : Node :=
  { leaf := true, sym := sym, w := tableAt freq sym, left := 0, right := 0 }

/-- The queue element of leaf `i`, its seq equal to its arena index (R151). -/
def leafElem (freq : Vector Word 256) (sym : Byte) (i : Nat) : QElem :=
  { weight := (tableAt freq sym).toNat, seq := i, node := i }

/-- The leaves pushed in insertion order (R151). -/
def Forest.leaves (freq : Vector Word 256) (syms : List Byte) : Forest where
  queue := syms.zipIdx.map fun p => leafElem freq p.1 p.2
  arena := syms.map (leafNode freq)

/-- The internal node over two popped elements, node1 to the left (R152). -/
def mergeNode (e1 e2 : QElem) : Node :=
  { leaf := false, sym := 0, w := BitVec.ofNat 32 (e1.weight + e2.weight),
    left := BitVec.ofNat 9 e1.node, right := BitVec.ofNat 9 e2.node }

/-- One round of the loop of R150: two pops, one new node, pushed with the next seq, its arena index (R151,
R152). With fewer than two elements there is no round. -/
def Forest.merge (f : Forest) : Forest :=
  match popMin f.queue with
  | none => f
  | some (e1, q1) =>
    match popMin q1 with
    | none => f
    | some (e2, q2) =>
      { queue := { weight := e1.weight + e2.weight, seq := f.arena.length, node := f.arena.length } :: q2
        arena := f.arena ++ [mergeNode e1 e2] }

/-- The loop of R150, given at least as many rounds as it takes. -/
def Forest.mergeAll : Nat → Forest → Forest
  | 0, f => f
  | n + 1, f => Forest.mergeAll n f.merge

/-- The tree over symbols in insertion order: the loop makes one round less than there are leaves (R153). -/
def Forest.build (freq : Vector Word 256) (syms : List Byte) : Forest :=
  Forest.mergeAll syms.length (Forest.leaves freq syms)

/-- The last node left in the queue (R153); an empty queue, which no reachable state gives, has none (log 8). -/
def Forest.root (f : Forest) : Nat :=
  match popMin f.queue with
  | some (r, _) => r.node
  | none => Config.absentRoot

/-- assign(n, p) of R155: the leaves under node `n` with their paths. The first argument bounds the depth. -/
def assign (arena : List Node) : Nat → Nat → Bits → List (Byte × Bits)
  | 0, _, _ => []
  | depth + 1, n, p =>
    match arena[n]? with
    | none => []
    | some nd =>
      if nd.leaf then [(nd.sym, p)]
      else assign arena depth nd.left.toNat (p ++ [false]) ++ assign arena depth nd.right.toNat (p ++ [true])

/-- The codes of a finished tree: R156 for one leaf, R155 otherwise. -/
def Forest.codes (f : Forest) (nsym : Nat) : List (Byte × Bits) :=
  if nsym = 1 then [((f.arena[f.root]?.getD Config.absentNode).sym, [false])]
  else assign f.arena f.arena.length f.root []

/-- CL (R155): each coded symbol's code length, 0 for every other symbol (R157). -/
def codeLengths (codes : List (Byte × Bits)) : Vector Byte 256 :=
  codes.foldl (fun t c => tableSet t c.1 (BitVec.ofNat 8 c.2.length)) (Vector.replicate 256 0)

/-- CB (R155): each coded symbol's code value, most significant bit first, 0 for every other symbol. -/
def codeValues (codes : List (Byte × Bits)) : Vector CodeBits 256 :=
  codes.foldl (fun t c => tableSet t c.1 (BitVec.ofNat 255 (natOfBits c.2))) (Vector.replicate 256 0)

/-- BUILD's commit (R150). -/
def State.commitTree (s : State) (f : Forest) : State :=
  let codes := f.codes s.nsym.toNat
  { s with
    node := overlay s.node f.arena
    clen := codeLengths codes
    cbits := codeValues codes
    rootIdx := BitVec.ofNat 9 f.root
    nnodes := BitVec.ofNat 10 f.arena.length
    status := { s.status with treeValid := true, degen := decide (s.nsym = 1) } }

/-- BUILD's pseudocode (R150). -/
def build (s : State) : Except Raise State :=
  if s.status.freqValid then .ok (s.commitTree (Forest.build s.freq s.symbols))
  else .error { code := .notReady, info := 1 }

/-- BUILD (R150). -/
def execBuild (s : State) : Outcome State Fault Refusal := .next (complete (build s) s)

end Sys2Proof.Machine
end

