-- ==== Sys2Proof/Machine/Dispatch.lean ====
section
/-! DEFINITION. One arm per instruction. A command's arm is its COMPLETE (R246), a transaction's arm the
transaction (R81). -/

namespace Sys2Proof.Machine

def exec (i : Instr) (s : State) : Host.Outcome State Fault Refusal :=
  match i with
  | .nop => Sys2Proof.Machine.execNop s
  | .clear => Sys2Proof.Machine.execClear s
  | .analyze => Sys2Proof.Machine.execAnalyze s
  | .build => Sys2Proof.Machine.execBuild s
  | .encode => Sys2Proof.Machine.execEncode s
  | .decode => Sys2Proof.Machine.execDecode s
  | .illegal word => Sys2Proof.Machine.execIllegal word s
  | .rd8 addr => Sys2Proof.Machine.execRd8 addr s
  | .rd32 addr => Sys2Proof.Machine.execRd32 addr s
  | .wr8 addr value => Sys2Proof.Machine.execWr8 addr value s
  | .wr32 addr value => Sys2Proof.Machine.execWr32 addr value s

end Sys2Proof.Machine
end

