-- ==== Sys2Proof/Machine/Step.lean ====
section
/-! DEFINITION. One step of the machine: the next thing the schedule lets happen (R4, R5, R94, R281). -/

namespace Sys2Proof.Machine

open Host (Outcome)

/-- The ENGINE's turn: COMPLETE of the command PENDING names while BUSY = 1 (R246), nothing while idle (R259). -/
def engineStep (s : State) : Outcome State Fault Refusal :=
  if s.status.busy then exec s.pendingInstr s else .next s

/-- One event (R94): a whole HOST transaction, the ENGINE's turn or a RESET. -/
def eventStep (e : Event) (s : State) : Outcome State Fault Refusal :=
  match e with
  | .host t => exec (decodeBus t) s
  | .engine => engineStep s
  | .reset => .next s.applyReset

/-- One step. With nothing scheduled the ENGINE has its turn, so an issued command completes (R5). -/
def step (s : State) : Outcome State Fault Refusal :=
  match s.schedule with
  | [] => engineStep s
  | e :: rest => eventStep e { s with schedule := rest }

/-- The state whose very next step runs the instruction that `decodeTableWord nbits w` reads: a command word of
32 bits stands in PENDING with BUSY = 1 and the ENGINE's turn next, a bus transaction of operands 0 stands next
in the schedule (log 3, log 5). -/
def State.withFetchWord (s : State) (nbits w : Nat) : State :=
  if nbits = 32 then
    { s with
      pending := BitVec.ofNat 32 w
      status := { s.status with busy := true }
      schedule := .engine :: s.schedule }
  else
    let n := w % 2 ^ nbits
    { s with
      schedule := .host { attr := BitVec.ofNat 2 n, addr := BitVec.ofNat 32 (n / 2 ^ 8),
                          wdata := BitVec.ofNat 32 (n / 2 ^ 40) } :: s.schedule }

end Sys2Proof.Machine
end

