-- ==== Sys2Proof/Machine/HostAsm.lean ====
section
/-! DEFINITION. The HOST's assembly notation (R118, R119): what each statement puts into the schedule. It is no part
of the block (D33); it says how programs of the spec's form are written down as events. -/

namespace Sys2Proof.Machine

/-- A statement of R118. A register address is `regAddr r`, a buffer address `ibufAddr i` or `obufAddr j`. -/
inductive Stmt where
  | wr32 (addr v : Word)
  | wr8 (addr : Word) (v : Byte)
  | rd32 (addr : Word)
  | rd8 (addr : Word)
  | cmd (word : Word)
deriving DecidableEq, Repr

/-- The address that a register's name stands for (R118). -/
def regAddr (r : RegName) : Word := BitVec.ofNat 32 (Config.regBase + r.offset)

/-- `IBUF+i` (R118). -/
def ibufAddr (i : Nat) : Word := BitVec.ofNat 32 (Config.ibufBase + i)

/-- `OBUF+j` (R118). -/
def obufAddr (j : Nat) : Word := BitVec.ofNat 32 (Config.obufBase + j)

/-- The bus transaction that a statement stands for (R118, R114). -/
def Stmt.txn : Stmt → BusTxn
  | .wr32 a v => { attr := 0b11, addr := a, wdata := v }
  | .wr8 a v => { attr := 0b10, addr := a, wdata := v.setWidth 32 }
  | .rd32 a => { attr := 0b01, addr := a, wdata := 0 }
  | .rd8 a => { attr := 0b00, addr := a, wdata := 0 }
  | .cmd w => { attr := 0b11, addr := regAddr .cmd, wdata := w }

/-- The event of a statement. -/
def Stmt.event (t : Stmt) : Event := .host t.txn

/-- `wait` (R119), in the interleaving where COMPLETE comes after `polls` reads of STATUS that still show BUSY. R94 and U8
leave that number open, so it is an argument (DESIGN CHOICE, log 12). -/
def waitEvents (polls : Nat) : List Event :=
  List.replicate polls (Stmt.rd32 (regAddr .status)).event ++ [.engine, (Stmt.rd32 (regAddr .status)).event]

/-- `setlen n` (R119). -/
def setlenEvents (n : Word) : List Event := [(Stmt.wr32 (regAddr .inLen) n).event]

/-- `loadin b0 b1 ...` (R119). -/
def loadinEvents (bs : List Byte) : List Event := bs.zipIdx.map fun p => (Stmt.wr8 (ibufAddr p.2) p.1).event

/-- `run M` (R119) for the command word of M, its `wait` seeing `polls` reads that still show BUSY (log 12). -/
def runEvents (polls : Nat) (word : Word) : List Event := (Stmt.cmd word).event :: waitEvents polls

/-- `compress n` (R119): ANALYZE, BUILD, ENCODE. Each of the three waits has a number of polls of its own, which R94 and
U8 leave open and let differ (DESIGN CHOICE, log 12). -/
def compressEvents (analyzePolls buildPolls encodePolls : Nat) (n : Word) : List Event :=
  setlenEvents n ++ runEvents analyzePolls 2 ++ runEvents buildPolls 3 ++ runEvents encodePolls 4

/-- `decompress n` (R119): DECODE, its `wait` seeing `polls` reads that still show BUSY (log 12). -/
def decompressEvents (polls : Nat) (n : Word) : List Event := setlenEvents n ++ runEvents polls 5

end Sys2Proof.Machine
end

