-- ==== Sys2Proof/Safety.lean ====
section
/-! DEFINITION. What the claims are stated in: the invariant of every reachable state (R69 and what it rests on),
the paths of the tree, the source's own decoding loop (R205), the effects of a failed output command (R247). -/

namespace Sys2Proof.Machine

/-- An address is in IBUF (R80). -/
abbrev State.InIbuf (s : State) (a : Nat) : Prop :=
  Config.ibufBase ≤ a ∧ a < Config.ibufBase + s.sizes.ibufBytes

/-- The sum of all FREQ entries (R51). -/
def State.freqSum (s : State) : Nat := (s.freq.toList.map BitVec.toNat).sum

/-- From node `n` the path `p` goes through internal nodes only and ends at a leaf for `sym` (R63, R155). -/
def State.Leads (s : State) (sym : Byte) : NodeIdx → Bits → Prop
  | n, [] => (s.nodeAt n).leaf = true ∧ (s.nodeAt n).sym = sym
  | n, b :: rest => (s.nodeAt n).leaf = false ∧ s.Leads sym (Node.child (s.nodeAt n) b) rest

/-- A symbol has a code (R56, R64). -/
abbrev State.HasCode (s : State) (sym : Byte) : Prop := tableAt s.clen sym ≠ 0

/-- No code is a prefix of another symbol's code (R69 (d), R158). -/
def State.PrefixFree (s : State) : Prop :=
  ∀ a b : Byte, s.HasCode a → s.HasCode b → a ≠ b → ¬ s.codeFor a <+: s.codeFor b

/-- The forward map (CLEN, CBITS) and the inverse map DECODE uses are exact inverses (R158): in the general case
the codes are the root-to-leaf paths, in the degenerate case the one code is "0" (R156, R204). -/
def State.MapsInverse (s : State) : Prop :=
  if s.status.degen then
    ∀ sym : Byte, s.HasCode sym ↔ sym = (s.nodeAt s.rootIdx).sym ∧ s.codeFor sym = [false]
  else ∀ (sym : Byte) (p : Bits), (s.HasCode sym ∧ s.codeFor sym = p) ↔ s.Leads sym s.rootIdx p

/-- Node `j` is in the priority queue when internal node `i` is made, in a tree over `m` leaves: it was pushed
before, and no internal node made before took it (R152). -/
def State.Live (s : State) (m : Nat) (i j : NodeIdx) : Prop :=
  j < i ∧ ∀ k : NodeIdx, m ≤ k.toNat → k < i → (s.nodeAt k).left ≠ j ∧ (s.nodeAt k).right ≠ j

/-- Node `a`'s key (weight, seq) is less than node `b`'s (R17), a node's seq being its arena index (R151). -/
def State.KeyBefore (s : State) (a b : NodeIdx) : Prop :=
  (s.nodeAt a).w < (s.nodeAt b).w ∨ ((s.nodeAt a).w = (s.nodeAt b).w ∧ a < b)

/-- What FREQ_VALID = 1 says of the frequency table (R38, R61, R62, R69 (c)). -/
structure State.TableInv (s : State) : Prop where
  nsym_pos   : 1 ≤ s.nsym.toNat
  nsym_le    : s.nsym.toNat ≤ 256
  total_eq   : s.total.toNat = s.freqSum
  total_pos  : 1 ≤ s.total.toNat
  distinct   : s.symbols.Nodup
  listed     : ∀ sym : Byte, sym ∈ s.symbols ↔ tableAt s.freq sym ≠ 0

/-- What TREE_VALID = 1 says of the tree and the code table (R39, R69 (d), R158). -/
structure State.TreeInv (s : State) : Prop where
  nnodes_eq   : s.nnodes.toNat = 2 * s.nsym.toNat - 1
  coded       : ∀ sym : Byte, s.HasCode sym ↔ tableAt s.freq sym ≠ 0
  inverse     : s.MapsInverse
  root_inner  : s.status.degen = false → (s.nodeAt s.rootIdx).leaf = false

/-- The invariant of every reachable state. -/
structure State.Inv (s : State) : Prop where
  sizes_valid : s.sizes.Valid
  mem_wf      : s.mem.wf
  mem_mapped  : ∀ c ∈ s.mem, s.InIbuf c.1 ∨ s.InObuf c.1
  draws_past  : s.ibufDraw < s.draws ∧ s.obufDraw < s.draws
  busy_clear  : s.status.busy = true → s.status.done = false ∧ s.status.err = false
  pad_le      : s.pad.toNat ≤ 8
  tree_freq   : s.status.treeValid = true → s.status.freqValid = true
  degen_iff   : s.status.degen = true ↔ s.status.treeValid = true ∧ s.nsym.toNat = 1
  table       : s.status.freqValid = true → s.TableInv
  tree        : s.status.treeValid = true → s.TreeInv

/-- R69 as the spec words it. -/
structure State.R69 (s : State) : Prop where
  a : s.status.treeValid = true → s.status.freqValid = true
  b : s.status.degen = true → s.status.treeValid = true ∧ s.nsym.toNat = 1
  c : s.status.freqValid = true →
        (1 ≤ s.nsym.toNat ∧ s.nsym.toNat ≤ 256) ∧ s.total.toNat = s.freqSum ∧ 1 ≤ s.freqSum
  d : s.status.treeValid = true →
        s.nnodes.toNat = 2 * s.nsym.toNat - 1 ∧
        (∀ sym : Byte, tableAt s.clen sym ≠ 0 ↔ tableAt s.freq sym ≠ 0) ∧ s.PrefixFree

/-- The STATUS that every COMPLETE leaves (R246): ERR as given, DONE = 1, BUSY = 0, the rest kept. -/
def Status.completed (t : Status) (err : Bool) : Status := { t with err := err, done := true, busy := false }

/-- `t` is `s` after a failed command that writes no OBUF: only the COMPLETE fields differ (R247). -/
def State.FailedTo (s : State) (code : ErrCode) (info : Word) (t : State) : Prop :=
  t = { s with errCode := code, errInfo := info, status := s.status.completed true }

/-- `t` is `s` after a failed ENCODE or DECODE (R247): OUT_LEN, BITLEN and PAD are 0, every OBUF byte is the value
of a fresh draw, every byte outside OBUF and every other field is as before. -/
def State.FailedOutputTo (s : State) (code : ErrCode) (info : Word) (t : State) : Prop :=
  t = { s with
        errCode := code, errInfo := info, status := s.status.completed true,
        outLen := 0, bitLen := 0, pad := 0, mem := t.mem, obufDraw := s.draws, draws := s.draws + 1 } ∧
  (∀ a, s.InObuf a → t.readByte a = Config.freeByte s.draws a) ∧
  (∀ a, ¬ s.InObuf a → t.readByte a = s.readByte a)

/-- `t` is `s` after an ENCODE or DECODE that produced the bytes `out` (R180, R200): they stand at OBUF_BASE, every
other byte and every other field is as before. -/
def State.ProducedTo (s : State) (out : List Byte) (bits pad : Nat) (t : State) : Prop :=
  t = { s with
        errCode := .none, errInfo := 0, status := s.status.completed false,
        outLen := t.outLen, bitLen := t.bitLen, pad := t.pad, mem := t.mem } ∧
  t.outLen.toNat = out.length ∧ t.bitLen.toNat = bits ∧ t.pad.toNat = pad ∧
  (∀ (j : Nat) (h : j < out.length), t.readByte (Config.obufBase + j) = out[j]) ∧
  (∀ a, ¬ (Config.obufBase ≤ a ∧ a < Config.obufBase + out.length) → t.readByte a = s.readByte a)

/-- The bytes OBUF[0 .. x[OUT_LEN]-1]. -/
def State.outputBytes (s : State) : List Byte :=
  (List.range s.outLen.toNat).map fun j => s.readByte (Config.obufBase + j)

/-- The inverse mapping of the source's decoder (R205): the symbol whose code is the candidate, if there is one. -/
def State.symbolOf (s : State) (cand : Bits) : Option Byte :=
  ((List.range 256).map (BitVec.ofNat 8)).find? fun sym => decide (s.HasCode sym) && decide (s.codeFor sym = cand)

/-- The source's decoding loop (R205): accumulate a candidate, and whenever it matches an entry of the inverse
mapping, emit the symbol and start again. Answers the symbols and the candidate left at the end. -/
def State.sourceWalk (s : State) : Bits → Bits → List Byte × Bits
  | cand, [] => ([], cand)
  | cand, b :: rest =>
    match s.symbolOf (cand ++ [b]) with
    | some sym => let r := s.sourceWalk [] rest; (sym :: r.1, r.2)
    | none => s.sourceWalk (cand ++ [b]) rest

/-- A command word's instruction: what COMPLETE runs (R246). -/
def Instr.isCommand : Instr → Bool
  | .nop | .clear | .analyze | .build | .encode | .decode | .illegal _ => true
  | .rd8 _ | .rd32 _ | .wr8 _ _ | .wr32 _ _ => false

end Sys2Proof.Machine
end

