-- ==== Sys2Proof/Certificates/Slice0/Obligations.lean ====
section
/-! DEFINITION. The statements for the provers, each from a rule of spec/ or derived from its sections
(OBLIGATIONS.json). -/

open Sys2Proof Sys2Proof.Machine

/-! ### Encodings -/

/-- Words and transactions written out from the tables of R111 and R114 decode to their instructions; the 9 bytes of a
transaction are ATTR, ADDR and WDATA in the model's order (log 5). -/
def Obligations.SpecWordsDecodeToTheirInstructions : Prop :=
  decode [0x00, 0, 0, 0] = .ok .nop ∧
  decode [0x01, 0, 0, 0] = .ok .clear ∧
  decode [0x02, 0, 0, 0] = .ok .analyze ∧
  decode [0x03, 0, 0, 0] = .ok .build ∧
  decode [0x04, 0, 0, 0] = .ok .encode ∧
  decode [0x05, 0, 0, 0] = .ok .decode ∧
  decode [0x06, 0, 0, 0] = .ok (.illegal 0x00000006) ∧
  decode [0x02, 0x01, 0, 0] = .ok (.illegal 0x00000102) ∧
  decode [0b00, 0x00, 0x00, 0x00, 0x02, 0, 0, 0, 0] = .ok (.rd8 0x02000000) ∧
  decode [0b01, 0x1C, 0x00, 0x00, 0x00, 0, 0, 0, 0] = .ok (.rd32 0x0000001C) ∧
  decode [0b10, 0x03, 0x00, 0x00, 0x01, 0x62, 0, 0, 0] = .ok (.wr8 0x01000003 0x62) ∧
  decode [0b11, 0x18, 0x00, 0x00, 0x00, 0x06, 0, 0, 0] = .ok (.wr32 0x00000018 0x00000006)

/-- Decoding the encoding of a well-formed instruction gives it back, with every operand. -/
def Obligations.DecodeOfEncodeIsTheInstruction : Prop :=
  ∀ i : Instr, i.wellFormed = true → decode (encode i) = .ok i

/-- The other direction: the instruction of a command word encodes to that word, and the instruction of a
transaction to that transaction, but for the WDATA bits that R114 says are not used. -/
def Obligations.EncodeOfDecodeIsTheWord : Prop :=
  (∀ w : Word, (decodeCommand w).wellFormed = true ∧ commandWord (decodeCommand w) = some w) ∧
  (∀ t : BusTxn, (decodeBus t).wellFormed = true ∧ ∃ u, busTxn (decodeBus t) = some u ∧
    u.attr = t.attr ∧ u.addr = t.addr ∧
    (t.attr = 0b10 → u.wdata.extractLsb' 0 8 = t.wdata.extractLsb' 0 8) ∧
    (t.attr = 0b11 → u.wdata = t.wdata))

/-- R113: the words with OPC in 0x06..0xFF or RSV not 0 are the illegal ones, and every other word is one of the six
of R111. An illegal word's ISSUE proceeds as for any command, and its COMPLETE raises ILLEGAL_CMD with the whole
word. -/
def Obligations.IllegalWordsIssueAndFail : Prop :=
  ∀ w : Word,
    ((6 ≤ (w.extractLsb' 0 8).toNat ∨ w.extractLsb' 8 24 ≠ 0) → decodeCommand w = .illegal w) ∧
    (¬ (6 ≤ (w.extractLsb' 0 8).toNat ∨ w.extractLsb' 8 24 ≠ 0) →
      (w = 0 ∧ decodeCommand w = .nop) ∨ (w = 1 ∧ decodeCommand w = .clear) ∨
      (w = 2 ∧ decodeCommand w = .analyze) ∨ (w = 3 ∧ decodeCommand w = .build) ∨
      (w = 4 ∧ decodeCommand w = .encode) ∨ (w = 5 ∧ decodeCommand w = .decode)) ∧
    (∀ s : State, s.status.busy = false →
      exec (.wr32 (regAddr .cmd) w) s =
        .next { s with pending := w, status := { s.status with busy := true, done := false, err := false } }) ∧
    (∀ s : State, exec (.illegal w) s =
      .next { s with errCode := .illegalCmd, errInfo := w, status := s.status.completed true })

/-- R15: pack gives len / 8 bytes with bit 8j + i of the string at bit 7 - i of byte j, unpack joins the bytes' bits, and
the two are inverses. -/
def Obligations.PackAndUnpackAreInverses : Prop :=
  (∀ s : Bits, 8 ∣ s.length → (pack s).length = s.length / 8 ∧ unpack (pack s) = s ∧
    ∀ (j i : Nat) (hj : j < (pack s).length), i < 8 → s[8 * j + i]? = some ((pack s)[j].getLsbD (7 - i))) ∧
  (∀ l : List Byte, pack (unpack l) = l ∧ unpack l = l.flatMap bin8)

/-! ### Steps -/

/-- A step runs exec of the instruction that the scheduled transaction or the pending command word decodes to; a
scheduled event is taken off the schedule; the ENGINE has nothing to do while idle. The schedule is the model's way to
say what the outside does next (log 3). -/
def Obligations.StepRunsTheDecodedInstruction : Prop :=
  ∀ (s : State) (rest : List Event),
    (∀ (t : BusTxn) (i : Instr), s.schedule = .host t :: rest → decode (bytesOfTxn t) = .ok i →
      step s = exec i { s with schedule := rest }) ∧
    (∀ i : Instr, s.status.busy = true → decode (bytesOfWord s.pending) = .ok i →
      (s.schedule = .engine :: rest → step s = exec i { s with schedule := rest }) ∧
      (s.schedule = [] → step s = exec i s)) ∧
    (s.status.busy = false →
      (s.schedule = .engine :: rest → step s = .next { s with schedule := rest }) ∧
      (s.schedule = [] → step s = .next s))

/-- Placing a table word (log 3, log 5: the model's choice) makes the next step run the instruction the decoder reads
from it. -/
def Obligations.PlacedWordIsRunNext : Prop :=
  ∀ (s : State) (w : Nat) (i : Instr),
    (w < 2 ^ 32 → decodeTableWord 32 w = some i →
      step (s.withFetchWord 32 w) =
        exec i { s with pending := BitVec.ofNat 32 w, status := { s.status with busy := true } }) ∧
    (w < 4 → decodeTableWord 8 w = some i → step (s.withFetchWord 8 w) = exec i s)

/-- Every step answers a next state: no transaction and no command word ends a run. -/
def Obligations.EveryStepGoesOn : Prop := ∀ s : State, ∃ t, step s = .next t

/-- With its schedule carried out, the machine is idle (R5's fairness, R291's end of a run). That the ENGINE has its
turn when nothing is scheduled is the model's choice (log 3). -/
def Obligations.ScheduledRunEndsIdle : Prop :=
  ∀ s : State, ∃ t : State, Sys2Proof.core.run (s.schedule.length + 1) s = .next t ∧
    t.schedule = [] ∧ t.status.busy = false

/-! ### Reset -/

/-- R280 of the state State.reset, whose buffer sizes are the model's choice (log 1): every register reads its reset
value, the tables that have one hold 0, IRQ is 0, nothing is pending. -/
def Obligations.ResetStateHoldsTheResetValues : Prop :=
  State.reset.readReg .id = 0x48430007 ∧ (∀ r : RegName, r ≠ .id → State.reset.readReg r = 0) ∧
  (∀ b : Byte, tableAt State.reset.freq b = 0 ∧ tableAt State.reset.order b = 0 ∧ tableAt State.reset.clen b = 0) ∧
  State.reset.rootIdx = 0 ∧ State.reset.nnodes = 0 ∧ State.reset.pending = 0 ∧ State.reset.irq = false ∧
  State.reset.mem = []

/-- R280, R281: RESET, a step that can be taken in any state, a command in progress included, sets every register and
table to its reset value, abandons the command and leaves every buffer byte a fresh free value (log 2); that the value
last returned and the schedule stay is the model's choice (log 3, log 4). -/
def Obligations.ResetEventResetsTheBlock : Prop :=
  ∀ (s : State) (rest : List Event), s.schedule = .reset :: rest → ∃ t, step s = .next t ∧
    t.readReg .id = 0x48430007 ∧ (∀ r : RegName, r ≠ .id → t.readReg r = 0) ∧
    t.ctrl = { ieDone := false, ieErr := false } ∧
    t.status = { busy := false, done := false, err := false, freqValid := false, treeValid := false,
                 degen := false, wrBlocked := false, busErr := false } ∧
    (∀ b : Byte, tableAt t.freq b = 0 ∧ tableAt t.order b = 0 ∧ tableAt t.clen b = 0) ∧
    t.rootIdx = 0 ∧ t.nnodes = 0 ∧ t.pending = 0 ∧ t.irq = false ∧
    (∀ a, t.readByte a = Config.freeByte s.draws a) ∧
    t.sizes = s.sizes ∧ t.rdata = s.rdata ∧ t.schedule = rest

/-! ### NOP and CLEAR -/

/-- R231: NOP, command word 0, raises nothing, writes the COMPLETE fields and nothing else. -/
def Obligations.NopWritesOnlyTheCompleteFields : Prop :=
  decodeCommand 0x00000000 = .nop ∧ ∀ s : State, exec .nop s =
    .next { s with
      errCode := .none, errInfo := 0, status := { s.status with busy := false, done := true, err := false } }

/-- R233: CLEAR zeroes the tables, the valid bits and the result registers, writes the COMPLETE fields, leaves everything
else as it was; BUILD, ENCODE and DECODE then raise NOT_READY. That NODE and CBITS are among what is left as it was is the
model's choice (log 10): R233 says so, R63 and U6 call them unspecified after CLEAR. -/
def Obligations.ClearZeroesTheCodecState : Prop :=
  ∀ s : State, ∃ t, exec .clear s = .next t ∧
    t = { s with
      freq := t.freq, order := t.order, clen := t.clen, nsym := 0, total := 0, outLen := 0, bitLen := 0, pad := 0,
      errCode := .none, errInfo := 0,
      status := { s.status with
        freqValid := false, treeValid := false, degen := false, busy := false, done := true, err := false } } ∧
    (∀ b : Byte, tableAt t.freq b = 0 ∧ tableAt t.order b = 0 ∧ tableAt t.clen b = 0) ∧
    (∃ u, exec .build t = .next u ∧ t.FailedTo .notReady 1 u) ∧
    (∃ u, exec .encode t = .next u ∧ t.FailedOutputTo .notReady 2 u) ∧
    (∃ u, exec .decode t = .next u ∧ t.FailedOutputTo .notReady 2 u)

/-! ### ANALYZE -/

/-- ANALYZE with IN_LEN over IBUF_BYTES fails with LENGTH_RANGE, with IN_LEN = 0 with EMPTY_INPUT; only the COMPLETE
fields change (R130, R247). -/
def Obligations.AnalyzeRejectsABadLength : Prop :=
  ∀ s : State,
    (s.sizes.ibufBytes < s.inLen.toNat → ∃ t, exec .analyze s = .next t ∧ s.FailedTo .lengthRange s.inLen t) ∧
    (s.inLen = 0 → ∃ t, exec .analyze s = .next t ∧ s.FailedTo .emptyInput 0 t)

/-- R131, R132, R133: a successful ANALYZE replaces the whole frequency table: FREQ counts every occurrence, ORDER lists
exactly the symbols that occur, in the order of their first occurrence; the tree is invalidated, all else is kept. -/
def Obligations.AnalyzeReplacesTheTable : Prop :=
  ∀ s : State, s.sizes.Valid → 1 ≤ s.inLen.toNat → s.inLen.toNat ≤ s.sizes.ibufBytes →
    ∃ t, exec .analyze s = .next t ∧
      t = { s with
        freq := t.freq, order := t.order, nsym := t.nsym, total := s.inLen, errCode := .none, errInfo := 0,
        status := { s.status with
          freqValid := true, treeValid := false, degen := false, busy := false, done := true, err := false } } ∧
      (∀ b : Byte, (tableAt t.freq b).toNat = s.inputBytes.count b) ∧
      t.symbols.Nodup ∧
      (∀ b : Byte, b ∈ t.symbols ↔ b ∈ s.inputBytes) ∧
      t.symbols.Pairwise fun a b => s.inputBytes.idxOf a < s.inputBytes.idxOf b

/-- R134: after a successful ANALYZE the FREQ entries sum to TOTAL = n, 1 <= NSYM <= min(n, 256), and ORDER's
entries below NSYM are pairwise distinct. -/
def Obligations.AnalyzeTableTotals : Prop :=
  ∀ s t : State, s.sizes.Valid → exec .analyze s = .next t → t.errCode = .none →
    t.freqSum = s.inLen.toNat ∧ t.total = s.inLen ∧ 1 ≤ t.nsym.toNat ∧
    t.nsym.toNat ≤ min s.inLen.toNat 256 ∧
    ∀ i j, i < t.nsym.toNat → j < t.nsym.toNat → i ≠ j → t.orderAt i ≠ t.orderAt j

/-! ### BUILD -/

/-- BUILD without a frequency table fails with NOT_READY and ERR_INFO = 1; only the COMPLETE fields change (R150). -/
def Obligations.BuildNeedsAFrequencyTable : Prop :=
  ∀ s : State, s.status.freqValid = false → ∃ t, exec .build s = .next t ∧ s.FailedTo .notReady 1 t

/-- BUILD with a frequency table always completes; it writes the tree, the code table, ROOT and the two tree bits,
and leaves all else as it was (R150). -/
def Obligations.BuildCompletesWithATable : Prop :=
  ∀ s : State, s.status.freqValid = true → ∃ t, exec .build s = .next t ∧
    t = { s with
      node := t.node, clen := t.clen, cbits := t.cbits, rootIdx := t.rootIdx, nnodes := t.nnodes,
      errCode := .none, errInfo := 0,
      status := { s.status with
        treeValid := true, degen := decide (s.nsym = 1), busy := false, done := true, err := false } }

/-- R153, with the nodes of R150 and R151: with m = NSYM, the arena holds 2m - 1 nodes, the first m the leaves in insertion
order, every other one internal with two earlier nodes as children and the exact sum of their weights; the root is the
last, and the only one that no internal node has as a child. -/
def Obligations.BuildArenaHasLeavesThenInnerNodes : Prop :=
  ∀ s t : State, s.Inv → s.status.freqValid = true → exec .build s = .next t →
    t.nnodes.toNat = 2 * s.nsym.toNat - 1 ∧ t.rootIdx.toNat = 2 * s.nsym.toNat - 2 ∧
    (∀ i : NodeIdx, i.toNat < s.nsym.toNat → t.nodeAt i =
      { leaf := true, sym := s.orderAt i.toNat, w := tableAt s.freq (s.orderAt i.toNat), left := 0, right := 0 }) ∧
    (∀ i : NodeIdx, s.nsym.toNat ≤ i.toNat → i.toNat < t.nnodes.toNat →
      (t.nodeAt i).leaf = false ∧ (t.nodeAt i).sym = 0 ∧ (t.nodeAt i).left < i ∧ (t.nodeAt i).right < i ∧
      (t.nodeAt i).w.toNat = (t.nodeAt (t.nodeAt i).left).w.toNat + (t.nodeAt (t.nodeAt i).right).w.toNat) ∧
    (∀ j : NodeIdx, j.toNat < t.nnodes.toNat → (j ≠ t.rootIdx ↔ ∃ i : NodeIdx, s.nsym.toNat ≤ i.toNat ∧
      i.toNat < t.nnodes.toNat ∧ ((t.nodeAt i).left = j ∨ (t.nodeAt i).right = j)))

/-- R152, R154: every internal node joins the two nodes of least key (weight, seq) among those in the queue when it is
made, the lesser to the left, its weight their sum; equal weights are ordered by seq alone. -/
def Obligations.BuildJoinsTheTwoLeastNodes : Prop :=
  ∀ s t : State, s.Inv → s.status.freqValid = true → exec .build s = .next t →
    ∀ i : NodeIdx, s.nsym.toNat ≤ i.toNat → i.toNat < t.nnodes.toNat →
      (t.nodeAt i).leaf = false ∧
      (t.nodeAt i).w.toNat = (t.nodeAt (t.nodeAt i).left).w.toNat + (t.nodeAt (t.nodeAt i).right).w.toNat ∧
      t.Live s.nsym.toNat i (t.nodeAt i).left ∧ t.Live s.nsym.toNat i (t.nodeAt i).right ∧
      t.KeyBefore (t.nodeAt i).left (t.nodeAt i).right ∧
      ∀ j : NodeIdx, t.Live s.nsym.toNat i j → j ≠ (t.nodeAt i).left → j ≠ (t.nodeAt i).right →
        t.KeyBefore (t.nodeAt i).right j

/-- R158: after BUILD no code is a prefix of another symbol's code, and the forward map and the map DECODE uses are
exact inverses. R155: in the general case the code is the path to the symbol's leaf, its length in CLEN, its value
read most significant bit first in CBITS. -/
def Obligations.BuildCodesArePrefixFreeAndInverse : Prop :=
  ∀ s t : State, s.Inv → s.status.freqValid = true → exec .build s = .next t →
    t.PrefixFree ∧ t.MapsInverse ∧
    (s.nsym ≠ 1 → ∀ (sym : Byte) (p : Bits), t.Leads sym t.rootIdx p → p ≠ [] ∧
      (tableAt t.clen sym).toNat = p.length ∧ (tableAt t.cbits sym).toNat = natOfBits p)

/-- R156: a table of one symbol gives it the code "0" (CLEN = 1, CBITS = 0), the root is leaf 0 (R153), DEGEN = 1. -/
def Obligations.BuildGivesASingleSymbolTheCodeZero : Prop :=
  ∀ s t : State, s.Inv → s.status.freqValid = true → s.nsym = 1 → exec .build s = .next t →
    tableAt t.clen (s.orderAt 0) = 1 ∧ tableAt t.cbits (s.orderAt 0) = 0 ∧ t.codeFor (s.orderAt 0) = [false] ∧
    t.rootIdx = 0 ∧ t.nnodes = 1 ∧ t.status.degen = true

/-- R157: after BUILD exactly the symbols of the frequency table have a code, and ENCODE raises UNKNOWN_SYMBOL when the
input has another one. -/
def Obligations.AbsentSymbolsHaveNoCode : Prop :=
  ∀ s t u : State, s.Inv → s.status.freqValid = true → exec .build s = .next t →
    (∀ b : Byte, tableAt t.clen b = 0 ↔ tableAt s.freq b = 0) ∧
    (exec .encode t = .next u → t.inLen.toNat ≤ t.sizes.ibufBytes →
      (∃ b ∈ t.inputBytes, tableAt s.freq b = 0) → u.errCode = .unknownSymbol)

/-- R9, R159: after BUILD no code is longer than NSYM - 1 bits (1 bit for a single symbol), so none is longer than
MAXLEN; in the general case every sequence of MAXLEN bits has a prefix that leads from the root to a leaf. -/
def Obligations.CodesAndWalksEndWithinMaxlen : Prop :=
  ∀ s t : State, s.Inv → s.status.freqValid = true → exec .build s = .next t →
    (∀ b : Byte, t.HasCode b → (t.codeFor b).length ≤ max 1 (s.nsym.toNat - 1) ∧
      (t.codeFor b).length ≤ Config.maxLen) ∧
    (t.status.degen = false → ∀ bits : Bits, bits.length = Config.maxLen →
      ∃ (sym : Byte) (p : Bits), p <+: bits ∧ t.Leads sym t.rootIdx p)

/-- R17: popmin takes out the one element of least key (weight, seq), and the same one whatever the order the queue
is held in. -/
def Obligations.PopminTakesTheLeastKey : Prop :=
  ∀ q : List QElem, q ≠ [] → (q.map QElem.seq).Nodup → ∃ e rest, popMin q = some (e, rest) ∧ q.Perm (e :: rest) ∧
    (∀ x ∈ rest, e.weight < x.weight ∨ (e.weight = x.weight ∧ e.seq < x.seq)) ∧
    ∀ q', q.Perm q' → ∃ rest', popMin q' = some (e, rest') ∧ rest.Perm rest'

/-! ### ENCODE -/

/-- ENCODE's checks before its data, in the order of R242: NOT_READY, LENGTH_RANGE, EMPTY_INPUT; the output is dropped
(R180, R247). -/
def Obligations.EncodeChecksBeforeItsData : Prop :=
  ∀ s : State, ∃ t, exec .encode s = .next t ∧
    (s.status.treeValid = false → s.FailedOutputTo .notReady 2 t) ∧
    (s.status.treeValid = true → s.sizes.ibufBytes < s.inLen.toNat → s.FailedOutputTo .lengthRange s.inLen t) ∧
    (s.status.treeValid = true → s.inLen = 0 → s.FailedOutputTo .emptyInput 0 t)

/-- ENCODE fails with UNKNOWN_SYMBOL at the lowest index whose symbol has no code, ERR_INFO holding the symbol in bits
31 to 24 and the index in bits 23 to 0 (R180, R241). -/
def Obligations.EncodeReportsTheFirstUnknownSymbol : Prop :=
  ∀ (s : State) (i : Nat) (h : i < s.inputBytes.length), s.sizes.Valid → s.status.treeValid = true →
    s.inLen.toNat ≤ s.sizes.ibufBytes → ¬ s.HasCode s.inputBytes[i] →
    (∀ (j : Nat) (hj : j < i), s.HasCode (s.inputBytes[j]'(Nat.lt_trans hj h))) →
    ∃ t, exec .encode s = .next t ∧ s.FailedOutputTo .unknownSymbol t.errInfo t ∧
      t.errInfo.extractLsb' 24 8 = s.inputBytes[i] ∧ (t.errInfo.extractLsb' 0 24).toNat = i

/-- R181, R182, R183, R184: ENCODE of an input whose symbols all have codes replaces each by its code, pads with
P = 8 - (L mod 8) zero bits after an 8-bit header P, and packs the stream into k = (8 + L + P) / 8 bytes of OBUF; when
k is more than OBUF_BYTES it fails with OUTPUT_OVERFLOW and ERR_INFO = k. -/
def Obligations.EncodeWritesThePayload : Prop :=
  ∀ s : State, s.sizes.Valid → s.status.treeValid = true → 1 ≤ s.inLen.toNat →
    s.inLen.toNat ≤ s.sizes.ibufBytes → (∀ b ∈ s.inputBytes, s.HasCode b) →
    ∀ (bits : Bits) (p k : Nat), bits = s.inputBytes.flatMap s.codeFor → p = 8 - bits.length % 8 →
      k = (8 + bits.length + p) / 8 →
      ∃ t, exec .encode s = .next t ∧
        (k ≤ s.sizes.obufBytes →
          s.ProducedTo (pack (bin8 (BitVec.ofNat 8 p) ++ bits ++ List.replicate p false)) bits.length p t ∧
          t.outLen.toNat = k ∧ 1 ≤ p ∧ p ≤ 8) ∧
        (s.sizes.obufBytes < k → s.FailedOutputTo .outputOverflow t.errInfo t ∧ t.errInfo.toNat = k)

/-- R185: after a successful ENCODE, OUT_LEN = (BITLEN div 8) + 2, and OBUF[0] = PAD is in 1..8. -/
def Obligations.EncodedLengthAndHeader : Prop :=
  ∀ s t : State, s.sizes.Valid → exec .encode s = .next t → t.errCode = .none →
    t.outLen.toNat = t.bitLen.toNat / 8 + 2 ∧ (t.readByte Config.obufBase).toNat = t.pad.toNat ∧
    1 ≤ t.pad.toNat ∧ t.pad.toNat ≤ 8

/-! ### DECODE -/

/-- DECODE's checks before the body, in the order of R242: NOT_READY, LENGTH_RANGE, MALFORMED_PAYLOAD of sub-cause 1 (the
input is shorter than 2 bytes) and of sub-cause 2 (P, the first byte, is outside 1..8); the output is dropped (R200, R201,
R241, R247). -/
def Obligations.DecodeChecksBeforeTheBody : Prop :=
  ∀ s : State, ∃ t, exec .decode s = .next t ∧
    (s.status.treeValid = false → s.FailedOutputTo .notReady 2 t) ∧
    (s.status.treeValid = true → s.sizes.ibufBytes < s.inLen.toNat → s.FailedOutputTo .lengthRange s.inLen t) ∧
    (s.status.treeValid = true → s.inLen.toNat ≤ s.sizes.ibufBytes → s.inLen.toNat < 2 →
      s.FailedOutputTo .malformedPayload t.errInfo t ∧ t.errInfo.toNat = 1 * 2 ^ 28 + s.inLen.toNat) ∧
    (s.status.treeValid = true → s.inLen.toNat ≤ s.sizes.ibufBytes → 2 ≤ s.inLen.toNat →
      ∀ p, p = (s.readByte Config.ibufBase).toNat → (p < 1 ∨ 8 < p) →
        s.FailedOutputTo .malformedPayload t.errInfo t ∧ t.errInfo.toNat = 2 * 2 ^ 28 + p)

/-- R200, R202, R206, R207: with the header P in 1..8 stripped from the front and P bits from the end, DECODE walks the
body; a leftover candidate is MALFORMED_PAYLOAD of sub-cause 3 with its length, too many symbols are OUTPUT_OVERFLOW with
their number, and otherwise each symbol is one byte of OBUF. -/
def Obligations.DecodeWritesTheWalkedSymbols : Prop :=
  ∀ s : State, s.sizes.Valid → s.status.treeValid = true → 2 ≤ s.inLen.toNat →
    s.inLen.toNat ≤ s.sizes.ibufBytes →
    ∀ (p : Nat) (body : Bits), p = (s.readByte Config.ibufBase).toNat → 1 ≤ p → p ≤ 8 →
      body = ((unpack s.inputBytes).take (8 * s.inLen.toNat - p)).drop 8 →
      body.length = 8 * (s.inLen.toNat - 1) - p ∧ (s.walk body).2 ≤ body.length ∧ body.length < 2 ^ 28 ∧
      ∃ t, exec .decode s = .next t ∧
        ((s.walk body).2 ≠ 0 →
          s.FailedOutputTo .malformedPayload t.errInfo t ∧ t.errInfo.toNat = 3 * 2 ^ 28 + (s.walk body).2) ∧
        ((s.walk body).2 = 0 → s.sizes.obufBytes < (s.walk body).1.length →
          s.FailedOutputTo .outputOverflow t.errInfo t ∧ t.errInfo.toNat = (s.walk body).1.length) ∧
        ((s.walk body).2 = 0 → (s.walk body).1.length ≤ s.sizes.obufBytes →
          s.ProducedTo (s.walk body).1 body.length p t)

/-- R202: the padding bits are not checked. Two inputs of one length whose bits agree but for the last P decode alike. -/
def Obligations.DecodeIgnoresThePaddingBits : Prop :=
  ∀ (s : State) (m : Memory), s.sizes.Valid → 2 ≤ s.inLen.toNat → s.inLen.toNat ≤ s.sizes.ibufBytes →
    (∀ n, n = 8 * s.inLen.toNat - (s.readByte Config.ibufBase).toNat →
      (unpack s.inputBytes).take (max 8 n) = (unpack { s with mem := m }.inputBytes).take (max 8 n)) →
    ∀ t u : State, exec .decode s = .next t → exec .decode { s with mem := m } = .next u →
      t.errCode = u.errCode ∧ t.errInfo = u.errInfo ∧ t.outLen = u.outLen ∧ t.bitLen = u.bitLen ∧
      t.pad = u.pad ∧ t.outputBytes = u.outputBytes

/-- R205: DECODE's walk emits the symbols, and leaves a candidate of the length, that the source's loop of candidate
matching against the inverse mapping does. -/
def Obligations.WalkAgreesWithCandidateMatching : Prop :=
  ∀ (s : State) (body : Bits), s.Inv → s.status.treeValid = true →
    s.walk body = ((s.sourceWalk [] body).1, (s.sourceWalk [] body).2.length)

/-- R208: ANALYZE and BUILD on S, ENCODE S, the output copied to IBUF with its length in IN_LEN, the tree not changed in
between, then DECODE: when no OUTPUT_OVERFLOW arises and the payload fits IBUF, OBUF holds S again. -/
def Obligations.RoundTripGivesTheInputBack : Prop :=
  ∀ s s1 s2 s3 r t : State, s.Inv → 1 ≤ s.inLen.toNat → s.inLen.toNat ≤ s.sizes.ibufBytes →
    exec .analyze s = .next s1 → exec .build s1 = .next s2 → exec .encode s2 = .next s3 →
    s3.errCode ≠ .outputOverflow → s3.outLen.toNat ≤ s.sizes.ibufBytes →
    r.sizes = s3.sizes → r.status.treeValid = s3.status.treeValid → r.status.degen = s3.status.degen →
    r.node = s3.node → r.rootIdx = s3.rootIdx →
    r.inLen = s3.outLen → r.inputBytes = s3.outputBytes →
    exec .decode r = .next t → t.errCode ≠ .outputOverflow →
    t.errCode = .none ∧ t.outLen = s.inLen ∧ t.outputBytes = s.inputBytes

/-! ### Every command -/

/-- R246: COMPLETE always answers; it writes ERRCODE, ERR_INFO, ERR, DONE = 1 and BUSY = 0, and no command writes CTRL,
IN_LEN, SEL, PENDING, WR_BLOCKED, BUS_ERR or, of the buffers, any byte outside OBUF. -/
def Obligations.CompleteSignalsAndKeepsTheRest : Prop :=
  ∀ (i : Instr) (s : State), Instr.isCommand i = true → ∃ t, exec i s = .next t ∧
    t.status.busy = false ∧ t.status.done = true ∧ (t.status.err = true ↔ t.errCode ≠ .none) ∧
    (t.errCode = .none → t.errInfo = 0) ∧
    t.ctrl = s.ctrl ∧ t.inLen = s.inLen ∧ t.sel = s.sel ∧ t.pending = s.pending ∧ t.sizes = s.sizes ∧
    t.status.wrBlocked = s.status.wrBlocked ∧ t.status.busErr = s.status.busErr ∧ t.rdata = s.rdata ∧
    t.schedule = s.schedule ∧ (∀ a, ¬ s.InObuf a → t.readByte a = s.readByte a)

/-- R247: a failed command changes the COMPLETE fields and, for ENCODE and DECODE, zeroes OUT_LEN, BITLEN and PAD and
redraws OBUF; it changes no table, no valid bit, no IBUF byte, not IN_LEN, SEL or CTRL. -/
def Obligations.FailedCommandChangesNoCodecState : Prop :=
  ∀ (i : Instr) (s t : State), Instr.isCommand i = true → exec i s = .next t → t.errCode ≠ .none →
    (i = .encode ∨ i = .decode → s.FailedOutputTo t.errCode t.errInfo t) ∧
    (i ≠ .encode → i ≠ .decode → s.FailedTo t.errCode t.errInfo t)

/-! ### HOST reads -/

/-- R32, R33, R34, R46, R53: a read of ID, CTRL, CMD, IN_LEN or SEL gives its value, BUSY or not, and changes nothing
else. -/
def Obligations.ControlRegistersReadAtAnyTime : Prop :=
  ∀ s : State,
    exec (.rd32 0x00000000) s = .next { s with rdata := some 0x48430007 } ∧
    (∃ v : Word, exec (.rd32 0x00000004) s = .next { s with rdata := some v } ∧
      v.getLsbD 0 = s.ctrl.ieDone ∧ v.getLsbD 1 = s.ctrl.ieErr ∧ ∀ i, 2 ≤ i → v.getLsbD i = false) ∧
    exec (.rd32 0x00000008) s = .next { s with rdata := some 0 } ∧
    exec (.rd32 0x00000018) s = .next { s with rdata := some s.inLen } ∧
    exec (.rd32 0x00000034) s = .next { s with rdata := some (s.sel.setWidth 32) }

/-- R35 to R43: a read of STATUS, BUSY or not, gives the eight flags in bits 0 to 7 and 0 above, and changes nothing
else. -/
def Obligations.StatusReadsItsEightFlags : Prop :=
  ∀ s : State, ∃ v : Word, exec (.rd32 0x0000000C) s = .next { s with rdata := some v } ∧
    v.getLsbD 0 = s.status.busy ∧ v.getLsbD 1 = s.status.done ∧ v.getLsbD 2 = s.status.err ∧
    v.getLsbD 3 = s.status.freqValid ∧ v.getLsbD 4 = s.status.treeValid ∧ v.getLsbD 5 = s.status.degen ∧
    v.getLsbD 6 = s.status.wrBlocked ∧ v.getLsbD 7 = s.status.busErr ∧ ∀ i, 8 ≤ i → v.getLsbD i = false

/-- R44, R45, R47 to R52, R240: while idle a result register reads its value, at its offset, ERRCODE the number of R240;
ROOT reads 0 while there is no tree; nothing else changes. -/
def Obligations.ResultRegistersReadWhileIdle : Prop :=
  ∀ s : State, s.status.busy = false →
    exec (.rd32 0x00000010) s = .next { s with rdata := some (match s.errCode with
      | .none => 0 | .illegalCmd => 1 | .notReady => 2 | .lengthRange => 3 | .emptyInput => 4
      | .unknownSymbol => 5 | .malformedPayload => 6 | .outputOverflow => 7) } ∧
    exec (.rd32 0x00000014) s = .next { s with rdata := some s.errInfo } ∧
    exec (.rd32 0x0000001C) s = .next { s with rdata := some s.outLen } ∧
    exec (.rd32 0x00000020) s = .next { s with rdata := some s.bitLen } ∧
    exec (.rd32 0x00000024) s = .next { s with rdata := some (s.pad.setWidth 32) } ∧
    exec (.rd32 0x00000028) s = .next { s with rdata := some (s.nsym.setWidth 32) } ∧
    exec (.rd32 0x0000002C) s = .next { s with rdata := some s.total } ∧
    (s.status.treeValid = false → exec (.rd32 0x00000030) s = .next { s with rdata := some 0 }) ∧
    (s.status.treeValid = true → ∃ v : Word, exec (.rd32 0x00000030) s = .next { s with rdata := some v } ∧
      v.extractLsb' 0 9 = s.rootIdx ∧ v.extractLsb' 9 7 = 0 ∧ v.extractLsb' 16 10 = s.nnodes ∧
      v.extractLsb' 26 6 = 0)

/-- R54, R55, R56: while idle FREQ_RD, ORDER_RD and CODELEN_RD show the entries that SEL selects, 0 where their valid
bit or, for ORDER_RD, IDX < NSYM fails. -/
def Obligations.TableReadbackWhileIdle : Prop :=
  ∀ s : State, s.status.busy = false →
    exec (.rd32 0x00000038) s = .next { s with
      rdata := some (if s.status.freqValid then tableAt s.freq (s.sel.extractLsb' 0 8) else 0) } ∧
    (s.status.freqValid = true → s.sel.toNat < s.nsym.toNat →
      ∃ v : Word, exec (.rd32 0x0000003C) s = .next { s with rdata := some v } ∧
        v.extractLsb' 0 8 = s.orderAt s.sel.toNat ∧ v.extractLsb' 8 24 = 1) ∧
    (¬ (s.status.freqValid = true ∧ s.sel.toNat < s.nsym.toNat) →
      exec (.rd32 0x0000003C) s = .next { s with rdata := some 0 }) ∧
    exec (.rd32 0x00000040) s = .next { s with
      rdata := some (if s.status.treeValid then (tableAt s.clen (s.sel.extractLsb' 0 8)).setWidth 32 else 0) }

/-- R57, R58, R59: while idle CODEBITS_RDk show 32-bit slices of the selected code value, NODE_RD and NODEW_RD the
selected node, 0 where there is no tree or, for the node, IDX < NNODES fails. -/
def Obligations.CodeAndNodeReadbackWhileIdle : Prop :=
  ∀ s : State, s.status.busy = false →
    (∀ k : Fin 8, ∃ v : Word, exec (.rd32 (BitVec.ofNat 32 (0x60 + 4 * k.val))) s = .next { s with rdata := some v } ∧
      ∀ j, j < 32 → v.getLsbD j =
        (s.status.treeValid && (tableAt s.cbits (s.sel.extractLsb' 0 8)).getLsbD (32 * k.val + j))) ∧
    (s.status.treeValid = true → s.sel.toNat < s.nnodes.toNat →
      (∃ v : Word, exec (.rd32 0x00000044) s = .next { s with rdata := some v } ∧
        v.extractLsb' 0 9 = (s.nodeAt s.sel).left ∧ v.extractLsb' 9 9 = (s.nodeAt s.sel).right ∧
        v.extractLsb' 18 8 = (s.nodeAt s.sel).sym ∧ v.extractLsb' 26 5 = 0 ∧
        v.getLsbD 31 = (s.nodeAt s.sel).leaf) ∧
      exec (.rd32 0x00000048) s = .next { s with rdata := some (s.nodeAt s.sel).w }) ∧
    (¬ (s.status.treeValid = true ∧ s.sel.toNat < s.nnodes.toNat) →
      exec (.rd32 0x00000044) s = .next { s with rdata := some 0 } ∧
      exec (.rd32 0x00000048) s = .next { s with rdata := some 0 })

/-- R60: while BUSY a read of a result register, a readback register or an OBUF byte or word gives a fresh free value,
and only the draw is used up (log 2); a read of ID, CTRL, STATUS, IN_LEN, SEL, CMD or IBUF gives its normal value. -/
def Obligations.BusyReadsGiveFreeValues : Prop :=
  ∀ s : State, s.sizes.Valid → s.status.busy = true →
    (∀ r : RegName, r ∉ [RegName.id, .ctrl, .status, .inLen, .sel, .cmd] →
      exec (.rd32 (regAddr r)) s =
        .next { s with rdata := some (Config.freeWord s.draws), draws := s.draws + 1 }) ∧
    (∀ a : Word, s.InObuf a.toNat → exec (.rd8 a) s =
      .next { s with rdata := some ((Config.freeByte s.draws a.toNat).setWidth 32), draws := s.draws + 1 }) ∧
    (∀ a : Word, a.toNat % 4 = 0 → s.InObuf a.toNat → s.InObuf (a.toNat + 3) →
      exec (.rd32 a) s = .next { s with rdata := some (Config.freeWord s.draws), draws := s.draws + 1 }) ∧
    (∀ r : RegName, r ∈ [RegName.id, .ctrl, .status, .inLen, .sel, .cmd] →
      exec (.rd32 (regAddr r)) s = .next { s with rdata := some (s.readReg r) }) ∧
    (∀ a : Word, s.InIbuf a.toNat →
      exec (.rd8 a) s = .next { s with rdata := some ((s.readByte a.toNat).setWidth 32) }) ∧
    (∀ a : Word, a.toNat % 4 = 0 → s.InIbuf a.toNat → s.InIbuf (a.toNat + 3) →
      exec (.rd32 a) s = .next { s with rdata := some (s.readWord a.toNat) })

/-- R83: a byte read of IBUF, or while idle of OBUF, gives the byte, a word read the little-endian word of four
bytes of one buffer; nothing else changes. -/
def Obligations.BufferReadsAreLittleEndian : Prop :=
  ∀ (s : State) (a : Word), s.sizes.Valid → (s.InIbuf a.toNat ∨ (s.InObuf a.toNat ∧ s.status.busy = false)) →
    exec (.rd8 a) s = .next { s with rdata := some ((s.readByte a.toNat).setWidth 32) } ∧
    (a.toNat % 4 = 0 → ((s.InIbuf a.toNat ∧ s.InIbuf (a.toNat + 3)) ∨ (s.InObuf a.toNat ∧ s.InObuf (a.toNat + 3))) →
      exec (.rd32 a) s = .next { s with
        rdata := some ((s.readByte a.toNat).setWidth 32 ||| (s.readByte (a.toNat + 1)).setWidth 32 <<< 8 |||
          (s.readByte (a.toNat + 2)).setWidth 32 <<< 16 ||| (s.readByte (a.toNat + 3)).setWidth 32 <<< 24) })

/-- R87: no read changes any register, table or buffer byte; it leaves the value returned (log 4), at most BUS_ERR (R86)
and the model's draw counter (log 2). -/
def Obligations.HostReadsHaveNoSideEffect : Prop :=
  ∀ (s t : State) (a : Word), (exec (.rd8 a) s = .next t ∨ exec (.rd32 a) s = .next t) →
    t = { s with rdata := t.rdata, draws := t.draws, status := { s.status with busErr := t.status.busErr } } ∧
    (s.status.busErr = true → t.status.busErr = true) ∧ t.rdata ≠ none

/-! ### HOST writes and bus errors -/

/-- R84: while idle a byte write to IBUF stores the byte, a word write the four bytes little-endian; every other byte
and everything else is kept. -/
def Obligations.BufferWritesAreLittleEndian : Prop :=
  ∀ (s : State) (a : Word), s.sizes.Valid → s.status.busy = false → s.InIbuf a.toNat →
    (∀ v : Byte, ∃ t, exec (.wr8 a v) s = .next t ∧ t = { s with mem := t.mem } ∧
      ∀ b, t.readByte b = if b = a.toNat then v else s.readByte b) ∧
    (∀ v : Word, a.toNat % 4 = 0 → s.InIbuf (a.toNat + 3) → ∃ t, exec (.wr32 a v) s = .next t ∧
      t = { s with mem := t.mem } ∧
      (∀ k, k < 4 → t.readByte (a.toNat + k) = v.extractLsb' (8 * k) 8) ∧
      ∀ b, ¬ (a.toNat ≤ b ∧ b < a.toNat + 4) → t.readByte b = s.readByte b)

/-- R86: a transaction is a bus error exactly under (a) to (f); it then sets BUS_ERR, a read returns 0, and nothing else
changes, whatever the ENGINE does. -/
def Obligations.BusErrorsOnlySetBusErr : Prop :=
  ∀ (s : State) (a : Word), s.sizes.Valid →
    (¬ s.InIbuf a.toNat → ¬ s.InObuf a.toNat →
      exec (.rd8 a) s = .next { s with rdata := some 0, status := { s.status with busErr := true } }) ∧
    (¬ s.InIbuf a.toNat → ∀ v : Byte,
      exec (.wr8 a v) s = .next { s with status := { s.status with busErr := true } }) ∧
    (a.toNat % 4 ≠ 0 ∨
      (¬ (s.InIbuf a.toNat ∧ s.InIbuf (a.toNat + 3)) ∧ ¬ (s.InObuf a.toNat ∧ s.InObuf (a.toNat + 3)) ∧
        ∀ r : RegName, a ≠ regAddr r) →
      exec (.rd32 a) s = .next { s with rdata := some 0, status := { s.status with busErr := true } }) ∧
    (a.toNat % 4 ≠ 0 ∨ (¬ (s.InIbuf a.toNat ∧ s.InIbuf (a.toNat + 3)) ∧ ∀ r : RegName, a ≠ regAddr r) →
      ∀ v : Word, exec (.wr32 a v) s = .next { s with status := { s.status with busErr := true } }) ∧
    (∀ (i : Instr) (t : State), exec i s = .next t → s.status.busErr = false → t.status.busErr = true →
      (i = .rd8 a → ¬ s.InIbuf a.toNat ∧ ¬ s.InObuf a.toNat) ∧
      (∀ v, i = .wr8 a v → ¬ s.InIbuf a.toNat) ∧
      (i = .rd32 a → a.toNat % 4 ≠ 0 ∨ (¬ (s.InIbuf a.toNat ∧ s.InIbuf (a.toNat + 3)) ∧
        ¬ (s.InObuf a.toNat ∧ s.InObuf (a.toNat + 3)) ∧ ∀ r : RegName, a ≠ regAddr r)) ∧
      (∀ v, i = .wr32 a v → a.toNat % 4 ≠ 0 ∨
        (¬ (s.InIbuf a.toNat ∧ s.InIbuf (a.toNat + 3)) ∧ ∀ r : RegName, a ≠ regAddr r)))

/-- R41: while BUSY, a write that is no bus error, to any register but CTRL and STATUS or to IBUF, is dropped and only
sets WR_BLOCKED; that this takes in the read-only registers is the model's literal reading of R41 (log 9). -/
def Obligations.BusyWritesAreBlocked : Prop :=
  ∀ s : State, s.sizes.Valid → s.status.busy = true →
    (∀ (r : RegName) (v : Word), r ≠ .ctrl → r ≠ .status →
      exec (.wr32 (regAddr r) v) s = .next { s with status := { s.status with wrBlocked := true } }) ∧
    (∀ (a : Word) (v : Byte), s.InIbuf a.toNat →
      exec (.wr8 a v) s = .next { s with status := { s.status with wrBlocked := true } }) ∧
    (∀ a v : Word, a.toNat % 4 = 0 → s.InIbuf a.toNat → s.InIbuf (a.toNat + 3) →
      exec (.wr32 a v) s = .next { s with status := { s.status with wrBlocked := true } })

/-- R33, R46, R53 and the access column of the register map: a write to CTRL takes bits 1 and 0 at any time; while idle
IN_LEN takes the word, SEL its low 9 bits, and a read-only register ignores it. -/
def Obligations.RegisterWritesTakeTheirFields : Prop :=
  ∀ (s : State) (v : Word),
    exec (.wr32 0x00000004 v) s = .next { s with ctrl := { ieDone := v.getLsbD 0, ieErr := v.getLsbD 1 } } ∧
    (s.status.busy = false →
      exec (.wr32 0x00000018 v) s = .next { s with inLen := v } ∧
      exec (.wr32 0x00000034 v) s = .next { s with sel := v.extractLsb' 0 9 } ∧
      ∀ r : RegName, r ∉ [RegName.ctrl, .cmd, .status, .inLen, .sel] → exec (.wr32 (regAddr r) v) s = .next s)

/-- R43: a write of v to STATUS, BUSY or not, clears DONE, ERR, WR_BLOCKED and BUS_ERR where v has a 1, and changes
nothing else. -/
def Obligations.StatusWriteClearsWhereOne : Prop :=
  ∀ (s : State) (v : Word), exec (.wr32 0x0000000C v) s = .next { s with
    status := { s.status with
      done := if v.getLsbD 1 = true then false else s.status.done
      err := if v.getLsbD 2 = true then false else s.status.err
      wrBlocked := if v.getLsbD 6 = true then false else s.status.wrBlocked
      busErr := if v.getLsbD 7 = true then false else s.status.busErr } }

/-- R230: a write of v to CMD while idle issues it: PENDING is v, BUSY is set, DONE and ERR are cleared, nothing else
changes; while BUSY it is ignored and sets WR_BLOCKED. -/
def Obligations.CmdWriteIssuesWhileIdle : Prop :=
  ∀ (s : State) (v : Word),
    (s.status.busy = false → exec (.wr32 0x00000008 v) s =
      .next { s with pending := v, status := { s.status with busy := true, done := false, err := false } }) ∧
    (s.status.busy = true → exec (.wr32 0x00000008 v) s =
      .next { s with status := { s.status with wrBlocked := true } })

/-- R67: IRQ is (DONE and IE_DONE) or (ERR and IE_ERR), and 0 after reset. R248: a W1C write of both bits and an ISSUE
make it 0; COMPLETE raises it where enabled. -/
def Obligations.IrqFollowsDoneAndErr : Prop :=
  ∀ s : State,
    s.irq = ((s.status.done && s.ctrl.ieDone) || (s.status.err && s.ctrl.ieErr)) ∧
    s.applyReset.irq = false ∧
    (∀ v t, v.getLsbD 1 = true → v.getLsbD 2 = true → exec (.wr32 0x0000000C v) s = .next t → t.irq = false) ∧
    (∀ v t, s.status.busy = false → exec (.wr32 0x00000008 v) s = .next t → t.irq = false) ∧
    (∀ i t, Instr.isCommand i = true → exec i s = .next t →
      t.irq = (s.ctrl.ieDone || (decide (t.errCode ≠ .none) && s.ctrl.ieErr)))

/-! ### The whole machine -/

/-- The invariant (R69, with what it rests on) is kept by every step, from every state that has it. -/
def Obligations.EveryStepKeepsTheInvariant : Prop :=
  ∀ s t : State, s.Inv → step s = .next t → t.Inv

/-- The invariant holds right after reset, at every pair of sizes R6 allows and at those of State.reset. -/
def Obligations.ResetStateHasTheInvariant : Prop :=
  (∀ (z : Config.Sizes) (d : Nat) (events : List Event), z.Valid → { State.resetWith z d with schedule := events }.Inv) ∧
  State.reset.Inv

/-- R69: its four clauses hold in every state that a run from reset reaches, at every pair of sizes and whatever the
outside does. -/
def Obligations.ReachableStatesSatisfyR69 : Prop :=
  ∀ (z : Config.Sizes) (events : List Event) (n : Nat) (t : State), z.Valid →
    Sys2Proof.core.run n { State.resetWith z 0 with schedule := events } = .next t → t.R69

/-- R38, R61, R62: only ANALYZE and CLEAR, of all instructions, change FREQ, ORDER, NSYM, TOTAL or FREQ_VALID; only
ANALYZE sets FREQ_VALID, only CLEAR clears it. -/
def Obligations.OnlyAnalyzeAndClearChangeTheFrequencyTable : Prop :=
  ∀ (i : Instr) (s t : State), exec i s = .next t →
    (i ≠ .analyze → i ≠ .clear → t.freq = s.freq ∧ t.order = s.order ∧ t.nsym = s.nsym ∧ t.total = s.total ∧
      t.status.freqValid = s.status.freqValid) ∧
    (i = .analyze → s.status.freqValid = true → t.status.freqValid = true) ∧
    (i = .clear → t.status.freqValid = false)

/-- R39, R63, R64: only BUILD sets TREE_VALID or writes NODE, CBITS and ROOT; only BUILD and CLEAR write CLEN; TREE_VALID is
cleared by a successful ANALYZE and by CLEAR alone, DEGEN with it. That CLEAR too keeps NODE and CBITS is the model's
choice (log 10): R233 says so, R63 and U6 call them unspecified after CLEAR. -/
def Obligations.OnlyBuildMakesATree : Prop :=
  ∀ (i : Instr) (s t : State), exec i s = .next t →
    (i ≠ .build → t.node = s.node ∧ t.cbits = s.cbits ∧ t.rootIdx = s.rootIdx ∧ t.nnodes = s.nnodes ∧
      (t.status.treeValid = true → s.status.treeValid = true ∧ t.status.degen = s.status.degen)) ∧
    (i ≠ .build → i ≠ .clear → t.clen = s.clen) ∧
    (s.status.treeValid = true → t.status.treeValid = false →
      (i = .analyze ∧ t.errCode = .none ∨ i = .clear) ∧ t.status.degen = false)

/-- R41, R42: WR_BLOCKED and BUS_ERR, once set, are cleared by no instruction but a STATUS write with a 1 in bit 6
or 7. -/
def Obligations.StickyBitsNeedAStatusWrite : Prop :=
  ∀ (i : Instr) (s t : State), exec i s = .next t →
    (s.status.wrBlocked = true → t.status.wrBlocked = false →
      ∃ v : Word, i = .wr32 0x0000000C v ∧ v.getLsbD 6 = true) ∧
    (s.status.busErr = true → t.status.busErr = false →
      ∃ v : Word, i = .wr32 0x0000000C v ∧ v.getLsbD 7 = true)

/-- R44, R45, R244: no HOST transaction changes ERRCODE, ERR_INFO, a result register, a table or an OBUF byte; none
sets DONE or ERR. -/
def Obligations.HostTransactionsKeepResults : Prop :=
  ∀ (i : Instr) (s t : State), s.sizes.Valid → Instr.isCommand i = false → exec i s = .next t →
    t.errCode = s.errCode ∧ t.errInfo = s.errInfo ∧ t.outLen = s.outLen ∧ t.bitLen = s.bitLen ∧ t.pad = s.pad ∧
    t.nsym = s.nsym ∧ t.total = s.total ∧ t.rootIdx = s.rootIdx ∧ t.nnodes = s.nnodes ∧ t.freq = s.freq ∧
    t.order = s.order ∧ t.node = s.node ∧ t.clen = s.clen ∧ t.cbits = s.cbits ∧
    (∀ a, s.InObuf a → t.readByte a = s.readByte a) ∧
    (t.status.done = true → s.status.done = true) ∧ (t.status.err = true → s.status.err = true)

/-- R41, R95, R286: while BUSY no HOST transaction changes PENDING, IN_LEN, SEL, a buffer byte, BUSY, or the valid bits: the
command in progress sees the inputs it had at ISSUE. -/
def Obligations.BusyFreezesTheCommandsInputs : Prop :=
  ∀ (i : Instr) (s t : State), Instr.isCommand i = false → s.status.busy = true → exec i s = .next t →
    t.status.busy = true ∧ t.pending = s.pending ∧ t.inLen = s.inLen ∧ t.sel = s.sel ∧ t.mem = s.mem ∧
    (∀ a, t.readByte a = s.readByte a) ∧ t.status.freqValid = s.status.freqValid ∧
    t.status.treeValid = s.status.treeValid ∧ t.status.degen = s.status.degen

/-- R95 (1), R230: what a command computes does not depend on the HOST transactions between its ISSUE and its COMPLETE. -/
def Obligations.CompleteIgnoresHostTransactions : Prop :=
  ∀ (i b : Instr) (s s' t u : State), Instr.isCommand i = true → Instr.isCommand b = false →
    s.status.busy = true → exec b s = .next s' → exec i s' = .next t → exec i s = .next u →
    t.errCode = u.errCode ∧ t.errInfo = u.errInfo ∧ t.outLen = u.outLen ∧ t.bitLen = u.bitLen ∧ t.pad = u.pad ∧
    t.nsym = u.nsym ∧ t.total = u.total ∧ t.rootIdx = u.rootIdx ∧ t.nnodes = u.nnodes ∧ t.freq = u.freq ∧
    t.order = u.order ∧ t.node = u.node ∧ t.clen = u.clen ∧ t.cbits = u.cbits ∧
    t.status.freqValid = u.status.freqValid ∧ t.status.treeValid = u.status.treeValid ∧
    t.status.degen = u.status.degen ∧ t.status.err = u.status.err ∧
    (∀ a, ¬ s.InObuf a → t.readByte a = u.readByte a) ∧
    (u.errCode = .none → ∀ a, t.readByte a = u.readByte a)
end

