-- ==== Sys2Proof/Laws/Bits.lean ====
section
/-! SUPPORT. Bit strings: the value of a string, pack and unpack as inverses (R15), and a code table entry as the
string it was made from (R64, R155). -/

namespace Sys2Proof.Machine

theorem natOfBits_append (s t : Bits) : natOfBits (s ++ t) = natOfBits s * 2 ^ t.length + natOfBits t := by
  have gen : ∀ (u : Bits) (k : Nat),
      u.foldl (fun n b => 2 * n + b.toNat) k = k * 2 ^ u.length + natOfBits u := by
    intro u
    induction u with
    | nil => simp [natOfBits]
    | cons b r ih =>
      intro k
      simp only [List.foldl_cons, List.length_cons, natOfBits]
      rw [ih, ih (2 * 0 + b.toNat), pow_succ]
      ring
  rw [natOfBits, List.foldl_append, gen]
  rfl

theorem natOfBits_cons (b : Bool) (s : Bits) : natOfBits (b :: s) = b.toNat * 2 ^ s.length + natOfBits s := by
  rw [show b :: s = [b] ++ s from rfl, natOfBits_append]
  simp [natOfBits]

theorem natOfBits_lt (s : Bits) : natOfBits s < 2 ^ s.length := by
  induction s with
  | nil => simp [natOfBits]
  | cons b r ih =>
    rw [natOfBits_cons, List.length_cons, pow_succ]
    have : b.toNat ≤ 1 := Bool.toNat_le b
    nlinarith

/-- Bit i of a string is bit len - 1 - i of its value (R155, R15). -/
theorem testBit_natOfBits (s : Bits) (i : Nat) (h : i < s.length) :
    (natOfBits s).testBit (s.length - 1 - i) = s[i] := by
  induction s generalizing i with
  | nil => simp at h
  | cons b r ih =>
    rw [natOfBits_cons]
    have hlt := natOfBits_lt r
    cases i with
    | zero =>
      simp only [List.length_cons, Nat.add_sub_cancel, Nat.sub_zero, List.getElem_cons_zero]
      rw [Nat.testBit, Nat.shiftRight_eq_div_pow, Nat.add_comm, Nat.add_mul_div_right _ _ (by positivity),
        Nat.div_eq_of_lt hlt]
      cases b <;> simp
    | succ j =>
      have hj : j < r.length := by simpa using h
      have e : (b :: r).length - 1 - (j + 1) = r.length - 1 - j := by simp; omega
      rw [e, List.getElem_cons_succ, ← ih j hj, Nat.mul_comm,
        Nat.testBit_two_pow_mul_add _ hlt, if_pos (by omega)]

/-! ### pack and unpack -/

/-- The byte packed from eight bits reads back as them (R15). -/
theorem bin8_ofNat_natOfBits (b7 b6 b5 b4 b3 b2 b1 b0 : Bool) :
    bin8 (BitVec.ofNat 8 (natOfBits [b7, b6, b5, b4, b3, b2, b1, b0])) = [b7, b6, b5, b4, b3, b2, b1, b0] := by
  revert b7 b6 b5 b4 b3 b2 b1 b0
  decide

theorem ofNat_natOfBits_bin8 (v : Byte) : BitVec.ofNat 8 (natOfBits (bin8 v)) = v := by
  revert v
  decide

@[simp] theorem length_bin8 (v : Byte) : (bin8 v).length = 8 := rfl

theorem getElem?_bin8 (v : Byte) (i : Nat) (h : i < 8) : (bin8 v)[i]? = some (v.getLsbD (7 - i)) := by
  interval_cases i <;> rfl

theorem bin8_injective {v w : Byte} (h : bin8 v = bin8 w) : v = w := by
  rw [← ofNat_natOfBits_bin8 v, h, ofNat_natOfBits_bin8]

@[simp] theorem length_unpack (l : List Byte) : (unpack l).length = 8 * l.length := by
  induction l with
  | nil => rfl
  | cons v r ih =>
    simp only [unpack, List.length_append, length_bin8, ih, List.length_cons]
    omega

theorem unpack_append (l m : List Byte) : unpack (l ++ m) = unpack l ++ unpack m := by
  induction l with
  | nil => rfl
  | cons v r ih => simp [unpack, ih]

theorem pack_bin8_append (v : Byte) (s : Bits) : pack (bin8 v ++ s) = v :: pack s := by
  have h := ofNat_natOfBits_bin8 v
  simp only [bin8] at h
  simp only [bin8, List.cons_append, List.nil_append, pack, h]

theorem pack_unpack (l : List Byte) : pack (unpack l) = l := by
  induction l with
  | nil => rfl
  | cons v r ih => rw [unpack, pack_bin8_append, ih]

/-- A string of a multiple of 8 bits, cut into bytes. -/
theorem unpack_pack {s : Bits} (h : 8 ∣ s.length) : unpack (pack s) = s := by
  match s, h with
  | [], _ => rfl
  | b7 :: b6 :: b5 :: b4 :: b3 :: b2 :: b1 :: b0 :: rest, h =>
    have : 8 ∣ rest.length := by
      simp only [List.length_cons] at h
      omega
    rw [pack, unpack, bin8_ofNat_natOfBits, unpack_pack this]
    rfl
  | [_], h | [_, _], h | [_, _, _], h | [_, _, _, _], h | [_, _, _, _, _], h | [_, _, _, _, _, _], h
  | [_, _, _, _, _, _, _], h =>
    simp only [List.length_cons, List.length_nil] at h
    omega

theorem length_pack {s : Bits} (h : 8 ∣ s.length) : (pack s).length = s.length / 8 := by
  have := congrArg List.length (unpack_pack h)
  rw [length_unpack] at this
  omega

/-- R15: bit 8j + i of the string is bit 7 - i of byte j. -/
theorem getLsbD_pack {s : Bits} (h : 8 ∣ s.length) (j i : Nat) (hj : j < (pack s).length) (hi : i < 8) :
    s[8 * j + i]? = some ((pack s)[j].getLsbD (7 - i)) := by
  have gen : ∀ (l : List Byte) (j : Nat) (hj : j < l.length), (unpack l)[8 * j + i]? = some (l[j].getLsbD (7 - i)) := by
    intro l
    induction l with
    | nil => intro j hj; simp at hj
    | cons v r ih =>
      intro j hj
      cases j with
      | zero =>
        rw [unpack, List.getElem?_append_left (by simp; omega)]
        rw [Nat.mul_zero, Nat.zero_add]
        exact getElem?_bin8 v i hi
      | succ k =>
        rw [unpack, List.getElem?_append_right (by simp; omega)]
        rw [show 8 * (k + 1) + i - (bin8 v).length = 8 * k + i by simp; omega]
        simpa using ih k (by simpa using hj)
  have := gen (pack s) j hj
  rwa [unpack_pack h] at this

/-! ### Codes -/

@[simp] theorem length_codeOf (len : Byte) (bits : CodeBits) : (codeOf len bits).length = len.toNat := by
  simp [codeOf]

/-- The table entry that BUILD writes for a path of at most 255 bits stands for that path (R64, R155). -/
theorem codeOf_ofNat {p : Bits} (h : p.length ≤ 255) :
    codeOf (BitVec.ofNat 8 p.length) (BitVec.ofNat 255 (natOfBits p)) = p := by
  have hl : (BitVec.ofNat 8 p.length).toNat = p.length := by
    rw [BitVec.toNat_ofNat]
    omega
  apply List.ext_getElem
  · simp [codeOf, hl]
  · intro i h1 h2
    simp only [codeOf, hl, List.getElem_map, List.getElem_range]
    rw [BitVec.getLsbD_ofNat, ← testBit_natOfBits p i h2]
    have : p.length - 1 - i < 255 := by omega
    simp [this]

end Sys2Proof.Machine
end

