-- ==== Sys2Proof/Laws/Tables.lean ====
section
/-! SUPPORT. The tables of one entry per symbol: reading after a write, after a run of writes, and sums over them. -/

namespace Sys2Proof.Machine

@[simp] theorem tableAt_tableSet {α : Type} (t : Vector α 256) (a b : Byte) (x : α) :
    tableAt (tableSet t a x) b = if b = a then x else tableAt t b := by
  simp only [tableAt, tableSet, Vector.getElem_set]
  by_cases h : b = a
  · simp [h]
  · have : a.toNat ≠ b.toNat := fun e => h (BitVec.eq_of_toNat_eq e.symm)
    simp [h, this]

@[simp] theorem tableAt_replicate {α : Type} (x : α) (b : Byte) : tableAt (Vector.replicate 256 x) b = x := by
  simp [tableAt]

theorem tableAt_eq_getElem {α : Type} (t : Vector α 256) (i : Nat) (h : i < 256) :
    tableAt t (BitVec.ofNat 8 i) = t[i] := by
  have : (BitVec.ofNat 8 i).toNat = i := by rw [BitVec.toNat_ofNat]; omega
  simp [tableAt, this]

/-- Tables that agree at every symbol are equal. -/
theorem table_ext {α : Type} {t u : Vector α 256} (h : ∀ b : Byte, tableAt t b = tableAt u b) : t = u := by
  apply Vector.ext
  intro i hi
  rw [← tableAt_eq_getElem t i hi, ← tableAt_eq_getElem u i hi, h]

/-- A run of writes to distinct symbols leaves at each the value written. -/
theorem tableAt_foldl {α : Type} (g : Bits → α) {l : List (Byte × Bits)} (hn : (l.map Prod.fst).Nodup)
    (t : Vector α 256) (b : Byte) :
    (∀ p, (b, p) ∈ l → tableAt (l.foldl (fun t c => tableSet t c.1 (g c.2)) t) b = g p) ∧
    (b ∉ l.map Prod.fst → tableAt (l.foldl (fun t c => tableSet t c.1 (g c.2)) t) b = tableAt t b) := by
  induction l generalizing t with
  | nil => simp
  | cons c r ih =>
    simp only [List.map_cons, List.nodup_cons] at hn
    obtain ⟨h1, h2⟩ := ih hn.2 (tableSet t c.1 (g c.2))
    constructor
    · intro p hp
      rcases List.mem_cons.1 hp with rfl | hp
      · simp only [List.foldl_cons]
        rw [h2 hn.1]
        simp
      · exact h1 p hp
    · intro hb
      simp only [List.map_cons, List.mem_cons, not_or] at hb
      simp only [List.foldl_cons]
      rw [h2 hb.2]
      simp [hb.1]

@[simp] theorem getElem_overlay {α : Type} {n : Nat} (t : Vector α n) (l : List α) (i : Nat) (h : i < n) :
    (overlay t l)[i] = l[i]?.getD t[i] := by
  simp [overlay]

theorem sum_toList {n : Nat} (v : Vector Word n) :
    (v.toList.map BitVec.toNat).sum = ∑ i : Fin n, (v[i]).toNat := by
  rw [← List.sum_ofFn]
  congr 1
  apply List.ext_getElem
  · simp
  · intro i h1 h2
    simp

/-- The sum over distinct symbols is at most the sum over all. -/
theorem sum_le_freqSum (s : State) {l : List Byte} (h : l.Nodup) :
    (l.map fun b => (tableAt s.freq b).toNat).sum ≤ s.freqSum := by
  have e1 : s.freqSum = ∑ i : Fin 256, (s.freq[i]).toNat := sum_toList s.freq
  have e2 : (l.map fun b => (tableAt s.freq b).toNat) =
      (l.map BitVec.toFin).map fun i : Fin 256 => (s.freq[i]).toNat := by
    rw [List.map_map]
    rfl
  have hn : (l.map (BitVec.toFin : Byte → Fin 256)).Nodup := h.map fun a b e => by
    apply BitVec.eq_of_toFin_eq e
  rw [e1, e2, ← List.sum_toFinset _ hn]
  exact Finset.sum_le_sum_of_subset (Finset.subset_univ _)

end Sys2Proof.Machine
end

