-- ==== Sys2Proof/Laws/Tree.lean ====
section
/-! SUPPORT. What BUILD's loop makes (R150 to R155): an arena that represents one binary tree over the given
symbols, each at one leaf. -/

namespace Sys2Proof.Machine

/-! ### popmin (R17) -/

theorem popMin_eq_none {q : List QElem} : popMin q = none ↔ q = [] := by
  cases q with
  | nil => simp [popMin]
  | cons e r => simp only [popMin]; grind

/-- popmin takes one element out, and no element left is before it. -/
theorem popMin_spec {q q' : List QElem} {e : QElem} (h : popMin q = some (e, q')) :
    q.Perm (e :: q') ∧ ∀ x ∈ q', x.before e = false := by
  induction q generalizing e q' with
  | nil => simp [popMin] at h
  | cons a r ih =>
    simp only [popMin] at h
    split at h
    · rename_i hn
      obtain ⟨rfl, rfl⟩ : a = e ∧ q' = [] := by simpa [eq_comm] using h
      rw [popMin_eq_none] at hn
      simp [hn]
    · rename_i m r' hm
      obtain ⟨hp, hmin⟩ := ih hm
      split at h
      · rename_i hb
        obtain ⟨rfl, rfl⟩ : m = e ∧ a :: r' = q' := by simpa using h
        refine ⟨(hp.cons a).trans (.swap _ _ _), ?_⟩
        intro x hx
        rcases List.mem_cons.1 hx with rfl | hx
        · simp only [QElem.before] at hb ⊢; grind
        · exact hmin x hx
      · rename_i hb
        obtain ⟨rfl, rfl⟩ : a = e ∧ r = q' := by simpa using h
        refine ⟨.refl _, fun x hx => ?_⟩
        rcases List.mem_cons.1 (hp.subset hx) with rfl | hx
        · simpa using hb
        · have := hmin x hx
          simp only [QElem.before] at hb this ⊢
          grind

/-! ### The tree an arena represents -/

/-- A binary tree with a symbol at each leaf. -/
inductive HTree where
  | leaf (sym : Byte)
  | node (left right : HTree)

namespace HTree

/-- The symbols at the leaves, left to right. -/
def syms : HTree → List Byte
  | leaf s => [s]
  | node l r => l.syms ++ r.syms

/-- The longest path from the root. -/
def depth : HTree → Nat
  | leaf _ => 0
  | node l r => 1 + max l.depth r.depth

/-- Every leaf's symbol with its path (R155). -/
def paths : HTree → List (Byte × Bits)
  | leaf s => [(s, [])]
  | node l r => (l.paths.map fun c => (c.1, false :: c.2)) ++ (r.paths.map fun c => (c.1, true :: c.2))

theorem map_fst_paths (t : HTree) : t.paths.map Prod.fst = t.syms := by
  induction t with
  | leaf s => rfl
  | node l r hl hr => simp [paths, syms, ← hl, ← hr, Function.comp_def]

theorem length_le_depth {t : HTree} {c : Byte × Bits} (h : c ∈ t.paths) : c.2.length ≤ t.depth := by
  induction t generalizing c with
  | leaf s =>
    simp only [paths, List.mem_singleton] at h
    simp [h, depth]
  | node l r hl hr =>
    simp only [paths, List.mem_append, List.mem_map] at h
    simp only [depth]
    rcases h with ⟨d, hd, rfl⟩ | ⟨d, hd, rfl⟩
    · have := hl hd; simp only [List.length_cons]; omega
    · have := hr hd; simp only [List.length_cons]; omega

theorem syms_ne_nil (t : HTree) : t.syms ≠ [] := by
  induction t with
  | leaf s => simp [syms]
  | node l r hl hr => simp [syms, hl]

/-- The arena represents a tree at an index (R63): a leaf by its symbol, an internal node by its two children. -/
def Rep (arena : List Node) : Nat → HTree → Prop
  | i, leaf s => ∃ nd, arena[i]? = some nd ∧ nd.leaf = true ∧ nd.sym = s
  | i, node l r =>
    ∃ nd, arena[i]? = some nd ∧ nd.leaf = false ∧ Rep arena nd.left.toNat l ∧ Rep arena nd.right.toNat r

theorem Rep.append {arena : List Node} {i : Nat} {t : HTree} (h : Rep arena i t) (more : List Node) :
    Rep (arena ++ more) i t := by
  have keep : ∀ {i : Nat} {nd : Node}, arena[i]? = some nd → (arena ++ more)[i]? = some nd := by
    intro i nd h
    rw [List.getElem?_append_left (List.getElem?_eq_some_iff.1 h).1, h]
  induction t generalizing i with
  | leaf s =>
    obtain ⟨nd, h1, h2⟩ := h
    exact ⟨nd, keep h1, h2⟩
  | node l r hl hr =>
    obtain ⟨nd, h1, h2, h3, h4⟩ := h
    exact ⟨nd, keep h1, h2, hl h3, hr h4⟩

/-- `assign` lists the tree's paths (R155). -/
theorem Rep.assign {arena : List Node} {i : Nat} {t : HTree} (h : Rep arena i t) {fuel : Nat}
    (hf : t.depth < fuel) (p : Bits) :
    Machine.assign arena fuel i p = t.paths.map fun c => (c.1, p ++ c.2) := by
  induction t generalizing i fuel p with
  | leaf s =>
    obtain ⟨nd, h1, h2, h3⟩ := h
    cases fuel with
    | zero => omega
    | succ n => simp [Machine.assign, h1, h2, h3, paths]
  | node l r hl hr =>
    obtain ⟨nd, h1, h2, h3, h4⟩ := h
    cases fuel with
    | zero => omega
    | succ n =>
      simp only [depth] at hf
      simp [Machine.assign, h1, h2, paths, hl h3 (by omega : l.depth < n), hr h4 (by omega : r.depth < n),
        Function.comp_def]

end HTree

/-! ### The loop -/

/-- What holds of H and N before and after every round of the loop of R150, over the symbols `syms`. -/
structure Forest.Inv (freq : Vector Word 256) (syms : List Byte) (f : Forest) (tree : Nat → HTree) : Prop where
  size    : f.arena.length + f.queue.length = 2 * syms.length
  nonempty : f.queue ≠ []
  inArena : ∀ e ∈ f.queue, e.node < f.arena.length ∧ e.seq = e.node
  weight  : ∀ e ∈ f.queue, ∀ nd, f.arena[e.node]? = some nd → nd.w.toNat = e.weight
  total   : (f.queue.map QElem.weight).sum = (syms.map fun s => (tableAt freq s).toNat).sum
  nodup   : (f.queue.map QElem.node).Nodup
  newest  : ∃ e ∈ f.queue, e.node + 1 = f.arena.length
  rep     : ∀ i < f.arena.length, HTree.Rep f.arena i (tree i)
  depth   : ∀ i < f.arena.length, (tree i).depth < (tree i).syms.length
  leaves  : (f.queue.flatMap fun e => (tree e.node).syms).Perm syms
  leafAt  : ∀ (i : Nat) (h : i < syms.length), f.arena[i]? = some (leafNode freq syms[i])
  innerAt : ∀ i, syms.length ≤ i → ∀ nd, f.arena[i]? = some nd →
              nd.leaf = false ∧ nd.sym = 0 ∧ nd.left.toNat < i ∧ nd.right.toNat < i ∧
              ∀ l r, f.arena[nd.left.toNat]? = some l → f.arena[nd.right.toNat]? = some r →
                nd.w.toNat = l.w.toNat + r.w.toNat

theorem Forest.leaves_inv (freq : Vector Word 256) {syms : List Byte} (h : syms ≠ []) :
    Forest.Inv freq syms (Forest.leaves freq syms) (fun i => .leaf (syms[i]?.getD 0)) := by
  have qmem : ∀ e ∈ (Forest.leaves freq syms).queue, ∃ i, ∃ h : i < syms.length, e = leafElem freq syms[i] i := by
    intro e he
    simp only [Forest.leaves, List.mem_map] at he
    obtain ⟨⟨s, i⟩, hp, rfl⟩ := he
    obtain ⟨_, hi, hs⟩ := List.mem_zipIdx hp
    exact ⟨i, by simpa using hi, by simp [hs]⟩
  have aget : ∀ i (h : i < syms.length), (Forest.leaves freq syms).arena[i]? = some (leafNode freq syms[i]) := by
    intro i h
    simp [Forest.leaves, h]
  have alen : (Forest.leaves freq syms).arena.length = syms.length := by simp [Forest.leaves]
  refine ⟨?_, ?_, ?_, ?_, ?_, ?_, ?_, ?_, ?_, ?_, ?_, ?_⟩
  · simp [Forest.leaves]; omega
  · simpa [Forest.leaves] using h
  · intro e he
    obtain ⟨i, hi, rfl⟩ := qmem e he
    exact ⟨by rw [alen]; exact hi, rfl⟩
  · intro e he nd hnd
    obtain ⟨i, hi, rfl⟩ := qmem e he
    simp only [leafElem, aget i hi, Option.some.injEq] at hnd ⊢
    subst hnd
    rfl
  · simp only [Forest.leaves, List.map_map, Function.comp_def, leafElem]
    congr 1
    conv_rhs => rw [← List.zipIdx_map_fst 0 syms]
    rw [List.map_map]
    rfl
  · simp only [Forest.leaves, List.map_map, Function.comp_def, leafElem]
    rw [show (fun p : Byte × Nat => p.2) = Prod.snd from rfl, List.zipIdx_map_snd]
    exact List.nodup_range'
  · have hl : 0 < syms.length := List.length_pos_iff.2 h
    refine ⟨leafElem freq syms[syms.length - 1] (syms.length - 1), ?_, ?_⟩
    · simp only [Forest.leaves, List.mem_map]
      refine ⟨(syms[syms.length - 1], syms.length - 1), ?_, rfl⟩
      rw [List.mem_iff_getElem]
      exact ⟨syms.length - 1, by simp; omega, by simp⟩
    · simp only [leafElem, alen]; omega
  · intro i hi
    rw [alen] at hi
    exact ⟨_, aget i hi, rfl, by simp [leafNode, hi]⟩
  · intro i hi
    simp [HTree.depth, HTree.syms]
  · have : (Forest.leaves freq syms).queue.flatMap
        (fun e => (HTree.leaf (syms[e.node]?.getD 0)).syms) = syms := by
      simp only [HTree.syms]
      rw [← List.map_eq_flatMap]
      simp only [Forest.leaves, List.map_map, Function.comp_def, leafElem]
      apply List.ext_getElem
      · simp
      · intro i h1 h2
        simp [h2]
    rw [this]
  · exact aget
  · intro i hi nd hnd
    have := (List.getElem?_eq_some_iff.1 hnd).1
    omega

/-- One round keeps the invariant. -/
theorem Forest.merge_inv {freq : Vector Word 256} {syms : List Byte} {f : Forest} {tree : Nat → HTree}
    (h : Forest.Inv freq syms f tree) (hm : syms.length ≤ 256)
    (hw : (syms.map fun s => (tableAt freq s).toNat).sum < 2 ^ 32) (hq : 2 ≤ f.queue.length) :
    ∃ tree', Forest.Inv freq syms f.merge tree' ∧ f.merge.queue.length + 1 = f.queue.length := by
  obtain ⟨⟨e1, q1⟩, hp1⟩ := Option.ne_none_iff_exists'.1 (mt popMin_eq_none.1 h.nonempty)
  have perm1 := (popMin_spec hp1).1
  have len1 := perm1.length_eq
  simp only [List.length_cons] at len1
  have hq1 : q1 ≠ [] := by
    rintro rfl
    simp at len1
    omega
  obtain ⟨⟨e2, q2⟩, hp2⟩ := Option.ne_none_iff_exists'.1 (mt popMin_eq_none.1 hq1)
  have perm2 := (popMin_spec hp2).1
  have len2 := perm2.length_eq
  simp only [List.length_cons] at len2
  have perm : f.queue.Perm (e1 :: e2 :: q2) := perm1.trans (perm2.cons _)
  have hmerge : f.merge = { queue := { weight := e1.weight + e2.weight, seq := f.arena.length, node := f.arena.length } :: q2
                            arena := f.arena ++ [mergeNode e1 e2] } := by
    simp [Forest.merge, hp1, hp2]
  have sub : ∀ e ∈ q2, e ∈ f.queue := fun e he => perm.symm.subset (by simp [he])
  have m1 : e1 ∈ f.queue := perm.symm.subset (by simp)
  have m2 : e2 ∈ f.queue := perm.symm.subset (by simp)
  have size := h.size
  have lt1 := (h.inArena e1 m1).1
  have lt2 := (h.inArena e2 m2).1
  have n1 : (BitVec.ofNat 9 e1.node).toNat = e1.node := by rw [BitVec.toNat_ofNat]; omega
  have n2 : (BitVec.ofNat 9 e2.node).toNat = e2.node := by rw [BitVec.toNat_ofNat]; omega
  have nodup : ((e1 :: e2 :: q2).map QElem.node).Nodup := (perm.map _).nodup_iff.1 h.nodup
  have total : ((e1 :: e2 :: q2).map QElem.weight).sum = (syms.map fun s => (tableAt freq s).toNat).sum := by
    rw [← h.total]
    exact (perm.map _).sum_eq.symm
  simp only [List.map_cons, List.sum_cons] at total
  have wsum : (BitVec.ofNat 32 (e1.weight + e2.weight)).toNat = e1.weight + e2.weight := by
    rw [BitVec.toNat_ofNat]
    apply Nat.mod_eq_of_lt
    omega
  have old : ∀ {i : Nat}, i < f.arena.length → (f.arena ++ [mergeNode e1 e2])[i]? = f.arena[i]? := fun hi =>
    List.getElem?_append_left hi
  have new : (f.arena ++ [mergeNode e1 e2])[f.arena.length]? = some (mergeNode e1 e2) := by simp
  have hms : syms.length ≤ f.arena.length := by
    rcases Nat.lt_or_ge f.arena.length syms.length with hlt | hge
    · have := h.leafAt f.arena.length hlt
      simp at this
    · exact hge
  set tree' : Nat → HTree := Function.update tree f.arena.length (.node (tree e1.node) (tree e2.node)) with htree
  have tOld : ∀ i < f.arena.length, tree' i = tree i := fun i hi => by
    simp [htree, Nat.ne_of_lt hi]
  have tNew : tree' f.arena.length = .node (tree e1.node) (tree e2.node) := by simp [htree]
  refine ⟨tree', ?_, by rw [hmerge]; simp; omega⟩
  rw [hmerge]
  refine ⟨?_, by simp, ?_, ?_, ?_, ?_, ?_, ?_, ?_, ?_, ?_, ?_⟩
  · simp only [List.length_append, List.length_cons, List.length_nil]
    omega
  · intro e he
    simp only [List.length_append, List.length_cons, List.length_nil]
    rcases List.mem_cons.1 he with rfl | he
    · exact ⟨Nat.lt_succ_self _, rfl⟩
    · have := h.inArena e (sub e he)
      exact ⟨by omega, this.2⟩
  · intro e he nd hnd
    rcases List.mem_cons.1 he with rfl | he
    · simp only [new, Option.some.injEq] at hnd
      subst hnd
      exact wsum
    · rw [old (h.inArena e (sub e he)).1] at hnd
      exact h.weight e (sub e he) nd hnd
  · simp only [List.map_cons, List.sum_cons]
    omega
  · simp only [List.map_cons, List.nodup_cons, List.mem_map] at nodup ⊢
    refine ⟨?_, nodup.2.2⟩
    rintro ⟨e, he, heq⟩
    have := (h.inArena e (sub e he)).1
    omega
  · exact ⟨_, List.mem_cons_self, by simp⟩
  · intro i hi
    simp only [List.length_append, List.length_cons, List.length_nil] at hi
    rcases Nat.lt_or_ge i f.arena.length with hlt | hge
    · rw [tOld i hlt]
      exact (h.rep i hlt).append _
    · obtain rfl : i = f.arena.length := by omega
      rw [tNew]
      refine ⟨_, new, rfl, ?_, ?_⟩
      · simp only [mergeNode, n1]
        exact (h.rep _ lt1).append _
      · simp only [mergeNode, n2]
        exact (h.rep _ lt2).append _
  · intro i hi
    simp only [List.length_append, List.length_cons, List.length_nil] at hi
    rcases Nat.lt_or_ge i f.arena.length with hlt | hge
    · rw [tOld i hlt]
      exact h.depth i hlt
    · obtain rfl : i = f.arena.length := by omega
      rw [tNew]
      simp only [HTree.depth, HTree.syms, List.length_append]
      have := h.depth _ lt1
      have := h.depth _ lt2
      omega
  · simp only [List.flatMap_cons, tNew, HTree.syms]
    have : (q2.flatMap fun e => (tree' e.node).syms) = q2.flatMap fun e => (tree e.node).syms := by
      apply List.flatMap_congr
      intro e he
      rw [tOld _ (h.inArena e (sub e he)).1]
    rw [this]
    have hl := (perm.flatMap_right fun e => (tree e.node).syms).symm.trans h.leaves
    simpa [List.flatMap_cons, List.append_assoc] using hl
  · intro i hi
    rw [old (by omega)]
    exact h.leafAt i hi
  · intro i hi nd hnd
    rcases Nat.lt_or_ge i f.arena.length with hlt | hge
    · rw [old hlt] at hnd
      obtain ⟨a1, a2, a3, a4, a5⟩ := h.innerAt i hi nd hnd
      refine ⟨a1, a2, a3, a4, ?_⟩
      rw [old (by omega), old (by omega)]
      exact a5
    · have hlen := (List.getElem?_eq_some_iff.1 hnd).1
      simp only [List.length_append, List.length_cons, List.length_nil] at hlen
      obtain rfl : i = f.arena.length := by omega
      simp only [new, Option.some.injEq] at hnd
      subst hnd
      have l1 : (mergeNode e1 e2).left.toNat = e1.node := n1
      have l2 : (mergeNode e1 e2).right.toNat = e2.node := n2
      refine ⟨rfl, rfl, by rw [l1]; exact lt1, by rw [l2]; exact lt2, ?_⟩
      rw [l1, l2, old lt1, old lt2]
      intro l r hl hr
      change (BitVec.ofNat 32 (e1.weight + e2.weight)).toNat = _
      rw [wsum, h.weight e1 m1 l hl, h.weight e2 m2 r hr]

theorem Forest.merge_of_single {f : Forest} (h : f.queue.length ≤ 1) : f.merge = f := by
  rcases hq : f.queue with _ | ⟨e, _ | ⟨e', r⟩⟩
  · simp [Forest.merge, hq, popMin]
  · simp [Forest.merge, hq, popMin]
  · simp [hq] at h

/-! ### The choice of the two least -/

/-- Node `j` is in the queue when the node at index `i` is made, in an arena over `m` leaves. -/
def LiveIn (arena : List Node) (m i j : Nat) : Prop :=
  j < i ∧ ∀ k, m ≤ k → k < i → ∀ nd, arena[k]? = some nd → nd.left.toNat ≠ j ∧ nd.right.toNat ≠ j

/-- The key (weight, seq) of node `a` is less than that of node `b`. -/
def KeyIn (arena : List Node) (a b : Nat) : Prop :=
  ∀ na nb, arena[a]? = some na → arena[b]? = some nb → na.w.toNat < nb.w.toNat ∨ (na.w.toNat = nb.w.toNat ∧ a < b)

theorem LiveIn.append {arena : List Node} {m i j : Nat} (more : List Node) (hi : i ≤ arena.length) :
    LiveIn (arena ++ more) m i j ↔ LiveIn arena m i j := by
  have e : ∀ k, k < i → (arena ++ more)[k]? = arena[k]? := fun k hk => List.getElem?_append_left (by omega)
  simp only [LiveIn]
  constructor
  · exact fun h => ⟨h.1, fun k h1 h2 => by have := h.2 k h1 h2; rwa [e k h2] at this⟩
  · exact fun h => ⟨h.1, fun k h1 h2 => by rw [e k h2]; exact h.2 k h1 h2⟩

theorem KeyIn.append {arena : List Node} {a b : Nat} (more : List Node) (ha : a < arena.length) (hb : b < arena.length) :
    KeyIn (arena ++ more) a b ↔ KeyIn arena a b := by
  simp only [KeyIn, List.getElem?_append_left ha, List.getElem?_append_left hb]

/-- What holds of the choices made so far (R152, R154). -/
structure Forest.Choice (m : Nat) (f : Forest) : Prop where
  live  : ∀ j, j ∈ f.queue.map QElem.node ↔ LiveIn f.arena m f.arena.length j
  least : ∀ i, m ≤ i → ∀ nd, f.arena[i]? = some nd →
            LiveIn f.arena m i nd.left.toNat ∧ LiveIn f.arena m i nd.right.toNat ∧
            KeyIn f.arena nd.left.toNat nd.right.toNat ∧
            ∀ j, LiveIn f.arena m i j → j ≠ nd.left.toNat → j ≠ nd.right.toNat → KeyIn f.arena nd.right.toNat j

theorem Forest.leaves_choice (freq : Vector Word 256) (syms : List Byte) :
    Forest.Choice syms.length (Forest.leaves freq syms) := by
  have hlen : (Forest.leaves freq syms).arena.length = syms.length := by simp [Forest.leaves]
  refine ⟨?_, ?_⟩
  · intro j
    have : (Forest.leaves freq syms).queue.map QElem.node = List.range' 0 syms.length := by
      simp only [Forest.leaves, List.map_map, Function.comp_def, leafElem]
      exact List.zipIdx_map_snd 0 syms
    rw [this, hlen, LiveIn, List.mem_range'_1]
    constructor
    · exact fun h => ⟨by omega, fun k h1 h2 => by omega⟩
    · exact fun h => ⟨by omega, by omega⟩
  · intro i hi nd hnd
    have := (List.getElem?_eq_some_iff.1 hnd).1
    omega

/-- The queue's order of two elements is the order of their nodes' keys. -/
theorem Forest.Inv.keyIn {freq : Vector Word 256} {syms : List Byte} {f : Forest} {tree : Nat → HTree}
    (h : Forest.Inv freq syms f tree) {a b : QElem} (ha : a ∈ f.queue) (hb : b ∈ f.queue)
    (hab : a.node ≠ b.node) (hmin : b.before a = false) : KeyIn f.arena a.node b.node := by
  intro na nb hna hnb
  rw [h.weight a ha na hna, h.weight b hb nb hnb]
  have := (h.inArena a ha).2
  have := (h.inArena b hb).2
  simp only [QElem.before, Bool.or_eq_false_iff, Bool.and_eq_false_iff, decide_eq_false_iff_not] at hmin
  omega

theorem Forest.merge_choice {freq : Vector Word 256} {syms : List Byte} {f : Forest} {tree : Nat → HTree}
    (h : Forest.Inv freq syms f tree) (c : Forest.Choice syms.length f) (hm : syms.length ≤ 256)
    (hq : 2 ≤ f.queue.length) : Forest.Choice syms.length f.merge := by
  obtain ⟨⟨e1, q1⟩, hp1⟩ := Option.ne_none_iff_exists'.1 (mt popMin_eq_none.1 h.nonempty)
  obtain ⟨perm1, min1⟩ := popMin_spec hp1
  have hq1 : q1 ≠ [] := by
    rintro rfl
    have := perm1.length_eq
    simp at this
    omega
  obtain ⟨⟨e2, q2⟩, hp2⟩ := Option.ne_none_iff_exists'.1 (mt popMin_eq_none.1 hq1)
  obtain ⟨perm2, min2⟩ := popMin_spec hp2
  have perm : f.queue.Perm (e1 :: e2 :: q2) := perm1.trans (perm2.cons _)
  have hmerge : f.merge = { queue := { weight := e1.weight + e2.weight, seq := f.arena.length, node := f.arena.length } :: q2
                            arena := f.arena ++ [mergeNode e1 e2] } := by
    simp [Forest.merge, hp1, hp2]
  have m1 : e1 ∈ f.queue := perm.symm.subset (by simp)
  have m2 : e2 ∈ f.queue := perm.symm.subset (by simp)
  have size := h.size
  have lt1 := (h.inArena e1 m1).1
  have lt2 := (h.inArena e2 m2).1
  have n1 : (mergeNode e1 e2).left.toNat = e1.node := by
    change (BitVec.ofNat 9 e1.node).toNat = _
    rw [BitVec.toNat_ofNat]
    omega
  have n2 : (mergeNode e1 e2).right.toNat = e2.node := by
    change (BitVec.ofNat 9 e2.node).toNat = _
    rw [BitVec.toNat_ofNat]
    omega
  have nodup : ((e1 :: e2 :: q2).map QElem.node).Nodup := (perm.map _).nodup_iff.1 h.nodup
  simp only [List.map_cons, List.nodup_cons, List.mem_cons, not_or] at nodup
  have hms : syms.length ≤ f.arena.length := by
    rcases Nat.lt_or_ge f.arena.length syms.length with hlt | hge
    · have := h.leafAt f.arena.length hlt
      simp at this
    · exact hge
  have new : (f.arena ++ [mergeNode e1 e2])[f.arena.length]? = some (mergeNode e1 e2) := by simp
  have inQueue : ∀ j, LiveIn f.arena syms.length f.arena.length j → j = e1.node ∨ j = e2.node ∨ j ∈ q2.map QElem.node := by
    intro j hj
    have := (perm.map QElem.node).subset ((c.live j).2 hj)
    simpa using this
  rw [hmerge]
  refine ⟨?_, ?_⟩
  · intro j
    simp only [List.map_cons, List.mem_cons, List.length_append, List.length_cons, List.length_nil]
    constructor
    · rintro (rfl | hj)
      · refine ⟨Nat.lt_succ_self _, fun k h1 h2 nd hnd => ?_⟩
        rcases Nat.lt_or_ge k f.arena.length with hlt | hge
        · rw [List.getElem?_append_left hlt] at hnd
          obtain ⟨-, -, a3, a4, -⟩ := h.innerAt k h1 nd hnd
          omega
        · obtain rfl : k = f.arena.length := by omega
          rw [new, Option.some.injEq] at hnd
          subst hnd
          omega
      · have hl := (c.live j).1 ((perm.map QElem.node).symm.subset (by simp [hj]))
        refine ⟨by have := hl.1; omega, fun k h1 h2 nd hnd => ?_⟩
        rcases Nat.lt_or_ge k f.arena.length with hlt | hge
        · rw [List.getElem?_append_left hlt] at hnd
          exact hl.2 k h1 hlt nd hnd
        · obtain rfl : k = f.arena.length := by omega
          rw [new, Option.some.injEq] at hnd
          subst hnd
          rw [n1, n2]
          refine ⟨?_, ?_⟩
          · rintro rfl
            exact nodup.1.2 hj
          · rintro rfl
            exact nodup.2.1 hj
    · intro hj
      rcases Nat.lt_or_ge j f.arena.length with hlt | hge
      · right
        have hl : LiveIn f.arena syms.length f.arena.length j := by
          refine ⟨hlt, fun k h1 h2 nd hnd => hj.2 k h1 (by omega) nd ?_⟩
          rw [List.getElem?_append_left h2, hnd]
        have := hj.2 f.arena.length hms (Nat.lt_succ_self _) _ new
        rw [n1, n2] at this
        rcases inQueue j hl with e | e | e
        · exact absurd e.symm this.1
        · exact absurd e.symm this.2
        · exact e
      · left
        have := hj.1
        omega
  · intro i hi nd hnd
    rcases Nat.lt_or_ge i f.arena.length with hlt | hge
    · rw [List.getElem?_append_left hlt] at hnd
      obtain ⟨-, -, a3, a4, -⟩ := h.innerAt i hi nd hnd
      obtain ⟨c1, c2, c3, c4⟩ := c.least i hi nd hnd
      refine ⟨(LiveIn.append _ hlt.le).2 c1, (LiveIn.append _ hlt.le).2 c2,
        (KeyIn.append _ (by omega) (by omega)).2 c3, fun j hj => ?_⟩
      have hj' := (LiveIn.append _ hlt.le).1 hj
      rw [KeyIn.append _ (by omega) (by have := hj'.1; omega)]
      exact c4 j hj'
    · have hlen := (List.getElem?_eq_some_iff.1 hnd).1
      simp only [List.length_append, List.length_cons, List.length_nil] at hlen
      obtain rfl : i = f.arena.length := by omega
      rw [new, Option.some.injEq] at hnd
      subst hnd
      rw [n1, n2]
      have live : ∀ e ∈ f.queue, LiveIn f.arena syms.length f.arena.length e.node := fun e he =>
        (c.live _).1 (List.mem_map_of_mem he)
      refine ⟨(LiveIn.append _ le_rfl).2 (live e1 m1), (LiveIn.append _ le_rfl).2 (live e2 m2), ?_, fun j hj j1 j2 => ?_⟩
      · rw [KeyIn.append _ lt1 lt2]
        exact h.keyIn m1 m2 nodup.1.1 (min1 e2 (perm2.symm.subset (by simp)))
      · have hj' := (LiveIn.append _ le_rfl).1 hj
        rw [KeyIn.append _ lt2 hj'.1]
        rcases inQueue j hj' with e | e | e
        · exact absurd e j1
        · exact absurd e j2
        · obtain ⟨x, hx, rfl⟩ := List.mem_map.1 e
          exact h.keyIn m2 (perm.symm.subset (by simp [hx])) (Ne.symm j2) (min2 x hx)

theorem Forest.mergeAll_inv {freq : Vector Word 256} {syms : List Byte} (hm : syms.length ≤ 256)
    (hw : (syms.map fun s => (tableAt freq s).toNat).sum < 2 ^ 32) (n : Nat) {f : Forest} {tree : Nat → HTree}
    (h : Forest.Inv freq syms f tree) (c : Forest.Choice syms.length f) (hn : f.queue.length ≤ n + 1) :
    ∃ tree', Forest.Inv freq syms (Forest.mergeAll n f) tree' ∧
      Forest.Choice syms.length (Forest.mergeAll n f) ∧ (Forest.mergeAll n f).queue.length = 1 := by
  induction n generalizing f tree with
  | zero =>
    have := List.length_pos_iff.2 h.nonempty
    exact ⟨tree, h, c, by simp only [Forest.mergeAll]; omega⟩
  | succ n ih =>
    simp only [Forest.mergeAll]
    rcases Nat.lt_or_ge f.queue.length 2 with hlt | hge
    · rw [Forest.merge_of_single (by omega)]
      exact ih h c (by omega)
    · obtain ⟨tree', h', hlen⟩ := Forest.merge_inv h hm hw hge
      exact ih h' (Forest.merge_choice h c hm hge) (by omega)

/-- Everything BUILD's tree is (R150 to R155, R159): for 1 to 256 symbols whose counts sum to less than 2^32, the
arena has 2m - 1 entries, the root is the last, the first m are the leaves in order, the others internal with the
exact sum of their children's weights, the arena represents one tree whose leaves are the symbols, and every round
joined the two least (R152). -/
theorem Forest.build_spec {freq : Vector Word 256} {syms : List Byte} (hne : syms ≠ []) (hm : syms.length ≤ 256)
    (hw : (syms.map fun s => (tableAt freq s).toNat).sum < 2 ^ 32) :
    let f := Forest.build freq syms
    f.arena.length = 2 * syms.length - 1 ∧ f.root = 2 * syms.length - 2 ∧
    (∃ t : HTree, HTree.Rep f.arena f.root t ∧ t.syms.Perm syms ∧ t.depth < syms.length) ∧
    (∀ (i : Nat) (h : i < syms.length), f.arena[i]? = some (leafNode freq syms[i])) ∧
    (∀ i, syms.length ≤ i → ∀ nd, f.arena[i]? = some nd →
      nd.leaf = false ∧ nd.sym = 0 ∧ nd.left.toNat < i ∧ nd.right.toNat < i ∧
      ∀ l r, f.arena[nd.left.toNat]? = some l → f.arena[nd.right.toNat]? = some r →
        nd.w.toNat = l.w.toNat + r.w.toNat) ∧
    Forest.Choice syms.length f ∧ (∀ j, LiveIn f.arena syms.length f.arena.length j ↔ j = f.root) := by
  intro f
  obtain ⟨tree, inv, choice, hone⟩ := Forest.mergeAll_inv hm hw syms.length (Forest.leaves_inv freq hne)
    (Forest.leaves_choice freq syms) (by simp [Forest.leaves])
  change Forest.Inv freq syms f tree at inv
  change Forest.Choice syms.length f at choice
  change f.queue.length = 1 at hone
  obtain ⟨e, he⟩ := List.length_eq_one_iff.1 hone
  have hroot : f.root = e.node := by simp [Forest.root, he, popMin]
  have size := inv.size
  rw [hone] at size
  obtain ⟨e', he', hnew⟩ := inv.newest
  obtain rfl : e' = e := by simpa [he] using he'
  have leaves := inv.leaves
  simp only [he, List.flatMap_cons, List.flatMap_nil, List.append_nil] at leaves
  have hlt := (inv.inArena e' he').1
  refine ⟨by omega, by omega, ⟨tree e'.node, ?_, leaves, ?_⟩, inv.leafAt, inv.innerAt, choice, ?_⟩
  · rw [hroot]
    exact inv.rep _ hlt
  · have := inv.depth _ hlt
    rwa [leaves.length_eq] at this
  · intro j
    rw [← choice.live j, hroot, he]
    simp

end Sys2Proof.Machine
end

