-- ==== Sys2Proof/Laws/CodeTable.lean ====
section
/-! SUPPORT. What BUILD's commit makes of the tree: the invariant of the tree and the code table (R153 to R158,
R69 (d)), and prefix-freedom. -/

namespace Sys2Proof.Machine

/-! ### Codes of a list of paths -/

theorem codeLengths_spec {l : List (Byte × Bits)} (hn : (l.map Prod.fst).Nodup) (b : Byte) :
    (∀ p, (b, p) ∈ l → tableAt (codeLengths l) b = BitVec.ofNat 8 p.length) ∧
    (b ∉ l.map Prod.fst → tableAt (codeLengths l) b = 0) := by
  have := tableAt_foldl (fun p => BitVec.ofNat 8 p.length) hn (Vector.replicate 256 0) b
  rwa [tableAt_replicate] at this

theorem codeValues_spec {l : List (Byte × Bits)} (hn : (l.map Prod.fst).Nodup) (b : Byte) :
    (∀ p, (b, p) ∈ l → tableAt (codeValues l) b = BitVec.ofNat 255 (natOfBits p)) ∧
    (b ∉ l.map Prod.fst → tableAt (codeValues l) b = 0) := by
  have := tableAt_foldl (fun p => BitVec.ofNat 255 (natOfBits p)) hn (Vector.replicate 256 0) b
  rwa [tableAt_replicate] at this

/-- A state whose code table was written from a list of distinct symbols with paths of 1 to 255 bits has exactly
those codes. -/
theorem State.hasCode_iff {s : State} {l : List (Byte × Bits)} (hn : (l.map Prod.fst).Nodup)
    (hl : ∀ c ∈ l, 1 ≤ c.2.length ∧ c.2.length ≤ 255) (h1 : s.clen = codeLengths l) (h2 : s.cbits = codeValues l)
    (b : Byte) (p : Bits) : (s.HasCode b ∧ s.codeFor b = p) ↔ (b, p) ∈ l := by
  have fwd : ∀ q, (b, q) ∈ l → s.HasCode b ∧ s.codeFor b = q := by
    intro q hq
    have := hl _ hq
    simp only at this
    refine ⟨?_, ?_⟩
    · rw [State.HasCode, h1, (codeLengths_spec hn b).1 q hq]
      intro e
      have := congrArg BitVec.toNat e
      rw [BitVec.toNat_ofNat] at this
      simp only [BitVec.ofNat_eq_ofNat, BitVec.toNat_ofNat, Nat.zero_mod] at this
      omega
    · rw [State.codeFor, h1, h2, (codeLengths_spec hn b).1 q hq, (codeValues_spec hn b).1 q hq]
      exact codeOf_ofNat (by omega)
  constructor
  · rintro ⟨hc, rfl⟩
    by_cases hb : b ∈ l.map Prod.fst
    · obtain ⟨⟨b', q⟩, hq, rfl⟩ := List.mem_map.1 hb
      rw [(fwd q hq).2]
      exact hq
    · exact absurd (by rw [h1, (codeLengths_spec hn b).2 hb]) hc
  · exact fwd p

/-! ### Paths in the state's arena -/

/-- The state's arena holds a list of nodes from index 0. -/
def State.Holds (s : State) (arena : List Node) : Prop :=
  ∀ (i : NodeIdx) (nd : Node), arena[i.toNat]? = some nd → s.nodeAt i = nd

/-- The paths of a represented tree are the paths the state leads along. -/
theorem State.leads_iff {s : State} {arena : List Node} (hs : s.Holds arena) {t : HTree} {i : NodeIdx}
    (h : HTree.Rep arena i.toNat t) (sym : Byte) (p : Bits) : s.Leads sym i p ↔ (sym, p) ∈ t.paths := by
  induction t generalizing i p with
  | leaf a =>
    obtain ⟨nd, h1, h2, h3⟩ := h
    have := hs i nd h1
    cases p with
    | nil => simp [State.Leads, HTree.paths, this, h2, h3, eq_comm]
    | cons b r => simp [State.Leads, HTree.paths, this, h2]
  | node l r hl hr =>
    obtain ⟨nd, h1, h2, h3, h4⟩ := h
    have := hs i nd h1
    cases p with
    | nil => simp [State.Leads, HTree.paths, this, h2]
    | cons b q =>
      cases b with
      | false => simp [State.Leads, HTree.paths, this, h2, Node.child, hl h3]
      | true => simp [State.Leads, HTree.paths, this, h2, Node.child, hr h4]

/-- Two symbols cannot be led to along one path and an extension of it. -/
theorem State.leads_prefix {s : State} {a b : Byte} {n : NodeIdx} {p q : Bits} (ha : s.Leads a n p)
    (hb : s.Leads b n q) (hpq : p <+: q) : a = b ∧ p = q := by
  induction p generalizing n q with
  | nil =>
    cases q with
    | nil => exact ⟨ha.2.symm.trans hb.2, rfl⟩
    | cons c r => exact absurd (ha.1.symm.trans hb.1) (by simp)
  | cons c r ih =>
    obtain ⟨u, rfl⟩ := hpq
    rw [List.cons_append] at hb
    obtain ⟨h1, h2⟩ := ih ha.2 hb.2 (List.prefix_append _ _)
    exact ⟨h1, by rw [List.cons_append, ← h2]⟩

/-- The codes are prefix-free because they are paths to leaves (R158). -/
theorem State.TreeInv.prefixFree {s : State} (h : s.TreeInv) : s.PrefixFree := by
  intro a b ha hb hab hp
  have inv := h.inverse
  unfold State.MapsInverse at inv
  split at inv
  · exact hab (((inv a).1 ha).1.trans ((inv b).1 hb).1.symm)
  · have la := (inv a _).1 ⟨ha, rfl⟩
    have lb := (inv b _).1 ⟨hb, rfl⟩
    exact hab (State.leads_prefix la lb hp).1

/-! ### BUILD's commit -/

theorem State.length_symbols (s : State) : s.symbols.length = s.nsym.toNat := by simp [State.symbols]

theorem State.TableInv.symbols_sum {s : State} (h : s.TableInv) :
    (s.symbols.map fun b => (tableAt s.freq b).toNat).sum < 2 ^ 32 := by
  have := sum_le_freqSum s h.distinct
  have := h.total_eq
  have := s.total.isLt
  omega

theorem State.holds_overlay {s : State} {arena : List Node} {old : Vector Node 511} (h : s.node = overlay old arena)
    (hl : arena.length ≤ 511) : s.Holds arena := by
  intro i nd hnd
  have hi := (List.getElem?_eq_some_iff.1 hnd).1
  have hi' : i.toNat < 511 := by omega
  rw [State.nodeAt, h, Vector.getElem?_eq_getElem hi', getElem_overlay, hnd]
  rfl

/-- Everything BUILD's commit says of the tree and the code table. -/
theorem State.TableInv.commitTree {s : State} (h : s.TableInv) :
    let f := Forest.build s.freq s.symbols
    let t := s.commitTree f
    t.TreeInv ∧ t.nnodes.toNat = f.arena.length ∧ t.rootIdx.toNat = f.root ∧ t.Holds f.arena ∧
    (∀ b, t.HasCode b → (t.codeFor b).length ≤ max 1 (s.nsym.toNat - 1)) ∧
    (t.status.degen = false → ∀ b p, t.Leads b t.rootIdx p →
      tableAt t.clen b = BitVec.ofNat 8 p.length ∧ tableAt t.cbits b = BitVec.ofNat 255 (natOfBits p)) := by
  intro f t
  have hm1 := h.nsym_pos
  have hm2 := h.nsym_le
  have hlen := s.length_symbols
  have hne : s.symbols ≠ [] := by
    intro e
    rw [e] at hlen
    simp at hlen
    omega
  obtain ⟨harena, hroot, ⟨T, hrep, hperm, hdepth⟩, hleaf, -, -, -⟩ :=
    Forest.build_spec (freq := s.freq) hne (by omega) h.symbols_sum
  change f.arena.length = _ at harena
  change f.root = _ at hroot
  change HTree.Rep f.arena f.root T at hrep
  rw [hlen] at harena hroot hdepth
  have hholds : t.Holds f.arena := State.holds_overlay (s := t) (old := s.node) rfl (by omega)
  have hnn : t.nnodes.toNat = f.arena.length := by
    change (BitVec.ofNat 10 f.arena.length).toNat = _
    rw [BitVec.toNat_ofNat]
    omega
  have hri : t.rootIdx.toNat = f.root := by
    change (BitVec.ofNat 9 f.root).toNat = _
    rw [BitVec.toNat_ofNat]
    omega
  have hdeg : t.status.degen = decide (s.nsym = 1) := rfl
  have hfreq : ∀ b : Byte, b ∈ T.syms ↔ tableAt t.freq b ≠ 0 := fun b => by
    rw [hperm.mem_iff]
    exact h.listed b
  by_cases hone : s.nsym.toNat = 1
  · have hone' : s.nsym = 1 := BitVec.eq_of_toNat_eq hone
    obtain ⟨a, ha⟩ := List.length_eq_one_iff.1 (hlen.trans hone)
    have hr0 : f.root = 0 := by omega
    have hsa : f.arena[0]? = some (leafNode s.freq a) := by
      have h0 := hleaf 0 (by omega)
      have e : s.symbols[0]'(by omega) = a := by simp [ha]
      rw [e] at h0
      exact h0
    have hnode : t.nodeAt t.rootIdx = leafNode s.freq a := hholds _ _ (by rw [hri, hr0, hsa])
    have hcodes : f.codes s.nsym.toNat = [(a, [false])] := by
      rw [Forest.codes, if_pos hone, hr0, hsa]
      rfl
    have key := State.hasCode_iff (s := t) (l := [(a, [false])]) (by simp) (by simp)
      (by change codeLengths (f.codes s.nsym.toNat) = _; rw [hcodes])
      (by change codeValues (f.codes s.nsym.toNat) = _; rw [hcodes])
    have hc : ∀ b, t.HasCode b ↔ b = a := fun b => by
      constructor
      · intro hb
        have := (key b _).1 ⟨hb, rfl⟩
        simp only [List.mem_singleton, Prod.mk.injEq] at this
        exact this.1
      · rintro rfl
        exact ((key b [false]).2 (by simp)).1
    refine ⟨⟨?_, ?_, ?_, ?_⟩, hnn, hri, hholds, ?_, ?_⟩
    · rw [hnn, harena]
      rfl
    · intro b
      rw [hc b, ← hfreq b, hperm.mem_iff, ha, List.mem_singleton]
    · have hd : t.status.degen = true := by rw [hdeg, hone']; rfl
      rw [State.MapsInverse, if_pos hd]
      intro b
      rw [hnode]
      constructor
      · intro hb
        obtain rfl := (hc b).1 hb
        exact ⟨rfl, ((key b [false]).2 (by simp)).2⟩
      · rintro ⟨rfl, -⟩
        exact (hc _).2 rfl
    · intro hd
      rw [hdeg, hone'] at hd
      simp at hd
    · intro b hb
      obtain rfl := (hc b).1 hb
      rw [((key b [false]).2 (by simp)).2]
      simp
    · intro hd
      rw [hdeg, hone'] at hd
      simp at hd
  · have hd : t.status.degen = false := by
      rw [hdeg, decide_eq_false_iff_not]
      intro e
      rw [e] at hone
      exact hone rfl
    have hcodes : f.codes s.nsym.toNat = T.paths := by
      rw [Forest.codes, if_neg hone, hrep.assign (by omega)]
      simp
    have hT : ∃ l r, T = .node l r := by
      cases T with
      | leaf a =>
        have := hperm.length_eq
        simp [HTree.syms] at this
        omega
      | node l r => exact ⟨l, r, rfl⟩
    obtain ⟨l, r, rfl⟩ := hT
    have hnd : ((HTree.node l r).paths.map Prod.fst).Nodup := by
      rw [HTree.map_fst_paths]
      exact hperm.nodup_iff.2 h.distinct
    have hb : ∀ c ∈ (HTree.node l r).paths, 1 ≤ c.2.length ∧ c.2.length ≤ 255 := by
      intro c hc
      have := HTree.length_le_depth hc
      refine ⟨?_, by omega⟩
      simp only [HTree.paths, List.mem_append, List.mem_map] at hc
      rcases hc with ⟨d, -, rfl⟩ | ⟨d, -, rfl⟩ <;> simp
    have key := State.hasCode_iff (s := t) hnd hb
      (by change codeLengths (f.codes s.nsym.toNat) = _; rw [hcodes])
      (by change codeValues (f.codes s.nsym.toNat) = _; rw [hcodes])
    have hrep' : HTree.Rep f.arena t.rootIdx.toNat (.node l r) := by rw [hri]; exact hrep
    refine ⟨⟨?_, ?_, ?_, ?_⟩, hnn, hri, hholds, ?_, ?_⟩
    · rw [hnn, harena]
      rfl
    · intro b
      rw [← hfreq b, ← HTree.map_fst_paths, List.mem_map]
      constructor
      · intro hb
        exact ⟨(b, _), (key b _).1 ⟨hb, rfl⟩, rfl⟩
      · rintro ⟨⟨b', p⟩, hp, rfl⟩
        exact ((key _ p).2 hp).1
    · rw [State.MapsInverse, if_neg (by rw [hd]; simp)]
      intro b p
      rw [key b p, State.leads_iff hholds hrep']
    · intro _
      obtain ⟨nd, h1, h2, -⟩ := hrep'
      rw [hholds _ _ h1]
      exact h2
    · intro b hb
      have := HTree.length_le_depth ((key b _).1 ⟨hb, rfl⟩)
      simp only at this
      omega
    · intro _ b p hp
      have hm := (State.leads_iff hholds hrep' b p).1 hp
      refine ⟨?_, ?_⟩
      · rw [← (codeLengths_spec hnd b).1 p hm, ← hcodes]
        rfl
      · rw [← (codeValues_spec hnd b).1 p hm, ← hcodes]
        rfl

end Sys2Proof.Machine
end

