-- ==== Sys2Proof/Laws/Frequency.lean ====
section
/-! SUPPORT. What ANALYZE's pass leaves (R131, R132, R134). -/

namespace Sys2Proof.Machine

/-- The symbols listed in a tally's ORDER. -/
def Tally.listed (t : Tally) : List Byte := (List.range t.count).map fun i => t.order[i]?.getD Config.absentSym

/-- Distinct symbols are at most 256. -/
theorem length_le_of_nodup {l : List Byte} (h : l.Nodup) : l.length ≤ 256 := by
  have hn : (l.map (BitVec.toFin : Byte → Fin 256)).Nodup := h.map fun a b e => BitVec.eq_of_toFin_eq e
  simpa using hn.length_le_card

/-- What holds of the working copies after the symbols `l` have been counted. -/
structure Tally.Inv (l : List Byte) (t : Tally) : Prop where
  counts : ∀ b : Byte, (tableAt t.freq b).toNat = l.count b
  nodup  : t.listed.Nodup
  mem    : ∀ b : Byte, b ∈ t.listed ↔ b ∈ l
  first  : t.listed.Pairwise fun a b => l.idxOf a < l.idxOf b
  blank  : ∀ i, t.count ≤ i → ∀ h : i < 256, t.order[i] = 0

theorem Tally.empty_inv : Tally.Inv [] Tally.empty := by
  refine ⟨?_, ?_, ?_, ?_, ?_⟩ <;> simp [Tally.empty, Tally.listed]

theorem Tally.add_inv {l : List Byte} {t : Tally} (h : Tally.Inv l t) (hl : l.length + 1 < 2 ^ 32) (x : Byte) :
    Tally.Inv (l ++ [x]) (t.add x) := by
  have hcount : ∀ b : Byte, (tableAt (tableSet t.freq x (tableAt t.freq x + 1)) b).toNat = (l ++ [x]).count b := by
    intro b
    rw [tableAt_tableSet, List.count_append]
    have hb := h.counts b
    have hle : l.count b ≤ l.length := List.count_le_length
    by_cases e : b = x
    · subst e
      rw [if_pos rfl, BitVec.toNat_add, hb, List.count_singleton_self]
      simp only [BitVec.ofNat_eq_ofNat, BitVec.toNat_ofNat]
      rw [Nat.mod_eq_of_lt]
      omega
    · rw [if_neg e, hb]
      simp [Ne.symm e]
  have hzero : tableAt t.freq x = 0 ↔ x ∉ l := by
    rw [← List.count_eq_zero, ← h.counts x]
    constructor
    · intro e; simp [e]
    · intro e; exact BitVec.eq_of_toNat_eq (by simpa using e)
  have len : t.listed.length = t.count := by simp [Tally.listed]
  by_cases hx : tableAt t.freq x = 0
  · have hxl := hzero.1 hx
    have hnl : x ∉ t.listed := fun e => hxl ((h.mem x).1 e)
    have hnd : (t.listed ++ [x]).Nodup := by
      rw [List.nodup_append_comm]
      simp [hnl, h.nodup]
    have hlt : t.count < 256 := by
      have := length_le_of_nodup hnd
      simp [len] at this
      omega
    have hlisted : (t.add x).listed = t.listed ++ [x] := by
      simp only [Tally.add, hx, if_true, Tally.listed, List.range_succ, List.map_append, List.map_cons,
        List.map_nil]
      congr 1
      · apply List.map_congr_left
        intro i hi
        have hi' := List.mem_range.1 hi
        rw [Vector.getElem?_setIfInBounds_ne (by omega)]
      · rw [Vector.getElem?_setIfInBounds_self_of_lt hlt]
        rfl
    refine ⟨?_, ?_, ?_, ?_, ?_⟩
    · intro b
      rw [← hcount b]
      simp [Tally.add, hx]
    · rw [hlisted]; exact hnd
    · intro b
      rw [hlisted, List.mem_append, List.mem_append, h.mem b]
    · rw [hlisted, List.pairwise_append]
      refine ⟨?_, List.pairwise_singleton _ _, ?_⟩
      · apply h.first.imp_of_mem
        intro a b ha hb hab
        rw [List.idxOf_append_of_mem ((h.mem a).1 ha), List.idxOf_append_of_mem ((h.mem b).1 hb)]
        exact hab
      · intro a ha b hb
        obtain rfl := List.mem_singleton.1 hb
        have hal := (h.mem a).1 ha
        rw [List.idxOf_append_of_mem hal, List.idxOf_append_of_notMem hxl]
        have := List.idxOf_lt_length_of_mem hal
        omega
    · intro i hi hlt'
      simp only [Tally.add, hx, if_true] at hi ⊢
      rw [Vector.getElem_setIfInBounds_ne hlt' (by omega)]
      exact h.blank i (by omega) hlt'
  · have hxl : x ∈ l := by
      by_contra e
      exact hx (hzero.2 e)
    have hadd : t.add x = { t with freq := tableSet t.freq x (tableAt t.freq x + 1) } := by
      simp only [Tally.add]
      rw [if_neg hx]
    have hlisted : (t.add x).listed = t.listed := by rw [hadd]; rfl
    refine ⟨?_, ?_, ?_, ?_, ?_⟩
    · intro b
      rw [← hcount b, hadd]
    · rw [hlisted]; exact h.nodup
    · intro b
      rw [hlisted, List.mem_append, h.mem b, List.mem_singleton]
      constructor
      · exact .inl
      · rintro (e | rfl)
        · exact e
        · exact hxl
    · rw [hlisted]
      apply h.first.imp_of_mem
      intro a b ha hb hab
      rw [List.idxOf_append_of_mem ((h.mem a).1 ha), List.idxOf_append_of_mem ((h.mem b).1 hb)]
      exact hab
    · intro i hi hlt'
      rw [hadd] at hi
      simp only [hadd]
      exact h.blank i hi hlt'

/-- Everything ANALYZE's pass leaves, for an input shorter than 2^32 bytes. -/
theorem Tally.scan_inv {l : List Byte} (h : l.length < 2 ^ 32) : Tally.Inv l (Tally.scan l) := by
  induction l using List.reverseRecOn with
  | nil => exact Tally.empty_inv
  | append_singleton l x ih =>
    rw [List.length_append, List.length_singleton] at h
    rw [Tally.scan, List.foldl_append, List.foldl_cons, List.foldl_nil]
    exact Tally.add_inv (ih (by omega)) h x

theorem Tally.count_le {l : List Byte} (h : l.length < 2 ^ 32) :
    (Tally.scan l).count ≤ 256 ∧ (Tally.scan l).count ≤ l.length ∧ (l ≠ [] → 1 ≤ (Tally.scan l).count) := by
  have inv := Tally.scan_inv h
  have len : (Tally.scan l).listed.length = (Tally.scan l).count := by simp [Tally.listed]
  rw [← len]
  refine ⟨length_le_of_nodup inv.nodup, ?_, fun hne => ?_⟩
  · exact (List.subperm_of_subset inv.nodup fun b hb => (inv.mem b).1 hb).length_le
  · obtain ⟨b, hb⟩ := List.exists_mem_of_ne_nil l hne
    exact List.length_pos_of_mem ((inv.mem b).2 hb)

/-- The counts of a table that counts `l` add up to its length (R51, R134). -/
theorem sum_of_counts {f : Vector Word 256} {l : List Byte} (h : ∀ b : Byte, (tableAt f b).toNat = l.count b) :
    (f.toList.map BitVec.toNat).sum = l.length := by
  rw [sum_toList]
  have e : ∀ i : Fin 256, (f[i]).toNat = (l.map (BitVec.toFin : Byte → Fin 256)).count i := by
    intro i
    have := h (BitVec.ofFin i)
    rw [← List.count_map_of_injective l (BitVec.toFin : Byte → Fin 256) (fun a b e => BitVec.eq_of_toFin_eq e)] at this
    exact this
  rw [Finset.sum_congr rfl fun i _ => e i]
  have := Multiset.sum_count_eq_card (s := Finset.univ) (m := ((l.map (BitVec.toFin : Byte → Fin 256) : List (Fin 256)) : Multiset (Fin 256)))
    (fun a _ => Finset.mem_univ a)
  simpa using this

end Sys2Proof.Machine
end

