-- ==== Sys2Proof/Laws/Built.lean ====
section
/-! SUPPORT. What ANALYZE and BUILD leave, said once: the two table invariants after their commits, and that a step
that keeps the tables keeps both. -/

namespace Sys2Proof.Machine

/-! ### Fields the invariants rest on -/

theorem State.symbols_congr {s t : State} (h1 : t.order = s.order) (h2 : t.nsym = s.nsym) : t.symbols = s.symbols := by
  have : t.orderAt = s.orderAt := by
    funext i
    simp [State.orderAt, h1]
  simp [State.symbols, this, h2]

theorem State.leads_congr {s t : State} (h : s.node = t.node) (sym : Byte) (n : NodeIdx) (p : Bits) :
    s.Leads sym n p ↔ t.Leads sym n p := by
  have e : ∀ n, s.nodeAt n = t.nodeAt n := fun n => by simp [State.nodeAt, h]
  induction p generalizing n with
  | nil => simp [State.Leads, e]
  | cons b r ih => simp [State.Leads, e, ih]

theorem State.TableInv.congr {s t : State} (h : s.TableInv) (h1 : t.freq = s.freq) (h2 : t.order = s.order)
    (h3 : t.nsym = s.nsym) (h4 : t.total = s.total) : t.TableInv := by
  have e := State.symbols_congr h2 h3
  refine ⟨by rw [h3]; exact h.nsym_pos, by rw [h3]; exact h.nsym_le, ?_, by rw [h4]; exact h.total_pos,
    by rw [e]; exact h.distinct, ?_⟩
  · rw [h4, h.total_eq]
    simp [State.freqSum, h1]
  · intro b
    rw [e, h1]
    exact h.listed b

theorem State.TreeInv.congr {s t : State} (h : s.TreeInv) (h1 : t.nnodes = s.nnodes) (h2 : t.nsym = s.nsym)
    (h3 : t.clen = s.clen) (h4 : t.cbits = s.cbits) (h5 : t.freq = s.freq) (h6 : t.node = s.node)
    (h7 : t.rootIdx = s.rootIdx) (h8 : t.status.degen = s.status.degen) : t.TreeInv := by
  have hc : ∀ b, t.HasCode b ↔ s.HasCode b := fun b => by simp [State.HasCode, h3]
  have hf : ∀ b, t.codeFor b = s.codeFor b := fun b => by simp [State.codeFor, h3, h4]
  have e : ∀ n, t.nodeAt n = s.nodeAt n := fun n => by simp [State.nodeAt, h6]
  refine ⟨by rw [h1, h2]; exact h.nnodes_eq, fun b => by rw [hc, h5]; exact h.coded b, ?_, ?_⟩
  · have := h.inverse
    simp only [State.MapsInverse, h8, hc, hf, e, h7, State.leads_congr h6] at this ⊢
    exact this
  · rw [h8, e, h7]
    exact h.root_inner

/-! ### ANALYZE -/

@[simp] theorem State.length_inputBytes (s : State) : s.inputBytes.length = s.inLen.toNat := by
  simp [State.inputBytes]

theorem analyze_ok {s : State} (h1 : 1 ≤ s.inLen.toNat) (h2 : s.inLen.toNat ≤ s.sizes.ibufBytes) :
    analyze s = .ok (s.commitTally (Tally.scan s.inputBytes)) := by
  rw [analyze, if_neg (by omega), if_neg]
  intro e
  rw [e] at h1
  simp at h1

/-- ORDER[0 .. NSYM-1] after ANALYZE's commit is what the pass listed. -/
theorem State.symbols_commitTally {s : State} (h : s.inputBytes.length < 2 ^ 32) :
    (s.commitTally (Tally.scan s.inputBytes)).symbols = (Tally.scan s.inputBytes).listed := by
  have := (Tally.count_le h).1
  have e : (s.commitTally (Tally.scan s.inputBytes)).nsym.toNat = (Tally.scan s.inputBytes).count := by
    show (BitVec.ofNat 9 (Tally.scan s.inputBytes).count).toNat = _
    rw [BitVec.toNat_ofNat]
    omega
  rw [State.symbols, e, Tally.listed]
  rfl

/-- The table that ANALYZE commits has the invariant of a frequency table (R69 (c), R134). -/
theorem State.tableInv_commitTally {s : State} (h1 : 1 ≤ s.inLen.toNat) :
    (s.commitTally (Tally.scan s.inputBytes)).TableInv := by
  have hl : s.inputBytes.length < 2 ^ 32 := by
    rw [State.length_inputBytes]
    exact s.inLen.isLt
  have inv := Tally.scan_inv hl
  obtain ⟨c1, -, c3⟩ := Tally.count_le hl
  have c4 := c3 (by
    intro e
    have := congrArg List.length e
    rw [State.length_inputBytes] at this
    simp at this
    omega)
  have hn : (BitVec.ofNat 9 (Tally.scan s.inputBytes).count).toNat = (Tally.scan s.inputBytes).count := by
    rw [BitVec.toNat_ofNat]
    omega
  have hs := State.symbols_commitTally hl
  refine ⟨?_, ?_, ?_, h1, by rw [hs]; exact inv.nodup, ?_⟩
  · show 1 ≤ (BitVec.ofNat 9 _).toNat
    rw [hn]
    exact c4
  · show (BitVec.ofNat 9 _).toNat ≤ 256
    rw [hn]
    exact c1
  · exact ((sum_of_counts inv.counts).trans s.length_inputBytes).symm
  · intro b
    rw [hs, inv.mem b]
    show _ ↔ tableAt (Tally.scan s.inputBytes).freq b ≠ 0
    rw [← List.count_pos_iff, ← inv.counts b]
    constructor
    · intro h e
      rw [e] at h
      simp at h
    · intro h
      rcases Nat.eq_zero_or_pos (tableAt (Tally.scan s.inputBytes).freq b).toNat with e | e
      · exact absurd (BitVec.eq_of_toNat_eq (by simpa using e)) h
      · exact e

/-! ### BUILD -/

/-- Everything the finished tree of BUILD is, seen from the state `s` it started from. -/
structure State.Built (s : State) (f : Forest) (t : State) : Prop where
  tree   : t.TreeInv
  holds  : t.Holds f.arena
  nodes  : t.nnodes.toNat = 2 * s.nsym.toNat - 1
  root   : t.rootIdx.toNat = 2 * s.nsym.toNat - 2
  size   : f.arena.length = 2 * s.nsym.toNat - 1
  codes  : ∀ b, t.HasCode b → (t.codeFor b).length ≤ max 1 (s.nsym.toNat - 1)
  rep    : ∃ T : HTree, HTree.Rep f.arena t.rootIdx.toNat T ∧ T.syms.Perm s.symbols ∧ T.depth < s.nsym.toNat
  leaf   : ∀ i, i < s.nsym.toNat → f.arena[i]? = some (leafNode s.freq (s.orderAt i))
  inner  : ∀ i, s.nsym.toNat ≤ i → ∀ nd, f.arena[i]? = some nd →
             nd.leaf = false ∧ nd.sym = 0 ∧ nd.left.toNat < i ∧ nd.right.toNat < i ∧
             ∀ l r, f.arena[nd.left.toNat]? = some l → f.arena[nd.right.toNat]? = some r →
               nd.w.toNat = l.w.toNat + r.w.toNat
  choice : Forest.Choice s.nsym.toNat f
  last   : ∀ j, LiveIn f.arena s.nsym.toNat f.arena.length j ↔ j = t.rootIdx.toNat
  values : t.status.degen = false → ∀ b p, t.Leads b t.rootIdx p →
             tableAt t.clen b = BitVec.ofNat 8 p.length ∧ tableAt t.cbits b = BitVec.ofNat 255 (natOfBits p)

theorem State.TableInv.built {s : State} (h : s.TableInv) :
    s.Built (Forest.build s.freq s.symbols) (s.commitTree (Forest.build s.freq s.symbols)) := by
  obtain ⟨a1, a2, a3, a4, a5, a6⟩ := h.commitTree
  have hlen := s.length_symbols
  have hne : s.symbols ≠ [] := by
    intro e
    rw [e] at hlen
    have := h.nsym_pos
    simp at hlen
    omega
  have hm := h.nsym_le
  obtain ⟨harena, hroot, ⟨T, hrep, hperm, hdepth⟩, hleaf, hinner, hch, hlast⟩ :=
    Forest.build_spec (freq := s.freq) hne (by omega) h.symbols_sum
  rw [hlen] at harena hroot hdepth hinner hch hlast
  refine ⟨a1, a4, a2.trans harena, a3.trans hroot, harena, a5, ⟨T, ?_, hperm, hdepth⟩, ?_, hinner, hch, ?_, a6⟩
  · rw [a3]
    exact hrep
  · intro i hi
    rw [hleaf i (by omega)]
    simp [State.symbols]
  · rw [a3]
    exact hlast

/-! ### The invariant through the two commits -/

theorem State.Inv.analyzed {s : State} (h : s.Inv) (h1 : 1 ≤ s.inLen.toNat) :
    ((s.commitTally (Tally.scan s.inputBytes)).finish .none 0).Inv := by
  refine ⟨h.sizes_valid, h.mem_wf, h.mem_mapped, h.draws_past, fun hb => by simp [State.finish] at hb, h.pad_le,
    fun _ => rfl, by simp [State.finish, State.commitTally], fun _ => ?_,
    fun hh => by simp [State.finish, State.commitTally] at hh⟩
  exact (State.tableInv_commitTally h1).congr rfl rfl rfl rfl

theorem State.Inv.built {s : State} (h : s.Inv) (hv : s.status.freqValid = true) :
    ((s.commitTree (Forest.build s.freq s.symbols)).finish .none 0).Inv := by
  refine ⟨h.sizes_valid, h.mem_wf, h.mem_mapped, h.draws_past, fun hb => by simp [State.finish] at hb, h.pad_le,
    fun _ => hv, ?_, fun _ => (h.table hv).congr rfl rfl rfl rfl,
    fun _ => (h.table hv).built.tree.congr rfl rfl rfl rfl rfl rfl rfl rfl⟩
  simp only [State.finish, State.commitTree, decide_eq_true_eq, true_and]
  exact ⟨fun e => by rw [e]; rfl, fun e => BitVec.eq_of_toNat_eq e⟩

end Sys2Proof.Machine
end

