-- ==== Sys2Proof/Laws/Memory.lean ====
section
/-! SUPPORT. Buffer memory: what a read gives after a write, a run of writes or a redraw, and that every operation
keeps the canonical form. -/

namespace Sys2Proof.Machine

namespace Memory

theorem lookup_insert (m : Memory) (a : Nat) (v : Byte) (b : Nat) :
    (Memory.insert m a v).lookup b = if b = a then some v else m.lookup b := by
  induction m with
  | nil => simp [Memory.insert, Memory.lookup, eq_comm]
  | cons c rest ih =>
    obtain ⟨k, w⟩ := c
    simp only [Memory.insert]
    split_ifs with h1 h2 h3 h3 <;> simp [Memory.lookup, ih] <;> grind

theorem mem_insert {m : Memory} {a : Nat} {v : Byte} {c : Host.Cell} (h : c ∈ Memory.insert m a v) :
    c = (a, v) ∨ c ∈ m := by
  induction m with
  | nil => simpa [Memory.insert] using h
  | cons d rest ih =>
    obtain ⟨k, w⟩ := d
    simp only [Memory.insert] at h
    split_ifs at h <;> grind

theorem wf_insert {m : Memory} (h : m.wf) (a : Nat) (v : Byte) : (Memory.insert m a v).wf := by
  induction m with
  | nil => simp [Memory.insert, Memory.wf]
  | cons d rest ih =>
    obtain ⟨k, w⟩ := d
    simp only [Memory.wf, List.pairwise_cons] at h ih
    simp only [Memory.insert]
    split_ifs with h1 h2
    · simp only [Memory.wf, List.pairwise_cons]
      grind
    · simp only [Memory.wf, List.pairwise_cons]
      grind
    · simp only [Memory.wf, List.pairwise_cons]
      refine ⟨fun c hc => ?_, ih h.2⟩
      rcases mem_insert hc with rfl | hc
      · show k < a
        omega
      · exact h.1 c hc

theorem wf_forget {m : Memory} (h : m.wf) (lo hi : Nat) : (Memory.forget m lo hi).wf :=
  List.Pairwise.filter _ h

theorem lookup_forget (m : Memory) (lo hi a : Nat) :
    (Memory.forget m lo hi).lookup a = if lo ≤ a ∧ a < hi then none else m.lookup a := by
  induction m with
  | nil => simp [Memory.forget, Memory.lookup]
  | cons c rest ih =>
    obtain ⟨k, w⟩ := c
    simp only [Memory.forget, List.filter_cons] at ih ⊢
    split_ifs <;> grind [Memory.lookup]

/-- Canonical memories that agree at every address are equal. -/
theorem ext_of_lookup {m n : Memory} (hm : m.wf) (hn : n.wf) (h : ∀ a, m.lookup a = n.lookup a) : m = n := by
  have lookup_none : ∀ (l : Memory) (k : Nat), (∀ c ∈ l, k < c.1) → l.lookup k = none := by
    intro l k hl
    induction l with
    | nil => rfl
    | cons c rest ih =>
      have := hl c (by simp)
      simp only [Memory.lookup]
      rw [if_neg (by omega)]
      exact ih fun d hd => hl d (by simp [hd])
  induction m generalizing n with
  | nil =>
    cases n with
    | nil => rfl
    | cons d _ => simpa [Memory.lookup] using h d.1
  | cons c rest ih =>
    cases n with
    | nil => simpa [Memory.lookup] using h c.1
    | cons d rest' =>
      obtain ⟨k, v⟩ := c
      obtain ⟨l, w⟩ := d
      simp only [Memory.wf, List.pairwise_cons] at hm hn ih
      have hk := h k
      have hl := h l
      have key : k = l := by
        rcases Nat.lt_trichotomy k l with hlt | heq | hgt
        · have := lookup_none rest' k fun c hc => lt_trans hlt (hn.1 c hc)
          simp [Memory.lookup, this, Nat.ne_of_gt hlt] at hk
        · exact heq
        · have := lookup_none rest l fun c hc => lt_trans hgt (hm.1 c hc)
          simp [Memory.lookup, this, Nat.ne_of_gt hgt] at hl
      subst key
      have hv : v = w := by simpa [Memory.lookup] using hk
      subst hv
      have : rest = rest' := ih hm.2 hn.2 fun a => by
        by_cases hak : k = a
        · subst hak
          rw [lookup_none rest k hm.1, lookup_none rest' k hn.1]
        · simpa [Memory.lookup, hak] using h a
      rw [this]

end Memory

/-! ### Reads through the state -/

theorem State.readByte_writeByte (s : State) (a : Nat) (v : Byte) (b : Nat) :
    (s.writeByte a v).readByte b = if b = a then v else s.readByte b := by
  simp only [State.readByte, State.writeByte, Memory.lookup_insert]
  split_ifs <;> rfl

/-- Everything a run of writes does: the bytes stand at their addresses, other bytes and other fields stay. -/
theorem State.readByte_writeBytes (s : State) (a : Nat) (l : List Byte) (b : Nat) :
    (s.writeBytes a l).readByte b = if a ≤ b then l[b - a]?.getD (s.readByte b) else s.readByte b := by
  induction l generalizing s a with
  | nil => simp [State.writeBytes]
  | cons v rest ih =>
    simp only [State.writeBytes, ih, State.readByte_writeByte]
    rcases Nat.lt_trichotomy b a with h | h | h
    · have h1 : ¬ a ≤ b := by omega
      have h2 : ¬ a + 1 ≤ b := by omega
      have h3 : b ≠ a := by omega
      simp [h1, h2, h3]
    · subst h
      simp
    · obtain ⟨d, rfl⟩ : ∃ d, b = a + 1 + d := ⟨b - a - 1, by omega⟩
      have h3 : a + 1 + d - a = d + 1 := by omega
      have h4 : a + 1 + d ≠ a := by omega
      have h5 : a ≤ a + 1 + d := by omega
      simp [h3, h4, h5]

theorem State.writeBytes_eq (s : State) (a : Nat) (l : List Byte) :
    s.writeBytes a l = { s with mem := (s.writeBytes a l).mem } := by
  induction l generalizing s a with
  | nil => rfl
  | cons v rest ih =>
    rw [State.writeBytes, ih]
    rfl

theorem State.wf_reset : State.reset.mem.wf := List.Pairwise.nil

theorem State.wf_writeBytes {s : State} (h : s.mem.wf) (a : Nat) (l : List Byte) : (s.writeBytes a l).mem.wf := by
  induction l generalizing s a with
  | nil => exact h
  | cons v rest ih => exact ih (Memory.wf_insert h a v) _

theorem State.mem_writeBytes {s : State} {a : Nat} {l : List Byte} {c : Host.Cell}
    (h : c ∈ (s.writeBytes a l).mem) : (a ≤ c.1 ∧ c.1 < a + l.length) ∨ c ∈ s.mem := by
  induction l generalizing s a with
  | nil => exact .inr h
  | cons v rest ih =>
    rcases ih h with h | h
    · exact .inl ⟨by omega, by simp only [List.length_cons]; omega⟩
    · rcases Memory.mem_insert h with rfl | h
      · exact .inl ⟨le_rfl, by simp⟩
      · exact .inr h

/-- Everything a redraw of OBUF does to the buffers (R247). -/
theorem State.readByte_redrawObuf (s : State) (a : Nat) :
    s.redrawObuf.readByte a = if s.InObuf a then Config.freeByte s.draws a else s.readByte a := by
  have hl : s.redrawObuf.mem.lookup a = if s.InObuf a then none else s.mem.lookup a :=
    Memory.lookup_forget _ _ _ _
  by_cases h : s.InObuf a
  · have h' : s.redrawObuf.InObuf a := h
    rw [State.readByte, State.drawOf, hl, if_pos h, if_pos h', if_pos h]
    rfl
  · have h' : ¬ s.redrawObuf.InObuf a := h
    rw [State.readByte, State.drawOf, hl, if_neg h, if_neg h', if_neg h, State.readByte, State.drawOf, if_neg h]
    rfl

theorem State.readByte_writeWord (s : State) (a : Nat) (v : Word) (b : Nat) :
    (s.writeWord a v).readByte b =
      if b = a then v.extractLsb' 0 8 else if b = a + 1 then v.extractLsb' 8 8
      else if b = a + 2 then v.extractLsb' 16 8 else if b = a + 3 then v.extractLsb' 24 8
      else s.readByte b := by
  simp only [State.writeWord, State.readByte_writeBytes, bytesOfWord]
  by_cases h : a ≤ b
  · obtain ⟨d, rfl⟩ : ∃ d, b = a + d := ⟨b - a, by omega⟩
    rcases d with _ | _ | _ | _ | d
    · simp
    · simp
    · simp
    · simp
    · simp
  · have : b ≠ a ∧ b ≠ a + 1 ∧ b ≠ a + 2 ∧ b ≠ a + 3 := by omega
    simp [h, this]

theorem State.writeWord_eq (s : State) (a : Nat) (v : Word) :
    s.writeWord a v = { s with mem := (s.writeWord a v).mem } := s.writeBytes_eq a _

end Sys2Proof.Machine
end

