-- ==== Sys2Proof/Laws/State.lean ====
section
/-! SUPPORT. One lemma per field per update: what each named operation leaves in each field of State. -/

namespace Sys2Proof.Machine

variable (s : State)

/-! ### writeByte -/

@[simp] theorem State.writeByte_ctrl (a : Nat) (v : Byte) : (s.writeByte a v).ctrl = s.ctrl := rfl
@[simp] theorem State.writeByte_status (a : Nat) (v : Byte) : (s.writeByte a v).status = s.status := rfl
@[simp] theorem State.writeByte_errCode (a : Nat) (v : Byte) : (s.writeByte a v).errCode = s.errCode := rfl
@[simp] theorem State.writeByte_errInfo (a : Nat) (v : Byte) : (s.writeByte a v).errInfo = s.errInfo := rfl
@[simp] theorem State.writeByte_inLen (a : Nat) (v : Byte) : (s.writeByte a v).inLen = s.inLen := rfl
@[simp] theorem State.writeByte_outLen (a : Nat) (v : Byte) : (s.writeByte a v).outLen = s.outLen := rfl
@[simp] theorem State.writeByte_bitLen (a : Nat) (v : Byte) : (s.writeByte a v).bitLen = s.bitLen := rfl
@[simp] theorem State.writeByte_pad (a : Nat) (v : Byte) : (s.writeByte a v).pad = s.pad := rfl
@[simp] theorem State.writeByte_nsym (a : Nat) (v : Byte) : (s.writeByte a v).nsym = s.nsym := rfl
@[simp] theorem State.writeByte_total (a : Nat) (v : Byte) : (s.writeByte a v).total = s.total := rfl
@[simp] theorem State.writeByte_rootIdx (a : Nat) (v : Byte) : (s.writeByte a v).rootIdx = s.rootIdx := rfl
@[simp] theorem State.writeByte_nnodes (a : Nat) (v : Byte) : (s.writeByte a v).nnodes = s.nnodes := rfl
@[simp] theorem State.writeByte_sel (a : Nat) (v : Byte) : (s.writeByte a v).sel = s.sel := rfl
@[simp] theorem State.writeByte_freq (a : Nat) (v : Byte) : (s.writeByte a v).freq = s.freq := rfl
@[simp] theorem State.writeByte_order (a : Nat) (v : Byte) : (s.writeByte a v).order = s.order := rfl
@[simp] theorem State.writeByte_node (a : Nat) (v : Byte) : (s.writeByte a v).node = s.node := rfl
@[simp] theorem State.writeByte_clen (a : Nat) (v : Byte) : (s.writeByte a v).clen = s.clen := rfl
@[simp] theorem State.writeByte_cbits (a : Nat) (v : Byte) : (s.writeByte a v).cbits = s.cbits := rfl
@[simp] theorem State.writeByte_pending (a : Nat) (v : Byte) : (s.writeByte a v).pending = s.pending := rfl
@[simp] theorem State.writeByte_mem (a : Nat) (v : Byte) : (s.writeByte a v).mem = s.mem.insert a v := rfl
@[simp] theorem State.writeByte_sizes (a : Nat) (v : Byte) : (s.writeByte a v).sizes = s.sizes := rfl
@[simp] theorem State.writeByte_ibufDraw (a : Nat) (v : Byte) : (s.writeByte a v).ibufDraw = s.ibufDraw := rfl
@[simp] theorem State.writeByte_obufDraw (a : Nat) (v : Byte) : (s.writeByte a v).obufDraw = s.obufDraw := rfl
@[simp] theorem State.writeByte_draws (a : Nat) (v : Byte) : (s.writeByte a v).draws = s.draws := rfl
@[simp] theorem State.writeByte_rdata (a : Nat) (v : Byte) : (s.writeByte a v).rdata = s.rdata := rfl
@[simp] theorem State.writeByte_schedule (a : Nat) (v : Byte) : (s.writeByte a v).schedule = s.schedule := rfl

/-! ### redrawObuf -/

@[simp] theorem State.redrawObuf_ctrl : s.redrawObuf.ctrl = s.ctrl := rfl
@[simp] theorem State.redrawObuf_status : s.redrawObuf.status = s.status := rfl
@[simp] theorem State.redrawObuf_errCode : s.redrawObuf.errCode = s.errCode := rfl
@[simp] theorem State.redrawObuf_errInfo : s.redrawObuf.errInfo = s.errInfo := rfl
@[simp] theorem State.redrawObuf_inLen : s.redrawObuf.inLen = s.inLen := rfl
@[simp] theorem State.redrawObuf_outLen : s.redrawObuf.outLen = s.outLen := rfl
@[simp] theorem State.redrawObuf_bitLen : s.redrawObuf.bitLen = s.bitLen := rfl
@[simp] theorem State.redrawObuf_pad : s.redrawObuf.pad = s.pad := rfl
@[simp] theorem State.redrawObuf_nsym : s.redrawObuf.nsym = s.nsym := rfl
@[simp] theorem State.redrawObuf_total : s.redrawObuf.total = s.total := rfl
@[simp] theorem State.redrawObuf_rootIdx : s.redrawObuf.rootIdx = s.rootIdx := rfl
@[simp] theorem State.redrawObuf_nnodes : s.redrawObuf.nnodes = s.nnodes := rfl
@[simp] theorem State.redrawObuf_sel : s.redrawObuf.sel = s.sel := rfl
@[simp] theorem State.redrawObuf_freq : s.redrawObuf.freq = s.freq := rfl
@[simp] theorem State.redrawObuf_order : s.redrawObuf.order = s.order := rfl
@[simp] theorem State.redrawObuf_node : s.redrawObuf.node = s.node := rfl
@[simp] theorem State.redrawObuf_clen : s.redrawObuf.clen = s.clen := rfl
@[simp] theorem State.redrawObuf_cbits : s.redrawObuf.cbits = s.cbits := rfl
@[simp] theorem State.redrawObuf_pending : s.redrawObuf.pending = s.pending := rfl
@[simp] theorem State.redrawObuf_mem : s.redrawObuf.mem = s.mem.forget Config.obufBase (Config.obufBase + s.sizes.obufBytes) := rfl
@[simp] theorem State.redrawObuf_sizes : s.redrawObuf.sizes = s.sizes := rfl
@[simp] theorem State.redrawObuf_ibufDraw : s.redrawObuf.ibufDraw = s.ibufDraw := rfl
@[simp] theorem State.redrawObuf_obufDraw : s.redrawObuf.obufDraw = s.draws := rfl
@[simp] theorem State.redrawObuf_draws : s.redrawObuf.draws = s.draws + 1 := rfl
@[simp] theorem State.redrawObuf_rdata : s.redrawObuf.rdata = s.rdata := rfl
@[simp] theorem State.redrawObuf_schedule : s.redrawObuf.schedule = s.schedule := rfl

/-! ### returning -/

@[simp] theorem State.returning_ctrl (v : Word) : (s.returning v).ctrl = s.ctrl := rfl
@[simp] theorem State.returning_status (v : Word) : (s.returning v).status = s.status := rfl
@[simp] theorem State.returning_errCode (v : Word) : (s.returning v).errCode = s.errCode := rfl
@[simp] theorem State.returning_errInfo (v : Word) : (s.returning v).errInfo = s.errInfo := rfl
@[simp] theorem State.returning_inLen (v : Word) : (s.returning v).inLen = s.inLen := rfl
@[simp] theorem State.returning_outLen (v : Word) : (s.returning v).outLen = s.outLen := rfl
@[simp] theorem State.returning_bitLen (v : Word) : (s.returning v).bitLen = s.bitLen := rfl
@[simp] theorem State.returning_pad (v : Word) : (s.returning v).pad = s.pad := rfl
@[simp] theorem State.returning_nsym (v : Word) : (s.returning v).nsym = s.nsym := rfl
@[simp] theorem State.returning_total (v : Word) : (s.returning v).total = s.total := rfl
@[simp] theorem State.returning_rootIdx (v : Word) : (s.returning v).rootIdx = s.rootIdx := rfl
@[simp] theorem State.returning_nnodes (v : Word) : (s.returning v).nnodes = s.nnodes := rfl
@[simp] theorem State.returning_sel (v : Word) : (s.returning v).sel = s.sel := rfl
@[simp] theorem State.returning_freq (v : Word) : (s.returning v).freq = s.freq := rfl
@[simp] theorem State.returning_order (v : Word) : (s.returning v).order = s.order := rfl
@[simp] theorem State.returning_node (v : Word) : (s.returning v).node = s.node := rfl
@[simp] theorem State.returning_clen (v : Word) : (s.returning v).clen = s.clen := rfl
@[simp] theorem State.returning_cbits (v : Word) : (s.returning v).cbits = s.cbits := rfl
@[simp] theorem State.returning_pending (v : Word) : (s.returning v).pending = s.pending := rfl
@[simp] theorem State.returning_mem (v : Word) : (s.returning v).mem = s.mem := rfl
@[simp] theorem State.returning_sizes (v : Word) : (s.returning v).sizes = s.sizes := rfl
@[simp] theorem State.returning_ibufDraw (v : Word) : (s.returning v).ibufDraw = s.ibufDraw := rfl
@[simp] theorem State.returning_obufDraw (v : Word) : (s.returning v).obufDraw = s.obufDraw := rfl
@[simp] theorem State.returning_draws (v : Word) : (s.returning v).draws = s.draws := rfl
@[simp] theorem State.returning_rdata (v : Word) : (s.returning v).rdata = some v := rfl
@[simp] theorem State.returning_schedule (v : Word) : (s.returning v).schedule = s.schedule := rfl

/-! ### nextDraw -/

@[simp] theorem State.nextDraw_ctrl : s.nextDraw.ctrl = s.ctrl := rfl
@[simp] theorem State.nextDraw_status : s.nextDraw.status = s.status := rfl
@[simp] theorem State.nextDraw_errCode : s.nextDraw.errCode = s.errCode := rfl
@[simp] theorem State.nextDraw_errInfo : s.nextDraw.errInfo = s.errInfo := rfl
@[simp] theorem State.nextDraw_inLen : s.nextDraw.inLen = s.inLen := rfl
@[simp] theorem State.nextDraw_outLen : s.nextDraw.outLen = s.outLen := rfl
@[simp] theorem State.nextDraw_bitLen : s.nextDraw.bitLen = s.bitLen := rfl
@[simp] theorem State.nextDraw_pad : s.nextDraw.pad = s.pad := rfl
@[simp] theorem State.nextDraw_nsym : s.nextDraw.nsym = s.nsym := rfl
@[simp] theorem State.nextDraw_total : s.nextDraw.total = s.total := rfl
@[simp] theorem State.nextDraw_rootIdx : s.nextDraw.rootIdx = s.rootIdx := rfl
@[simp] theorem State.nextDraw_nnodes : s.nextDraw.nnodes = s.nnodes := rfl
@[simp] theorem State.nextDraw_sel : s.nextDraw.sel = s.sel := rfl
@[simp] theorem State.nextDraw_freq : s.nextDraw.freq = s.freq := rfl
@[simp] theorem State.nextDraw_order : s.nextDraw.order = s.order := rfl
@[simp] theorem State.nextDraw_node : s.nextDraw.node = s.node := rfl
@[simp] theorem State.nextDraw_clen : s.nextDraw.clen = s.clen := rfl
@[simp] theorem State.nextDraw_cbits : s.nextDraw.cbits = s.cbits := rfl
@[simp] theorem State.nextDraw_pending : s.nextDraw.pending = s.pending := rfl
@[simp] theorem State.nextDraw_mem : s.nextDraw.mem = s.mem := rfl
@[simp] theorem State.nextDraw_sizes : s.nextDraw.sizes = s.sizes := rfl
@[simp] theorem State.nextDraw_ibufDraw : s.nextDraw.ibufDraw = s.ibufDraw := rfl
@[simp] theorem State.nextDraw_obufDraw : s.nextDraw.obufDraw = s.obufDraw := rfl
@[simp] theorem State.nextDraw_draws : s.nextDraw.draws = s.draws + 1 := rfl
@[simp] theorem State.nextDraw_rdata : s.nextDraw.rdata = s.rdata := rfl
@[simp] theorem State.nextDraw_schedule : s.nextDraw.schedule = s.schedule := rfl

/-! ### setBusErr -/

@[simp] theorem State.setBusErr_ctrl : s.setBusErr.ctrl = s.ctrl := rfl
@[simp] theorem State.setBusErr_status : s.setBusErr.status = { s.status with busErr := true } := rfl
@[simp] theorem State.setBusErr_errCode : s.setBusErr.errCode = s.errCode := rfl
@[simp] theorem State.setBusErr_errInfo : s.setBusErr.errInfo = s.errInfo := rfl
@[simp] theorem State.setBusErr_inLen : s.setBusErr.inLen = s.inLen := rfl
@[simp] theorem State.setBusErr_outLen : s.setBusErr.outLen = s.outLen := rfl
@[simp] theorem State.setBusErr_bitLen : s.setBusErr.bitLen = s.bitLen := rfl
@[simp] theorem State.setBusErr_pad : s.setBusErr.pad = s.pad := rfl
@[simp] theorem State.setBusErr_nsym : s.setBusErr.nsym = s.nsym := rfl
@[simp] theorem State.setBusErr_total : s.setBusErr.total = s.total := rfl
@[simp] theorem State.setBusErr_rootIdx : s.setBusErr.rootIdx = s.rootIdx := rfl
@[simp] theorem State.setBusErr_nnodes : s.setBusErr.nnodes = s.nnodes := rfl
@[simp] theorem State.setBusErr_sel : s.setBusErr.sel = s.sel := rfl
@[simp] theorem State.setBusErr_freq : s.setBusErr.freq = s.freq := rfl
@[simp] theorem State.setBusErr_order : s.setBusErr.order = s.order := rfl
@[simp] theorem State.setBusErr_node : s.setBusErr.node = s.node := rfl
@[simp] theorem State.setBusErr_clen : s.setBusErr.clen = s.clen := rfl
@[simp] theorem State.setBusErr_cbits : s.setBusErr.cbits = s.cbits := rfl
@[simp] theorem State.setBusErr_pending : s.setBusErr.pending = s.pending := rfl
@[simp] theorem State.setBusErr_mem : s.setBusErr.mem = s.mem := rfl
@[simp] theorem State.setBusErr_sizes : s.setBusErr.sizes = s.sizes := rfl
@[simp] theorem State.setBusErr_ibufDraw : s.setBusErr.ibufDraw = s.ibufDraw := rfl
@[simp] theorem State.setBusErr_obufDraw : s.setBusErr.obufDraw = s.obufDraw := rfl
@[simp] theorem State.setBusErr_draws : s.setBusErr.draws = s.draws := rfl
@[simp] theorem State.setBusErr_rdata : s.setBusErr.rdata = s.rdata := rfl
@[simp] theorem State.setBusErr_schedule : s.setBusErr.schedule = s.schedule := rfl

/-! ### setWrBlocked -/

@[simp] theorem State.setWrBlocked_ctrl : s.setWrBlocked.ctrl = s.ctrl := rfl
@[simp] theorem State.setWrBlocked_status : s.setWrBlocked.status = { s.status with wrBlocked := true } := rfl
@[simp] theorem State.setWrBlocked_errCode : s.setWrBlocked.errCode = s.errCode := rfl
@[simp] theorem State.setWrBlocked_errInfo : s.setWrBlocked.errInfo = s.errInfo := rfl
@[simp] theorem State.setWrBlocked_inLen : s.setWrBlocked.inLen = s.inLen := rfl
@[simp] theorem State.setWrBlocked_outLen : s.setWrBlocked.outLen = s.outLen := rfl
@[simp] theorem State.setWrBlocked_bitLen : s.setWrBlocked.bitLen = s.bitLen := rfl
@[simp] theorem State.setWrBlocked_pad : s.setWrBlocked.pad = s.pad := rfl
@[simp] theorem State.setWrBlocked_nsym : s.setWrBlocked.nsym = s.nsym := rfl
@[simp] theorem State.setWrBlocked_total : s.setWrBlocked.total = s.total := rfl
@[simp] theorem State.setWrBlocked_rootIdx : s.setWrBlocked.rootIdx = s.rootIdx := rfl
@[simp] theorem State.setWrBlocked_nnodes : s.setWrBlocked.nnodes = s.nnodes := rfl
@[simp] theorem State.setWrBlocked_sel : s.setWrBlocked.sel = s.sel := rfl
@[simp] theorem State.setWrBlocked_freq : s.setWrBlocked.freq = s.freq := rfl
@[simp] theorem State.setWrBlocked_order : s.setWrBlocked.order = s.order := rfl
@[simp] theorem State.setWrBlocked_node : s.setWrBlocked.node = s.node := rfl
@[simp] theorem State.setWrBlocked_clen : s.setWrBlocked.clen = s.clen := rfl
@[simp] theorem State.setWrBlocked_cbits : s.setWrBlocked.cbits = s.cbits := rfl
@[simp] theorem State.setWrBlocked_pending : s.setWrBlocked.pending = s.pending := rfl
@[simp] theorem State.setWrBlocked_mem : s.setWrBlocked.mem = s.mem := rfl
@[simp] theorem State.setWrBlocked_sizes : s.setWrBlocked.sizes = s.sizes := rfl
@[simp] theorem State.setWrBlocked_ibufDraw : s.setWrBlocked.ibufDraw = s.ibufDraw := rfl
@[simp] theorem State.setWrBlocked_obufDraw : s.setWrBlocked.obufDraw = s.obufDraw := rfl
@[simp] theorem State.setWrBlocked_draws : s.setWrBlocked.draws = s.draws := rfl
@[simp] theorem State.setWrBlocked_rdata : s.setWrBlocked.rdata = s.rdata := rfl
@[simp] theorem State.setWrBlocked_schedule : s.setWrBlocked.schedule = s.schedule := rfl

/-! ### issue -/

@[simp] theorem State.issue_ctrl (v : Word) : (s.issue v).ctrl = s.ctrl := rfl
@[simp] theorem State.issue_status (v : Word) : (s.issue v).status = { s.status with busy := true, done := false, err := false } := rfl
@[simp] theorem State.issue_errCode (v : Word) : (s.issue v).errCode = s.errCode := rfl
@[simp] theorem State.issue_errInfo (v : Word) : (s.issue v).errInfo = s.errInfo := rfl
@[simp] theorem State.issue_inLen (v : Word) : (s.issue v).inLen = s.inLen := rfl
@[simp] theorem State.issue_outLen (v : Word) : (s.issue v).outLen = s.outLen := rfl
@[simp] theorem State.issue_bitLen (v : Word) : (s.issue v).bitLen = s.bitLen := rfl
@[simp] theorem State.issue_pad (v : Word) : (s.issue v).pad = s.pad := rfl
@[simp] theorem State.issue_nsym (v : Word) : (s.issue v).nsym = s.nsym := rfl
@[simp] theorem State.issue_total (v : Word) : (s.issue v).total = s.total := rfl
@[simp] theorem State.issue_rootIdx (v : Word) : (s.issue v).rootIdx = s.rootIdx := rfl
@[simp] theorem State.issue_nnodes (v : Word) : (s.issue v).nnodes = s.nnodes := rfl
@[simp] theorem State.issue_sel (v : Word) : (s.issue v).sel = s.sel := rfl
@[simp] theorem State.issue_freq (v : Word) : (s.issue v).freq = s.freq := rfl
@[simp] theorem State.issue_order (v : Word) : (s.issue v).order = s.order := rfl
@[simp] theorem State.issue_node (v : Word) : (s.issue v).node = s.node := rfl
@[simp] theorem State.issue_clen (v : Word) : (s.issue v).clen = s.clen := rfl
@[simp] theorem State.issue_cbits (v : Word) : (s.issue v).cbits = s.cbits := rfl
@[simp] theorem State.issue_pending (v : Word) : (s.issue v).pending = v := rfl
@[simp] theorem State.issue_mem (v : Word) : (s.issue v).mem = s.mem := rfl
@[simp] theorem State.issue_sizes (v : Word) : (s.issue v).sizes = s.sizes := rfl
@[simp] theorem State.issue_ibufDraw (v : Word) : (s.issue v).ibufDraw = s.ibufDraw := rfl
@[simp] theorem State.issue_obufDraw (v : Word) : (s.issue v).obufDraw = s.obufDraw := rfl
@[simp] theorem State.issue_draws (v : Word) : (s.issue v).draws = s.draws := rfl
@[simp] theorem State.issue_rdata (v : Word) : (s.issue v).rdata = s.rdata := rfl
@[simp] theorem State.issue_schedule (v : Word) : (s.issue v).schedule = s.schedule := rfl

/-! ### finish -/

@[simp] theorem State.finish_ctrl (c : ErrCode) (i : Word) : (s.finish c i).ctrl = s.ctrl := rfl
@[simp] theorem State.finish_status (c : ErrCode) (i : Word) : (s.finish c i).status = s.status.completed (decide (c ≠ .none)) := rfl
@[simp] theorem State.finish_errCode (c : ErrCode) (i : Word) : (s.finish c i).errCode = c := rfl
@[simp] theorem State.finish_errInfo (c : ErrCode) (i : Word) : (s.finish c i).errInfo = i := rfl
@[simp] theorem State.finish_inLen (c : ErrCode) (i : Word) : (s.finish c i).inLen = s.inLen := rfl
@[simp] theorem State.finish_outLen (c : ErrCode) (i : Word) : (s.finish c i).outLen = s.outLen := rfl
@[simp] theorem State.finish_bitLen (c : ErrCode) (i : Word) : (s.finish c i).bitLen = s.bitLen := rfl
@[simp] theorem State.finish_pad (c : ErrCode) (i : Word) : (s.finish c i).pad = s.pad := rfl
@[simp] theorem State.finish_nsym (c : ErrCode) (i : Word) : (s.finish c i).nsym = s.nsym := rfl
@[simp] theorem State.finish_total (c : ErrCode) (i : Word) : (s.finish c i).total = s.total := rfl
@[simp] theorem State.finish_rootIdx (c : ErrCode) (i : Word) : (s.finish c i).rootIdx = s.rootIdx := rfl
@[simp] theorem State.finish_nnodes (c : ErrCode) (i : Word) : (s.finish c i).nnodes = s.nnodes := rfl
@[simp] theorem State.finish_sel (c : ErrCode) (i : Word) : (s.finish c i).sel = s.sel := rfl
@[simp] theorem State.finish_freq (c : ErrCode) (i : Word) : (s.finish c i).freq = s.freq := rfl
@[simp] theorem State.finish_order (c : ErrCode) (i : Word) : (s.finish c i).order = s.order := rfl
@[simp] theorem State.finish_node (c : ErrCode) (i : Word) : (s.finish c i).node = s.node := rfl
@[simp] theorem State.finish_clen (c : ErrCode) (i : Word) : (s.finish c i).clen = s.clen := rfl
@[simp] theorem State.finish_cbits (c : ErrCode) (i : Word) : (s.finish c i).cbits = s.cbits := rfl
@[simp] theorem State.finish_pending (c : ErrCode) (i : Word) : (s.finish c i).pending = s.pending := rfl
@[simp] theorem State.finish_mem (c : ErrCode) (i : Word) : (s.finish c i).mem = s.mem := rfl
@[simp] theorem State.finish_sizes (c : ErrCode) (i : Word) : (s.finish c i).sizes = s.sizes := rfl
@[simp] theorem State.finish_ibufDraw (c : ErrCode) (i : Word) : (s.finish c i).ibufDraw = s.ibufDraw := rfl
@[simp] theorem State.finish_obufDraw (c : ErrCode) (i : Word) : (s.finish c i).obufDraw = s.obufDraw := rfl
@[simp] theorem State.finish_draws (c : ErrCode) (i : Word) : (s.finish c i).draws = s.draws := rfl
@[simp] theorem State.finish_rdata (c : ErrCode) (i : Word) : (s.finish c i).rdata = s.rdata := rfl
@[simp] theorem State.finish_schedule (c : ErrCode) (i : Word) : (s.finish c i).schedule = s.schedule := rfl

/-! ### dropOutput -/

@[simp] theorem State.dropOutput_ctrl : s.dropOutput.ctrl = s.ctrl := rfl
@[simp] theorem State.dropOutput_status : s.dropOutput.status = s.status := rfl
@[simp] theorem State.dropOutput_errCode : s.dropOutput.errCode = s.errCode := rfl
@[simp] theorem State.dropOutput_errInfo : s.dropOutput.errInfo = s.errInfo := rfl
@[simp] theorem State.dropOutput_inLen : s.dropOutput.inLen = s.inLen := rfl
@[simp] theorem State.dropOutput_outLen : s.dropOutput.outLen = 0 := rfl
@[simp] theorem State.dropOutput_bitLen : s.dropOutput.bitLen = 0 := rfl
@[simp] theorem State.dropOutput_pad : s.dropOutput.pad = 0 := rfl
@[simp] theorem State.dropOutput_nsym : s.dropOutput.nsym = s.nsym := rfl
@[simp] theorem State.dropOutput_total : s.dropOutput.total = s.total := rfl
@[simp] theorem State.dropOutput_rootIdx : s.dropOutput.rootIdx = s.rootIdx := rfl
@[simp] theorem State.dropOutput_nnodes : s.dropOutput.nnodes = s.nnodes := rfl
@[simp] theorem State.dropOutput_sel : s.dropOutput.sel = s.sel := rfl
@[simp] theorem State.dropOutput_freq : s.dropOutput.freq = s.freq := rfl
@[simp] theorem State.dropOutput_order : s.dropOutput.order = s.order := rfl
@[simp] theorem State.dropOutput_node : s.dropOutput.node = s.node := rfl
@[simp] theorem State.dropOutput_clen : s.dropOutput.clen = s.clen := rfl
@[simp] theorem State.dropOutput_cbits : s.dropOutput.cbits = s.cbits := rfl
@[simp] theorem State.dropOutput_pending : s.dropOutput.pending = s.pending := rfl
@[simp] theorem State.dropOutput_mem : s.dropOutput.mem = s.mem.forget Config.obufBase (Config.obufBase + s.sizes.obufBytes) := rfl
@[simp] theorem State.dropOutput_sizes : s.dropOutput.sizes = s.sizes := rfl
@[simp] theorem State.dropOutput_ibufDraw : s.dropOutput.ibufDraw = s.ibufDraw := rfl
@[simp] theorem State.dropOutput_obufDraw : s.dropOutput.obufDraw = s.draws := rfl
@[simp] theorem State.dropOutput_draws : s.dropOutput.draws = s.draws + 1 := rfl
@[simp] theorem State.dropOutput_rdata : s.dropOutput.rdata = s.rdata := rfl
@[simp] theorem State.dropOutput_schedule : s.dropOutput.schedule = s.schedule := rfl

/-! ### cleared -/

@[simp] theorem State.cleared_ctrl : s.cleared.ctrl = s.ctrl := rfl
@[simp] theorem State.cleared_status : s.cleared.status = { s.status with freqValid := false, treeValid := false, degen := false } := rfl
@[simp] theorem State.cleared_errCode : s.cleared.errCode = s.errCode := rfl
@[simp] theorem State.cleared_errInfo : s.cleared.errInfo = s.errInfo := rfl
@[simp] theorem State.cleared_inLen : s.cleared.inLen = s.inLen := rfl
@[simp] theorem State.cleared_outLen : s.cleared.outLen = 0 := rfl
@[simp] theorem State.cleared_bitLen : s.cleared.bitLen = 0 := rfl
@[simp] theorem State.cleared_pad : s.cleared.pad = 0 := rfl
@[simp] theorem State.cleared_nsym : s.cleared.nsym = 0 := rfl
@[simp] theorem State.cleared_total : s.cleared.total = 0 := rfl
@[simp] theorem State.cleared_rootIdx : s.cleared.rootIdx = s.rootIdx := rfl
@[simp] theorem State.cleared_nnodes : s.cleared.nnodes = s.nnodes := rfl
@[simp] theorem State.cleared_sel : s.cleared.sel = s.sel := rfl
@[simp] theorem State.cleared_freq : s.cleared.freq = Vector.replicate 256 0 := rfl
@[simp] theorem State.cleared_order : s.cleared.order = Vector.replicate 256 0 := rfl
@[simp] theorem State.cleared_node : s.cleared.node = s.node := rfl
@[simp] theorem State.cleared_clen : s.cleared.clen = Vector.replicate 256 0 := rfl
@[simp] theorem State.cleared_cbits : s.cleared.cbits = s.cbits := rfl
@[simp] theorem State.cleared_pending : s.cleared.pending = s.pending := rfl
@[simp] theorem State.cleared_mem : s.cleared.mem = s.mem := rfl
@[simp] theorem State.cleared_sizes : s.cleared.sizes = s.sizes := rfl
@[simp] theorem State.cleared_ibufDraw : s.cleared.ibufDraw = s.ibufDraw := rfl
@[simp] theorem State.cleared_obufDraw : s.cleared.obufDraw = s.obufDraw := rfl
@[simp] theorem State.cleared_draws : s.cleared.draws = s.draws := rfl
@[simp] theorem State.cleared_rdata : s.cleared.rdata = s.rdata := rfl
@[simp] theorem State.cleared_schedule : s.cleared.schedule = s.schedule := rfl

/-! ### commitTally -/

@[simp] theorem State.commitTally_ctrl (t : Tally) : (s.commitTally t).ctrl = s.ctrl := rfl
@[simp] theorem State.commitTally_status (t : Tally) : (s.commitTally t).status = { s.status with freqValid := true, treeValid := false, degen := false } := rfl
@[simp] theorem State.commitTally_errCode (t : Tally) : (s.commitTally t).errCode = s.errCode := rfl
@[simp] theorem State.commitTally_errInfo (t : Tally) : (s.commitTally t).errInfo = s.errInfo := rfl
@[simp] theorem State.commitTally_inLen (t : Tally) : (s.commitTally t).inLen = s.inLen := rfl
@[simp] theorem State.commitTally_outLen (t : Tally) : (s.commitTally t).outLen = s.outLen := rfl
@[simp] theorem State.commitTally_bitLen (t : Tally) : (s.commitTally t).bitLen = s.bitLen := rfl
@[simp] theorem State.commitTally_pad (t : Tally) : (s.commitTally t).pad = s.pad := rfl
@[simp] theorem State.commitTally_nsym (t : Tally) : (s.commitTally t).nsym = BitVec.ofNat 9 t.count := rfl
@[simp] theorem State.commitTally_total (t : Tally) : (s.commitTally t).total = s.inLen := rfl
@[simp] theorem State.commitTally_rootIdx (t : Tally) : (s.commitTally t).rootIdx = s.rootIdx := rfl
@[simp] theorem State.commitTally_nnodes (t : Tally) : (s.commitTally t).nnodes = s.nnodes := rfl
@[simp] theorem State.commitTally_sel (t : Tally) : (s.commitTally t).sel = s.sel := rfl
@[simp] theorem State.commitTally_freq (t : Tally) : (s.commitTally t).freq = t.freq := rfl
@[simp] theorem State.commitTally_order (t : Tally) : (s.commitTally t).order = t.order := rfl
@[simp] theorem State.commitTally_node (t : Tally) : (s.commitTally t).node = s.node := rfl
@[simp] theorem State.commitTally_clen (t : Tally) : (s.commitTally t).clen = s.clen := rfl
@[simp] theorem State.commitTally_cbits (t : Tally) : (s.commitTally t).cbits = s.cbits := rfl
@[simp] theorem State.commitTally_pending (t : Tally) : (s.commitTally t).pending = s.pending := rfl
@[simp] theorem State.commitTally_mem (t : Tally) : (s.commitTally t).mem = s.mem := rfl
@[simp] theorem State.commitTally_sizes (t : Tally) : (s.commitTally t).sizes = s.sizes := rfl
@[simp] theorem State.commitTally_ibufDraw (t : Tally) : (s.commitTally t).ibufDraw = s.ibufDraw := rfl
@[simp] theorem State.commitTally_obufDraw (t : Tally) : (s.commitTally t).obufDraw = s.obufDraw := rfl
@[simp] theorem State.commitTally_draws (t : Tally) : (s.commitTally t).draws = s.draws := rfl
@[simp] theorem State.commitTally_rdata (t : Tally) : (s.commitTally t).rdata = s.rdata := rfl
@[simp] theorem State.commitTally_schedule (t : Tally) : (s.commitTally t).schedule = s.schedule := rfl

/-! ### The status word's parts -/

@[simp] theorem Status.completed_busy (t : Status) (e : Bool) : (t.completed e).busy = false := rfl
@[simp] theorem Status.completed_done (t : Status) (e : Bool) : (t.completed e).done = true := rfl
@[simp] theorem Status.completed_err (t : Status) (e : Bool) : (t.completed e).err = e := rfl
@[simp] theorem Status.completed_freqValid (t : Status) (e : Bool) : (t.completed e).freqValid = t.freqValid := rfl
@[simp] theorem Status.completed_treeValid (t : Status) (e : Bool) : (t.completed e).treeValid = t.treeValid := rfl
@[simp] theorem Status.completed_degen (t : Status) (e : Bool) : (t.completed e).degen = t.degen := rfl
@[simp] theorem Status.completed_wrBlocked (t : Status) (e : Bool) : (t.completed e).wrBlocked = t.wrBlocked := rfl
@[simp] theorem Status.completed_busErr (t : Status) (e : Bool) : (t.completed e).busErr = t.busErr := rfl

end Sys2Proof.Machine
end

