-- ==== Sys2Proof/Laws/Targets.lean ====
section
/-! SUPPORT. What a transaction reaches, said once: the register at an address, the buffers, the bus errors
(R80, R82, R85, R86). -/

namespace Sys2Proof.Machine

theorem regAt_offset (r : RegName) : regAt r.offset = some r := by
  cases r with
  | codeBitsRd k => revert k; decide
  | _ => decide

theorem offset_of_regAt {off : Nat} {r : RegName} (h : regAt off = some r) : r.offset = off := by
  have := List.find?_some h
  simpa using this

theorem offset_lt (r : RegName) : r.offset < 0x80 ∧ r.offset % 4 = 0 := by
  cases r with
  | codeBitsRd k => revert k; decide
  | _ => decide

theorem regAddr_toNat (r : RegName) : (regAddr r).toNat = r.offset := by
  have := (offset_lt r).1
  simp only [regAddr, Config.regBase, BitVec.toNat_ofNat]
  omega

theorem regionOf_eq (z : Config.Sizes) (hz : z.Valid) (a : Nat) :
    (regionOf z a = .ibuf ↔ Config.ibufBase ≤ a ∧ a < Config.ibufBase + z.ibufBytes) ∧
    (regionOf z a = .obuf ↔ Config.obufBase ≤ a ∧ a < Config.obufBase + z.obufBytes) ∧
    (regionOf z a = .reg ↔ a < 0x1000) := by
  obtain ⟨⟨h1, h2⟩, h3, h4⟩ := hz
  simp only [regionOf, Config.regBase, Config.regBytes, Config.ibufBase, Config.obufBase, Nat.zero_add]
  by_cases c1 : a < 0x1000
  · have d2 : ¬ (0x01000000 ≤ a ∧ a < 0x01000000 + z.ibufBytes) := by omega
    have d3 : ¬ (0x02000000 ≤ a ∧ a < 0x02000000 + z.obufBytes) := by omega
    simp only [c1, d2, d3, if_true]
    simp
  · by_cases c2 : 0x01000000 ≤ a ∧ a < 0x01000000 + z.ibufBytes
    · have d3 : ¬ (0x02000000 ≤ a ∧ a < 0x02000000 + z.obufBytes) := by omega
      simp only [c1, c2, d3, if_false]
      simp
    · by_cases c3 : 0x02000000 ≤ a ∧ a < 0x02000000 + z.obufBytes
      · simp only [c1, c2, c3, if_false]
        simp
      · simp only [c1, c2, c3, if_false]
        simp

/-- IBUF and OBUF have no address in common (R80). -/
theorem State.not_inObuf_of_inIbuf {s : State} (hz : s.sizes.Valid) {a : Nat} (h : s.InIbuf a) : ¬ s.InObuf a := by
  obtain ⟨⟨h1, h2⟩, h3, h4⟩ := hz
  simp only [State.InIbuf, State.InObuf, Config.ibufBase, Config.obufBase] at *
  omega

/-- What an 8-bit transaction reaches. -/
theorem target8_spec (s : State) (hz : s.sizes.Valid) (a : Nat) :
    (target8 s.sizes a = .ibuf ↔ s.InIbuf a) ∧ (target8 s.sizes a = .obuf ↔ s.InObuf a) ∧
    (target8 s.sizes a = .error ↔ ¬ s.InIbuf a ∧ ¬ s.InObuf a) ∧ ∀ r, target8 s.sizes a ≠ .reg r := by
  obtain ⟨h1, h2, h3⟩ := regionOf_eq s.sizes hz a
  simp only [State.InIbuf, State.InObuf, ← h1, ← h2, target8]
  cases regionOf s.sizes a <;> simp

/-- What a 32-bit transaction reaches: a register exactly at that register's address. -/
theorem target32_reg (z : Config.Sizes) (r : RegName) : target32 z (regAddr r).toNat = .reg r := by
  have h := offset_lt r
  rw [regAddr_toNat, target32, if_neg (by omega), regionOf, if_pos]
  · simp [Config.regBase, regAt_offset]
  · simp only [Config.regBase, Config.regBytes]; omega

theorem target32_spec (s : State) (hz : s.sizes.Valid) (a : Word) :
    (target32 s.sizes a.toNat = .ibuf ↔ a.toNat % 4 = 0 ∧ s.InIbuf a.toNat ∧ s.InIbuf (a.toNat + 3)) ∧
    (target32 s.sizes a.toNat = .obuf ↔ a.toNat % 4 = 0 ∧ s.InObuf a.toNat ∧ s.InObuf (a.toNat + 3)) ∧
    (∀ r, target32 s.sizes a.toNat = .reg r ↔ a = regAddr r) := by
  obtain ⟨h1, h2, h3⟩ := regionOf_eq s.sizes hz a.toNat
  obtain ⟨g1, g2, -⟩ := regionOf_eq s.sizes hz (a.toNat + 3)
  have hreg : ∀ r, target32 s.sizes a.toNat = .reg r ↔ a = regAddr r := by
    intro r
    constructor
    · intro h
      unfold target32 at h
      split at h
      · simp at h
      · split at h
        · split at h
          · rename_i r' hr'
            obtain rfl : r' = r := by simpa using h
            have := offset_of_regAt hr'
            apply BitVec.eq_of_toNat_eq
            rw [regAddr_toNat, this]
            simp [Config.regBase]
          · simp at h
        · split at h <;> simp at h
        · split at h <;> simp at h
        · simp at h
    · rintro rfl
      exact target32_reg _ _
  refine ⟨?_, ?_, hreg⟩
  · simp only [State.InIbuf, ← h1, ← g1, target32]
    by_cases hm : a.toNat % 4 = 0
    · rw [if_neg (by omega)]
      cases regionOf s.sizes a.toNat with
      | reg => cases regAt (a.toNat - Config.regBase) <;> simp
      | ibuf => by_cases h : regionOf s.sizes (a.toNat + 3) = .ibuf <;> simp [h, hm]
      | obuf => by_cases h : regionOf s.sizes (a.toNat + 3) = .obuf <;> simp [h]
      | unmapped => simp
    · rw [if_pos hm]
      simp [hm]
  · simp only [State.InObuf, ← h2, ← g2, target32]
    by_cases hm : a.toNat % 4 = 0
    · rw [if_neg (by omega)]
      cases regionOf s.sizes a.toNat with
      | reg => cases regAt (a.toNat - Config.regBase) <;> simp
      | ibuf => by_cases h : regionOf s.sizes (a.toNat + 3) = .ibuf <;> simp [h]
      | obuf => by_cases h : regionOf s.sizes (a.toNat + 3) = .obuf <;> simp [h, hm]
      | unmapped => simp
    · rw [if_pos hm]
      simp [hm]

theorem target32_error (s : State) (hz : s.sizes.Valid) (a : Word) :
    target32 s.sizes a.toNat = .error ↔
      a.toNat % 4 ≠ 0 ∨ (¬ (s.InIbuf a.toNat ∧ s.InIbuf (a.toNat + 3)) ∧
        ¬ (s.InObuf a.toNat ∧ s.InObuf (a.toNat + 3)) ∧ ∀ r : RegName, a ≠ regAddr r) := by
  obtain ⟨h1, h2, h3⟩ := target32_spec s hz a
  constructor
  · intro h
    by_cases hm : a.toNat % 4 = 0
    · right
      refine ⟨fun e => ?_, fun e => ?_, fun r e => ?_⟩
      · rw [h1.2 ⟨hm, e⟩] at h; simp at h
      · rw [h2.2 ⟨hm, e⟩] at h; simp at h
      · rw [(h3 r).2 e] at h; simp at h
    · exact .inl hm
  · intro h
    rcases ht : target32 s.sizes a.toNat with r | _ | _ | _
    · have e := (h3 r).1 ht
      rcases h with h | h
      · exact absurd (by rw [e, regAddr_toNat]; exact (offset_lt r).2) h
      · exact absurd e (h.2.2 r)
    · have e := h1.1 ht
      rcases h with h | h
      · exact absurd e.1 h
      · exact absurd e.2 h.1
    · have e := h2.1 ht
      rcases h with h | h
      · exact absurd e.1 h
      · exact absurd e.2 h.2.1
    · rfl

end Sys2Proof.Machine
end

