-- ==== Sys2Proof/Laws/Effects.lean ====
section
/-! SUPPORT. Inversion: what a transaction, a command and a step can do, each said once. -/

namespace Sys2Proof.Machine

open Host (Outcome)

/-! ### HOST transactions -/

/-- What a HOST transaction can make of a state. -/
inductive BusEffect (s : State) : Instr → State → Prop where
  | read (i : Instr) (v : Word) (hi : (∃ a, i = .rd8 a) ∨ ∃ a, i = .rd32 a) : BusEffect s i (s.returning v)
  | badRead (i : Instr) (hi : (∃ a, i = .rd8 a) ∨ ∃ a, i = .rd32 a) : BusEffect s i s.badRead
  | freeRead (i : Instr) (v : Word) (hi : (∃ a, i = .rd8 a) ∨ ∃ a, i = .rd32 a) (hb : s.status.busy = true) :
      BusEffect s i (s.nextDraw.returning v)
  | busErr (i : Instr) (hi : (∃ a v, i = .wr8 a v) ∨ ∃ a v, i = .wr32 a v) : BusEffect s i s.setBusErr
  | blocked (i : Instr) (hi : (∃ a v, i = .wr8 a v) ∨ ∃ a v, i = .wr32 a v) (hb : s.status.busy = true) :
      BusEffect s i s.setWrBlocked
  | storeByte (a : Word) (v : Byte) (hb : s.status.busy = false) (ha : s.InIbuf a.toNat) :
      BusEffect s (.wr8 a v) (s.writeByte a.toNat v)
  | storeWord (a v : Word) (hb : s.status.busy = false) (ha : s.InIbuf a.toNat) (ha' : s.InIbuf (a.toNat + 3)) :
      BusEffect s (.wr32 a v) (s.writeWord a.toNat v)
  | ctrl (v : Word) : BusEffect s (.wr32 0x00000004 v) { s with ctrl := Ctrl.ofWord v }
  | status (v : Word) : BusEffect s (.wr32 0x0000000C v) { s with status := s.status.clearedBy v }
  | issue (v : Word) (hb : s.status.busy = false) : BusEffect s (.wr32 0x00000008 v) (s.issue v)
  | inLen (v : Word) (hb : s.status.busy = false) : BusEffect s (.wr32 0x00000018 v) { s with inLen := v }
  | sel (v : Word) (hb : s.status.busy = false) :
      BusEffect s (.wr32 0x00000034 v) { s with sel := v.extractLsb' 0 9 }
  | ignored (a v : Word) (hb : s.status.busy = false) : BusEffect s (.wr32 a v) s

theorem regionOf_ibuf {z : Config.Sizes} {a : Nat} (h : regionOf z a = .ibuf) :
    Config.ibufBase ≤ a ∧ a < Config.ibufBase + z.ibufBytes := by
  unfold regionOf at h
  split at h
  · simp at h
  · split at h
    · assumption
    · split at h <;> simp at h

theorem target8_ibuf {s : State} {a : Nat} (h : target8 s.sizes a = .ibuf) : s.InIbuf a := by
  unfold target8 at h
  split at h
  · exact regionOf_ibuf (by assumption)
  all_goals simp at h

theorem target32_ibuf {s : State} {a : Nat} (h : target32 s.sizes a = .ibuf) : s.InIbuf a ∧ s.InIbuf (a + 3) := by
  unfold target32 at h
  split at h
  · simp at h
  · split at h
    · split at h <;> simp at h
    · split at h
      · exact ⟨regionOf_ibuf (by assumption), regionOf_ibuf (by assumption)⟩
      · simp at h
    · split at h <;> simp at h
    · simp at h

theorem target32_reg_addr {z : Config.Sizes} {a : Word} {r : RegName} (h : target32 z a.toNat = .reg r) :
    a = regAddr r := by
  unfold target32 at h
  split at h
  · simp at h
  · split at h
    · split at h
      · rename_i r' hr'
        obtain rfl : r' = r := by simpa using h
        apply BitVec.eq_of_toNat_eq
        rw [regAddr_toNat, offset_of_regAt hr']
        simp [Config.regBase]
      · simp at h
    · split at h <;> simp at h
    · split at h <;> simp at h
    · simp at h

/-- A register write while idle. -/
theorem writeRegIdle_effect (s : State) (v : Word) (r : RegName) (hb : s.status.busy = false) :
    BusEffect s (.wr32 (regAddr r) v) (s.writeRegIdle v r) := by
  cases r with
  | ctrl => exact .ctrl v
  | cmd => exact .issue v hb
  | status => exact .status v
  | inLen => exact .inLen v hb
  | sel => exact .sel v hb
  | _ => exact .ignored _ v hb

/-- A register write while BUSY. -/
theorem writeRegBusy_effect (s : State) (v : Word) (r : RegName) (hb : s.status.busy = true) :
    BusEffect s (.wr32 (regAddr r) v) (s.writeRegBusy v r) := by
  cases r with
  | ctrl => exact .ctrl v
  | status => exact .status v
  | _ => exact .blocked _ (.inr ⟨_, _, rfl⟩) hb

/-- Every HOST transaction answers a next state, and has one of the effects above. -/
theorem exec_bus {i : Instr} (hi : Instr.isCommand i = false) (s : State) :
    ∃ t, exec i s = .next t ∧ BusEffect s i t := by
  cases i with
  | rd8 a =>
    refine ⟨_, rfl, ?_⟩
    unfold State.read8
    split
    · exact .read _ _ (.inl ⟨_, rfl⟩)
    · split
      · exact .freeRead _ _ (.inl ⟨_, rfl⟩) (by assumption)
      · exact .read _ _ (.inl ⟨_, rfl⟩)
    · exact .badRead _ (.inl ⟨_, rfl⟩)
    · exact .badRead _ (.inl ⟨_, rfl⟩)
  | rd32 a =>
    refine ⟨_, rfl, ?_⟩
    unfold State.read32
    split
    · split
      · rename_i h
        exact .freeRead _ _ (.inr ⟨_, rfl⟩) (by simp at h; exact h.1)
      · exact .read _ _ (.inr ⟨_, rfl⟩)
    · exact .read _ _ (.inr ⟨_, rfl⟩)
    · split
      · exact .freeRead _ _ (.inr ⟨_, rfl⟩) (by assumption)
      · exact .read _ _ (.inr ⟨_, rfl⟩)
    · exact .badRead _ (.inr ⟨_, rfl⟩)
  | wr8 a v =>
    refine ⟨_, rfl, ?_⟩
    unfold State.write8
    split
    · rename_i ht
      split
      · exact .blocked _ (.inl ⟨_, _, rfl⟩) (by assumption)
      · rename_i hb
        exact .storeByte a v (by simpa using hb) (target8_ibuf ht)
    all_goals exact .busErr _ (.inl ⟨_, _, rfl⟩)
  | wr32 a v =>
    refine ⟨_, rfl, ?_⟩
    unfold State.write32
    split
    · rename_i r ht
      obtain rfl := target32_reg_addr ht
      unfold State.writeReg
      split
      · exact writeRegBusy_effect s v r (by assumption)
      · rename_i hb
        exact writeRegIdle_effect s v r (by simpa using hb)
    · rename_i ht
      split
      · exact .blocked _ (.inr ⟨_, _, rfl⟩) (by assumption)
      · rename_i hb
        exact .storeWord a v (by simpa using hb) (target32_ibuf ht).1 (target32_ibuf ht).2
    all_goals exact .busErr _ (.inr ⟨_, _, rfl⟩)
  | _ => simp [Instr.isCommand] at hi

/-! ### Commands -/

/-- What a command's COMPLETE can make of a state (R246, R247). -/
inductive CommandEffect (s : State) : Instr → State → Prop where
  | nop : CommandEffect s .nop (s.finish .none 0)
  | clear : CommandEffect s .clear (s.cleared.finish .none 0)
  | illegal (w : Word) : CommandEffect s (.illegal w) (s.finish .illegalCmd w)
  | failed (i : Instr) (hi : i = .analyze ∨ i = .build) (code : ErrCode) (info : Word) (hc : code ≠ .none) :
      CommandEffect s i (s.finish code info)
  | failedOutput (i : Instr) (hi : i = .encode ∨ i = .decode) (code : ErrCode) (info : Word) (hc : code ≠ .none) :
      CommandEffect s i (s.dropOutput.finish code info)
  | analyzed (h1 : 1 ≤ s.inLen.toNat) (h2 : s.inLen.toNat ≤ s.sizes.ibufBytes) :
      CommandEffect s .analyze ((s.commitTally (Tally.scan s.inputBytes)).finish .none 0)
  | built (h : s.status.freqValid = true) :
      CommandEffect s .build ((s.commitTree (Forest.build s.freq s.symbols)).finish .none 0)
  | produced (i : Instr) (hi : i = .encode ∨ i = .decode) (out : List Byte) (bits pad : Nat)
      (ht : s.status.treeValid = true) (ho : out.length ≤ s.sizes.obufBytes) (hp : 1 ≤ pad ∧ pad ≤ 8) :
      CommandEffect s i ((s.commitOutput out bits pad).finish .none 0)

theorem padLength_le (bits : Bits) : 1 ≤ padLength bits ∧ padLength bits ≤ 8 := by
  unfold padLength
  omega

theorem length_payloadBits (bits : Bits) : (payloadBits bits).length = 8 * (bits.length / 8 + 2) := by
  simp only [payloadBits, List.length_append, List.length_replicate, padLength]
  have : ∀ v, (bin8 v).length = 8 := fun _ => rfl
  rw [this]
  omega

/-- Errors that a command raises are never NONE. -/
theorem encodeFrom_error {s : State} {i : Nat} {l : List Byte} {e : Raise} (h : s.encodeFrom i l = .error e) :
    e.code = .unknownSymbol := by
  induction l generalizing i with
  | nil => simp [State.encodeFrom] at h
  | cons b r ih =>
    unfold State.encodeFrom at h
    split at h
    · obtain rfl : _ = e := by simpa using h
      rfl
    · split at h
      · simp at h
      · rename_i he
        obtain rfl : _ = e := by simpa using h
        exact ih he

theorem length_payload (bits : Bits) : (payload bits).length = bits.length / 8 + 2 := by
  have gen : ∀ (n : Nat) (s : Bits), s.length = 8 * n → (pack s).length = n := by
    intro n
    induction n with
    | zero => intro s h; rw [List.length_eq_zero_iff.1 h]; rfl
    | succ n ih =>
      intro s h
      match s, h with
      | b7 :: b6 :: b5 :: b4 :: b3 :: b2 :: b1 :: b0 :: rest, h =>
        simp only [List.length_cons] at h
        simp [pack, ih rest (by omega)]
      | [], h | [_], h | [_, _], h | [_, _, _], h | [_, _, _, _], h | [_, _, _, _, _], h
      | [_, _, _, _, _, _], h | [_, _, _, _, _, _, _], h =>
        simp only [List.length_cons, List.length_nil] at h
        omega
  exact gen _ _ (length_payloadBits bits)

theorem encode_effect (s : State) : CommandEffect s .encode (completeOutput (encodeInput s) s) := by
  have fail : ∀ e : Raise, e.code ≠ .none → CommandEffect s .encode (completeOutput (.error e) s) :=
    fun e he => .failedOutput _ (.inl rfl) _ _ he
  unfold encodeInput
  split
  · exact fail _ (by simp)
  · split
    · exact fail _ (by simp)
    · split
      · exact fail _ (by simp)
      · split
        · rename_i e he
          exact fail e (by rw [encodeFrom_error he]; simp)
        · rename_i ht _ _ _ bits _
          split
          · exact fail _ (by simp)
          · rename_i ho
            refine .produced _ (.inl rfl) _ _ _ (by simpa using ht) ?_ (padLength_le bits)
            rw [length_payload]
            rw [length_payloadBits] at ho
            omega

theorem decode_effect (s : State) : CommandEffect s .decode (completeOutput (decodeInput s) s) := by
  have fail : ∀ e : Raise, e.code ≠ .none → CommandEffect s .decode (completeOutput (.error e) s) :=
    fun e he => .failedOutput _ (.inr rfl) _ _ he
  unfold decodeInput
  split
  · exact fail _ (by simp)
  · split
    · exact fail _ (by simp)
    · split
      · exact fail _ (by simp)
      · rename_i ht _ _
        unfold State.decodePadded
        split
        · exact fail _ (by simp)
        · rename_i hp
          simp only
          split
          · exact fail _ (by simp)
          · split
            · exact fail _ (by simp)
            · exact .produced _ (.inr rfl) _ _ _ (by simpa using ht) (by omega) (by omega)

theorem analyze_effect (s : State) : CommandEffect s .analyze (complete (analyze s) s) := by
  unfold analyze
  split
  · exact .failed _ (.inl rfl) _ _ (by simp)
  · split
    · exact .failed _ (.inl rfl) _ _ (by simp)
    · rename_i h1 h2
      refine .analyzed ?_ (by omega)
      rcases Nat.eq_zero_or_pos s.inLen.toNat with h | h
      · exact absurd (BitVec.eq_of_toNat_eq (by simpa using h)) h2
      · exact h

theorem build_effect (s : State) : CommandEffect s .build (complete (build s) s) := by
  unfold build
  split
  · exact .built (by assumption)
  · exact .failed _ (.inr rfl) _ _ (by simp)

/-- Every command answers a next state, and has one of the effects above. -/
theorem exec_command {i : Instr} (hi : Instr.isCommand i = true) (s : State) :
    ∃ t, exec i s = .next t ∧ CommandEffect s i t := by
  cases i with
  | nop => exact ⟨_, rfl, .nop⟩
  | clear => exact ⟨_, rfl, .clear⟩
  | analyze => exact ⟨_, rfl, analyze_effect s⟩
  | build => exact ⟨_, rfl, build_effect s⟩
  | encode => exact ⟨_, rfl, encode_effect s⟩
  | decode => exact ⟨_, rfl, decode_effect s⟩
  | illegal w => exact ⟨_, rfl, .illegal w⟩
  | _ => simp [Instr.isCommand] at hi

theorem exec_command_effect {i : Instr} (hi : Instr.isCommand i = true) {s t : State} (h : exec i s = .next t) :
    CommandEffect s i t := by
  obtain ⟨u, hu, he⟩ := exec_command hi s
  rw [hu] at h
  obtain rfl : u = t := by simpa using h
  exact he

theorem exec_bus_effect {i : Instr} (hi : Instr.isCommand i = false) {s t : State} (h : exec i s = .next t) :
    BusEffect s i t := by
  obtain ⟨u, hu, he⟩ := exec_bus hi s
  rw [hu] at h
  obtain rfl : u = t := by simpa using h
  exact he

/-! ### Steps -/

theorem decodeCommand_isCommand (w : Word) : Instr.isCommand (decodeCommand w) = true := by
  unfold decodeCommand
  split_ifs <;> rfl

theorem decodeBus_isCommand (t : BusTxn) : Instr.isCommand (decodeBus t) = false := by
  unfold decodeBus
  split <;> rfl

/-- What a step can make of a state, its event taken off the schedule. -/
inductive StepEffect (s : State) : State → Prop where
  | idle (hb : s.status.busy = false) : StepEffect s s
  | complete (hb : s.status.busy = true) (t : State) (h : CommandEffect s s.pendingInstr t) : StepEffect s t
  | host (i : Instr) (hi : Instr.isCommand i = false) (t : State) (h : BusEffect s i t) : StepEffect s t
  | reset : StepEffect s s.applyReset

theorem engineStep_effect (s : State) : ∃ t, engineStep s = .next t ∧ StepEffect s t := by
  unfold engineStep
  split
  · rename_i hb
    obtain ⟨t, ht, he⟩ := exec_command (decodeCommand_isCommand s.pending) s
    exact ⟨t, ht, .complete hb t he⟩
  · rename_i hb
    exact ⟨s, rfl, .idle (by simpa using hb)⟩

/-- Every step answers a next state, and has one of the effects above on the state with its event taken off. -/
theorem step_effect (s : State) : ∃ t, step s = .next t ∧ StepEffect { s with schedule := s.schedule.tail } t := by
  unfold step
  split
  · rename_i h
    obtain ⟨t, ht, he⟩ := engineStep_effect s
    refine ⟨t, ht, ?_⟩
    have : { s with schedule := s.schedule.tail } = s := by
      cases s
      simp_all
    rw [this]
    exact he
  · rename_i e rest h
    simp only [h, List.tail_cons]
    cases e with
    | host u =>
      obtain ⟨t, ht, he⟩ := exec_bus (decodeBus_isCommand u) { s with schedule := rest }
      exact ⟨t, ht, .host _ (decodeBus_isCommand u) t he⟩
    | engine => exact engineStep_effect _
    | reset => exact ⟨_, rfl, .reset⟩

end Sys2Proof.Machine
end

