-- ==== Sys2Proof/Laws/Registers.lean ====
section
/-! SUPPORT. Words made of fields, and the registers at their addresses: what a 32-bit transaction to a register
does, said once. -/

namespace Sys2Proof.Machine

/-! ### Words made of fields -/

/-- The number of a word with one field above bit `k` and a number below it. -/
theorem toNat_fields {n : Nat} (hi : BitVec n) (k lo : Nat) (hn : n + k ≤ 32) (h : lo < 2 ^ k) :
    (hi.setWidth 32 <<< k ||| BitVec.ofNat 32 lo).toNat = hi.toNat * 2 ^ k + lo := by
  have h1 : hi.toNat < 2 ^ n := hi.isLt
  have h2 : 2 ^ n * 2 ^ k ≤ 2 ^ 32 := by rw [← pow_add]; exact Nat.pow_le_pow_right (by omega) hn
  have h3 : (hi.toNat + 1) * 2 ^ k ≤ 2 ^ n * 2 ^ k := Nat.mul_le_mul_right _ h1
  have h4 : hi.toNat * 1 ≤ hi.toNat * 2 ^ k := Nat.mul_le_mul_left _ (Nat.one_le_two_pow)
  have h5 : 0 < 2 ^ k := Nat.two_pow_pos k
  rw [Nat.add_mul] at h3
  rw [BitVec.toNat_or, BitVec.toNat_shiftLeft, BitVec.toNat_setWidth, BitVec.toNat_ofNat,
    Nat.mod_eq_of_lt (show hi.toNat < 2 ^ 32 by omega), Nat.mod_eq_of_lt (show lo < 2 ^ 32 by omega),
    Nat.shiftLeft_eq, Nat.mod_eq_of_lt (by omega), ← Nat.shiftLeft_eq, ← Nat.shiftLeft_add_eq_or_of_lt h]

/-- ERR_INFO of UNKNOWN_SYMBOL (R241). -/
theorem unknownInfo_spec (sym : Byte) {i : Nat} (h : i < 2 ^ 24) :
    (unknownInfo sym i).extractLsb' 24 8 = sym ∧ ((unknownInfo sym i).extractLsb' 0 24).toNat = i := by
  have e := toNat_fields sym 24 i (by omega) h
  have := sym.isLt
  refine ⟨BitVec.eq_of_toNat_eq ?_, ?_⟩ <;>
    rw [BitVec.extractLsb'_toNat, unknownInfo, e, Nat.shiftRight_eq_div_pow] <;> omega

/-- ERR_INFO of MALFORMED_PAYLOAD (R241). -/
theorem malformedInfo_toNat (sub : BitVec 4) {d : Nat} (h : d < 2 ^ 28) :
    (malformedInfo sub d).toNat = sub.toNat * 2 ^ 28 + d :=
  toNat_fields sub 28 d (by omega) h

theorem getLsbD_bitAt (k : Nat) (b : Bool) {j : Nat} (hj : j < 32) :
    (bitAt k b).getLsbD j = (decide (j = k) && b) := by
  simp only [bitAt, BitVec.getLsbD_shiftLeft, BitVec.getLsbD_setWidth, BitVec.getLsbD_ofBool]
  by_cases h : j = k
  · subst h
    simp [hj]
  · by_cases h2 : j < k
    · simp [h, h2]
    · have : j - k ≠ 0 := by omega
      simp [h, this]

/-- The bits of STATUS (R35 to R43). -/
theorem getLsbD_statusWord (t : Status) {j : Nat} (hj : j < 32) :
    t.word.getLsbD j = (decide (j = 0) && t.busy || decide (j = 1) && t.done || decide (j = 2) && t.err
      || decide (j = 3) && t.freqValid || decide (j = 4) && t.treeValid || decide (j = 5) && t.degen
      || decide (j = 6) && t.wrBlocked || decide (j = 7) && t.busErr) := by
  simp only [Status.word, BitVec.getLsbD_or, getLsbD_bitAt _ _ hj]

/-- The bits of CTRL (R33). -/
theorem getLsbD_ctrlWord (c : Ctrl) {j : Nat} (hj : j < 32) :
    c.word.getLsbD j = (decide (j = 0) && c.ieDone || decide (j = 1) && c.ieErr) := by
  simp only [Ctrl.word, BitVec.getLsbD_or, getLsbD_bitAt _ _ hj]

/-- The little-endian word of four bytes (R83). -/
theorem State.readWord_eq (s : State) (a : Nat) :
    s.readWord a = (s.readByte a).setWidth 32 ||| (s.readByte (a + 1)).setWidth 32 <<< 8 |||
      (s.readByte (a + 2)).setWidth 32 <<< 16 ||| (s.readByte (a + 3)).setWidth 32 <<< 24 := by
  simp only [State.readWord, wordOfBytes]
  generalize s.readByte a = b0
  generalize s.readByte (a + 1) = b1
  generalize s.readByte (a + 2) = b2
  generalize s.readByte (a + 3) = b3
  apply BitVec.eq_of_getLsbD_eq
  intro i hi
  simp only [BitVec.getLsbD_append, BitVec.getLsbD_or, BitVec.getLsbD_shiftLeft, BitVec.getLsbD_setWidth]
  interval_cases i <;> simp [BitVec.getLsbD_of_ge]

/-! ### Registers -/

/-- RD32 at a register's address (R60, R82). -/
theorem exec_rd32_reg (s : State) (r : RegName) :
    exec (.rd32 (regAddr r)) s =
      .next (if s.status.busy && r.gatedWhileBusy then s.unspecifiedWord else s.returning (s.readReg r)) := by
  show Host.Outcome.next (s.read32 (regAddr r).toNat) = _
  rw [State.read32, target32_reg]

/-- WR32 at a register's address. -/
theorem exec_wr32_reg (s : State) (r : RegName) (v : Word) :
    exec (.wr32 (regAddr r) v) s = .next (s.writeReg r v) := by
  show Host.Outcome.next (s.write32 (regAddr r).toNat v) = _
  rw [State.write32, target32_reg]

end Sys2Proof.Machine
end

