-- ==== Sys2Proof/Laws/Codec.lean ====
section
/-! SUPPORT. ENCODE and DECODE: the code bits of an input, the two ways an output command ends, and the walk. -/

namespace Sys2Proof.Machine

/-! ### How an output command ends -/

/-- The commit of ENCODE and DECODE changes the buffer bytes and the three result registers only. -/
theorem State.commitOutput_eq (s : State) (out : List Byte) (bits pad : Nat) :
    s.commitOutput out bits pad =
      { s with
        mem := (s.writeBytes Config.obufBase out).mem
        outLen := BitVec.ofNat 32 out.length
        bitLen := BitVec.ofNat 32 bits
        pad := BitVec.ofNat 4 pad } := by
  rw [State.commitOutput, State.writeBytes_eq]

theorem State.readByte_commitOutput (s : State) (out : List Byte) (bits pad a : Nat) :
    (s.commitOutput out bits pad).readByte a =
      if Config.obufBase ≤ a then out[a - Config.obufBase]?.getD (s.readByte a) else s.readByte a :=
  State.readByte_writeBytes s Config.obufBase out a

theorem State.producedTo_commit (s : State) {out : List Byte} {bits pad : Nat} (h1 : out.length < 2 ^ 32)
    (h2 : bits < 2 ^ 32) (h3 : pad < 16) :
    s.ProducedTo out bits pad ((s.commitOutput out bits pad).finish .none 0) := by
  refine ⟨?_, ?_, ?_, ?_, ?_, ?_⟩
  · rw [State.commitOutput_eq]
    rfl
  · show (BitVec.ofNat 32 out.length).toNat = _
    rw [BitVec.toNat_ofNat]
    omega
  · show (BitVec.ofNat 32 bits).toNat = _
    rw [BitVec.toNat_ofNat]
    omega
  · show (BitVec.ofNat 4 pad).toNat = _
    rw [BitVec.toNat_ofNat]
    omega
  · intro j h
    refine (s.readByte_commitOutput out bits pad _).trans ?_
    rw [if_pos (by omega)]
    simp [h]
  · intro a ha
    refine (s.readByte_commitOutput out bits pad _).trans ?_
    split
    · rw [List.getElem?_eq_none (by omega)]
      rfl
    · rfl

/-- The failure of ENCODE and DECODE (R247). -/
theorem State.failedOutputTo_drop (s : State) {code : ErrCode} (info : Word) (hc : code ≠ .none) :
    s.FailedOutputTo code info (s.dropOutput.finish code info) := by
  refine ⟨?_, fun a ha => (s.readByte_redrawObuf a).trans (if_pos ha),
    fun a ha => (s.readByte_redrawObuf a).trans (if_neg ha)⟩
  simp only [State.dropOutput, State.redrawObuf, State.finish, Status.completed]
  simp [hc]

theorem State.outputBytes_drop (s : State) (code : ErrCode) (info : Word) :
    (s.dropOutput.finish code info).outputBytes = [] := by
  simp [State.outputBytes, State.dropOutput, State.finish]

theorem State.outputBytes_commit (s : State) {out : List Byte} (bits pad : Nat) (h : out.length < 2 ^ 32) :
    ((s.commitOutput out bits pad).finish .none 0).outputBytes = out := by
  have e : ((s.commitOutput out bits pad).finish .none 0).outLen.toNat = out.length := by
    show (BitVec.ofNat 32 out.length).toNat = _
    rw [BitVec.toNat_ofNat]
    omega
  rw [State.outputBytes, e]
  apply List.ext_getElem
  · simp
  · intro j h1 h2
    simp only [List.getElem_map, List.getElem_range]
    refine (s.readByte_commitOutput out bits pad _).trans ?_
    rw [if_pos (by omega)]
    simp [h2]

/-- The first input byte stands at IBUF_BASE. -/
theorem State.inputBytes_cons (s : State) (h : 1 ≤ s.inLen.toNat) :
    ∃ rest, s.inputBytes = s.readByte Config.ibufBase :: rest := by
  obtain ⟨n, hn⟩ : ∃ n, s.inLen.toNat = n + 1 := ⟨s.inLen.toNat - 1, by omega⟩
  rw [State.inputBytes, hn, List.range_succ_eq_map]
  exact ⟨_, rfl⟩

/-! ### ENCODE -/

theorem encodeFrom_ok {s : State} {l : List Byte} (h : ∀ b ∈ l, s.HasCode b) (i : Nat) :
    s.encodeFrom i l = .ok (l.flatMap s.codeFor) := by
  induction l generalizing i with
  | nil => rfl
  | cons b r ih =>
    rw [State.encodeFrom, if_neg (h b (by simp)), ih fun c hc => h c (by simp [hc])]
    simp

/-- The first symbol without a code decides the error. -/
theorem encodeFrom_unknown {s : State} {l : List Byte} (i : Nat) {k : Nat} (h : k < l.length) (hk : ¬ s.HasCode l[k])
    (hj : ∀ (j : Nat) (hj : j < k), s.HasCode (l[j]'(Nat.lt_trans hj h))) :
    s.encodeFrom i l = .error { code := .unknownSymbol, info := unknownInfo l[k] (i + k) } := by
  induction l generalizing i k with
  | nil => simp at h
  | cons b r ih =>
    cases k with
    | zero =>
      have : tableAt s.clen b = 0 := by simpa [State.HasCode] using hk
      simp [State.encodeFrom, this]
    | succ k =>
      have hb := hj 0 (by omega)
      simp only [List.getElem_cons_zero] at hb
      rw [State.encodeFrom, if_neg hb, ih (i + 1) (by simpa using h) (by simpa using hk) fun j hj' => by
        have := hj (j + 1) (by omega)
        simpa using this]
      simp only [List.getElem_cons_succ]
      rw [show i + 1 + k = i + (k + 1) by omega]

theorem length_codes_le (s : State) (l : List Byte) : (l.flatMap s.codeFor).length ≤ 255 * l.length := by
  induction l with
  | nil => simp
  | cons b r ih =>
    have h : (s.codeFor b).length = _ := length_codeOf _ _
    have := (tableAt s.clen b).isLt
    simp only [List.flatMap_cons, List.length_append, List.length_cons, h]
    omega

/-- What ENCODE computes, apart from where it puts it. -/
def State.encodeResult (s : State) : Except Raise Bits :=
  if s.status.treeValid = false then .error { code := .notReady, info := 2 }
  else if s.sizes.ibufBytes < s.inLen.toNat then .error { code := .lengthRange, info := s.inLen }
  else if s.inLen = 0 then .error { code := .emptyInput, info := 0 }
  else match s.encodeFrom 0 s.inputBytes with
    | .error e => .error e
    | .ok bits =>
      if s.sizes.obufBytes < (payloadBits bits).length / 8 then
        .error { code := .outputOverflow, info := BitVec.ofNat 32 ((payloadBits bits).length / 8) }
      else .ok bits

theorem encodeInput_eq (s : State) :
    encodeInput s =
      s.encodeResult.map fun bits => s.commitOutput (payload bits) bits.length (padLength bits) := by
  unfold encodeInput State.encodeResult
  split
  · rfl
  · split
    · rfl
    · split
      · rfl
      · cases s.encodeFrom 0 s.inputBytes with
        | error e => rfl
        | ok bits =>
          simp only
          split <;> rfl

/-- The payload's first byte is the padding header (R182, R184). -/
theorem payload_eq (bits : Bits) :
    payload bits =
      BitVec.ofNat 8 (padLength bits) :: pack (bits ++ List.replicate (padLength bits) false) := by
  rw [payload, payloadBits, List.append_assoc, pack_bin8_append]

/-! ### DECODE -/

/-- What DECODE computes from the header and the body, apart from where it puts it. -/
def State.decodeResult (s : State) (p : Nat) (body : Bits) : Except Raise (List Byte) :=
  if p < 1 ∨ 8 < p then .error { code := .malformedPayload, info := malformedInfo 2 p }
  else if (s.walk body).2 ≠ 0 then .error { code := .malformedPayload, info := malformedInfo 3 (s.walk body).2 }
  else if s.sizes.obufBytes < (s.walk body).1.length then
    .error { code := .outputOverflow, info := BitVec.ofNat 32 (s.walk body).1.length }
  else .ok (s.walk body).1

theorem decodePadded_eq (s : State) (p : Nat) :
    s.decodePadded p =
      (s.decodeResult p (bodyBits s.inputBytes p)).map fun out =>
        s.commitOutput out (bodyBits s.inputBytes p).length p := by
  unfold State.decodePadded State.decodeResult
  simp only
  split_ifs <;> rfl

/-- The body of a payload is the code bits (R202 after R183). -/
theorem bodyBits_payload (bits : Bits) : bodyBits (payload bits) (padLength bits) = bits := by
  have h : unpack (payload bits) = payloadBits bits :=
    unpack_pack (by rw [length_payloadBits]; exact ⟨_, rfl⟩)
  have e : 8 * (bits.length / 8 + 2) - padLength bits = 8 + bits.length := by
    unfold padLength
    omega
  rw [bodyBits, h, length_payload, payloadBits, e, List.append_assoc, List.take_append,
    List.take_of_length_le (by simp), List.drop_append, List.drop_of_length_le (by simp)]
  simp

theorem walkTree_le (s : State) (n : NodeIdx) (len : Nat) (body : Bits) :
    (s.walkTree n len body).1.length ≤ body.length ∧ (s.walkTree n len body).2 ≤ len + body.length := by
  induction body generalizing n len with
  | nil => simp [State.walkTree]
  | cons b r ih =>
    simp only [State.walkTree, List.length_cons]
    split
    · have := ih s.rootIdx 0
      simp only [List.length_cons]
      omega
    · have := ih (Node.child (s.nodeAt n) b) (len + 1)
      omega

theorem walkDegenerate_le (sym : Byte) (len : Nat) (body : Bits) :
    (walkDegenerate sym len body).1.length ≤ body.length ∧ (walkDegenerate sym len body).2 ≤ len + body.length := by
  induction body generalizing len with
  | nil => simp [walkDegenerate]
  | cons b r ih =>
    simp only [walkDegenerate, List.length_cons]
    split
    · have := ih len
      simp only [List.length_cons]
      omega
    · have := ih (len + 1)
      omega

/-- A walk emits at most one symbol a bit, and leaves at most all bits. -/
theorem State.walk_le (s : State) (body : Bits) :
    (s.walk body).1.length ≤ body.length ∧ (s.walk body).2 ≤ body.length := by
  unfold State.walk
  split
  · have := walkDegenerate_le (s.nodeAt s.rootIdx).sym 0 body
    omega
  · have := walkTree_le s s.rootIdx 0 body
    omega

/-- A walk depends on the arena, the root and DEGEN only. -/
theorem State.walk_congr {s t : State} (h1 : s.node = t.node) (h2 : s.rootIdx = t.rootIdx)
    (h3 : s.status.degen = t.status.degen) (body : Bits) : s.walk body = t.walk body := by
  have e : ∀ n, s.nodeAt n = t.nodeAt n := fun n => by simp [State.nodeAt, h1]
  have w : ∀ n len, s.walkTree n len body = t.walkTree n len body := by
    intro n len
    induction body generalizing n len with
    | nil => rfl
    | cons b r ih => simp only [State.walkTree, e, ih, h2]
  simp [State.walk, w, e, h2, h3]

/-- Walking along a path to a leaf emits its symbol and starts again at the root (R203). -/
theorem State.walkTree_leads (s : State) {n : NodeIdx} {p : Bits} {sym : Byte} (hn : (s.nodeAt n).leaf = false)
    (h : s.Leads sym n p) (len : Nat) (rest : Bits) :
    s.walkTree n len (p ++ rest) = (sym :: (s.walkTree s.rootIdx 0 rest).1, (s.walkTree s.rootIdx 0 rest).2) := by
  induction p generalizing n len with
  | nil => exact absurd (hn.symm.trans h.1) (by simp)
  | cons b r ih =>
    simp only [List.cons_append, State.walkTree]
    obtain ⟨h1, h2⟩ := h
    cases hl : (s.nodeAt (Node.child (s.nodeAt n) b)).leaf with
    | true =>
      cases r with
      | nil => simp only [if_true, List.nil_append, h2.2]
      | cons c r' => exact absurd (hl.symm.trans h2.1) (by simp)
    | false => simpa using ih hl h2 (len + 1)

/-- The codes of a list of symbols walk back to the list, with nothing left (R203, R204, R158). -/
theorem State.TreeInv.walk_codes {s : State} (ht : s.TreeInv) {l : List Byte} (hl : ∀ b ∈ l, s.HasCode b) :
    s.walk (l.flatMap s.codeFor) = (l, 0) := by
  have inv := ht.inverse
  unfold State.MapsInverse at inv
  unfold State.walk
  cases hd : s.status.degen with
  | true =>
    rw [if_pos hd] at inv
    simp only [if_true]
    induction l with
    | nil => rfl
    | cons b r ih =>
      obtain ⟨e1, e2⟩ := (inv b).1 (hl b (by simp))
      rw [List.flatMap_cons, e2]
      simp only [List.cons_append, List.nil_append, walkDegenerate, and_self, if_true]
      rw [ih fun c hc => hl c (by simp [hc]), e1]
  | false =>
    rw [if_neg (by simp [hd])] at inv
    simp only [Bool.false_eq_true, if_false]
    induction l with
    | nil => rfl
    | cons b r ih =>
      rw [List.flatMap_cons, State.walkTree_leads s (ht.root_inner hd) ((inv b _).1 ⟨hl b (by simp), rfl⟩),
        ih fun c hc => hl c (by simp [hc])]

/-! ### The source's inverse mapping (R205) -/

theorem State.symbolOf_spec {s : State} {cand : Bits} {sym : Byte} (h : s.symbolOf cand = some sym) :
    s.HasCode sym ∧ s.codeFor sym = cand := by
  have := List.find?_some h
  simpa using this

theorem State.symbolOf_complete {s : State} {cand : Bits} {sym : Byte} (h : s.HasCode sym)
    (h2 : s.codeFor sym = cand) : ∃ x, s.symbolOf cand = some x := by
  cases h3 : s.symbolOf cand with
  | some x => exact ⟨x, rfl⟩
  | none =>
    have := List.find?_eq_none.1 h3 sym (by
      rw [List.mem_map]
      exact ⟨sym.toNat, by simp [sym.isLt], by simp⟩)
    exact absurd h (by simpa [h2] using this)

end Sys2Proof.Machine
end

