-- ==== Sys2Proof/Laws/PerInstr.lean ====
section
/-! SUPPORT. Family RoundTrip, one lemma per constructor of Instr: what the encoder writes, the decoder reads back. -/

namespace Sys2Proof.Laws.RoundTrip

open Sys2Proof.Machine

/-- Decoding the encoding of a well-formed instruction gives it back. -/
def Statement (i : Instr) : Prop := i.wellFormed = true → Sys2Proof.decode (Sys2Proof.encode i) = .ok i

/-- The bytes of a word, put together again. -/
theorem wordOfBytes_lanes (v : Word) :
    wordOfBytes (v.extractLsb' 0 8) (v.extractLsb' 8 8) (v.extractLsb' 16 8) (v.extractLsb' 24 8) = v := by
  ext i hi
  simp only [wordOfBytes]
  grind

theorem decode_command (w : Word) : Sys2Proof.decode (bytesOfWord w) = .ok (decodeCommand w) := by
  simp [Sys2Proof.decode, bytesOfWord, wordOfBytes_lanes]

theorem decode_txn (t : BusTxn) : Sys2Proof.decode (bytesOfTxn t) = .ok (decodeBus t) := by
  have h1 : (t.attr.setWidth 8).extractLsb' 2 6 = 0#6 := by
    generalize t.attr = a
    revert a
    decide
  have h2 : (t.attr.setWidth 8).extractLsb' 0 2 = t.attr := by
    generalize t.attr = a
    revert a
    decide
  simp [Sys2Proof.decode, bytesOfTxn, bytesOfWord, wordOfBytes_lanes, h1, h2]

theorem nop : Statement .nop := fun _ => by decide
theorem clear : Statement .clear := fun _ => by decide
theorem analyze : Statement .analyze := fun _ => by decide
theorem build : Statement .build := fun _ => by decide
theorem encode : Statement .encode := fun _ => by decide
theorem decode : Statement .decode := fun _ => by decide

theorem illegal (word : Word) : Statement (.illegal word) := fun h => by
  have : isIllegalWord word = true := h
  simp [Sys2Proof.encode, commandWord, decode_command, decodeCommand, this]

theorem rd8 (addr : Word) : Statement (.rd8 addr) := fun _ => by
  simp [Sys2Proof.encode, commandWord, busTxn, decode_txn, decodeBus]

theorem rd32 (addr : Word) : Statement (.rd32 addr) := fun _ => by
  simp [Sys2Proof.encode, commandWord, busTxn, decode_txn, decodeBus]

theorem wr8 (addr : Word) (value : Byte) : Statement (.wr8 addr value) := fun _ => by
  have : (value.setWidth 32).extractLsb' 0 8 = value := by
    ext i hi
    have : i < 32 := by omega
    simp [this, BitVec.getLsbD_eq_getElem hi]
  simp [Sys2Proof.encode, commandWord, busTxn, decode_txn, decodeBus, this]

theorem wr32 (addr value : Word) : Statement (.wr32 addr value) := fun _ => by
  simp [Sys2Proof.encode, commandWord, busTxn, decode_txn, decodeBus]

end Sys2Proof.Laws.RoundTrip
end

