-- ==== Sys2Proof/Tests/Slice0.lean ====
section
/-! SUPPORT. Tests: the WellFormed smoke, words written out from the spec's encodings, the spec's own examples and
vectors (spec/95_test_vectors.md) for every instruction, and for every statement with hypotheses a witness. -/

namespace Sys2Proof.Tests

open Sys2Proof Sys2Proof.Machine

-- One proof at a time: a `decide +kernel` waits for the kernel, and a hundred that wait at once need too many threads.
set_option Elab.async false

/-! ### Helpers -/

/-- The state an instruction answers. -/
def after (i : Instr) (s : State) : State :=
  match exec i s with
  | .next t => t
  | _ => s

/-- `loadin` of bytes and `setlen` of their number, in one go. -/
def loaded (s : State) (bs : List Byte) : State :=
  { s with
    mem := bs.zipIdx.map fun p => (Config.ibufBase + p.2, p.1)
    inLen := BitVec.ofNat 32 bs.length }

/-- The conventions of spec/95_test_vectors.md: 64-byte buffers, from reset. -/
def start : State := State.resetWith { ibufBytes := 64, obufBytes := 64 } 0

def analyzed (bs : List Byte) : State := after .analyze (loaded start bs)

def built (bs : List Byte) : State := after .build (analyzed bs)

/-- `compress` of bytes. -/
def encoded (bs : List Byte) : State := after .encode (built bs)

/-- DECODE of a payload under the table of `bs`. -/
def decoded (bs p : List Byte) : State := after .decode (loaded (built bs) p)

def busy (s : State) : State := { s with status := { s.status with busy := true } }

/-- "aaabbc", the source's concrete scenario. -/
def aaabbc : List Byte := [0x61, 0x61, 0x61, 0x62, 0x62, 0x63]

def aabbcd : List Byte := [0x61, 0x61, 0x62, 0x62, 0x63, 0x64]

def aaaa : List Byte := [0x61, 0x61, 0x61, 0x61]

/-! ### WellFormed smoke and the constants of R7 -/

/-- The one check refuses `illegal` of the six command words of R111. -/
theorem test_wellFormed_refuses_legal_words_as_illegal :
    (Instr.illegal 0x00000000).wellFormed = false ∧ (Instr.illegal 0x00000005).wellFormed = false ∧
    (Instr.illegal 0x00000006).wellFormed = true ∧ (Instr.illegal 0x00000100).wellFormed = true := by decide

theorem test_constants_of_R7 : Config.nsymMax = 256 ∧ Config.nodeMax = 511 ∧ Config.maxLen = 255 ∧ Config.hdrW = 8 ∧
    Config.nodeMax = 2 * Config.nsymMax - 1 ∧ Config.maxLen = Config.nsymMax - 1 := by decide

/-! ### Decoding: words from R111 and R114 -/

theorem test_decode_nop : decode [0b00000000, 0b00000000, 0b00000000, 0b00000000] = .ok .nop := by decide
theorem test_decode_clear : decode [0b00000001, 0b00000000, 0b00000000, 0b00000000] = .ok .clear := by decide
theorem test_decode_analyze : decode [0b00000010, 0b00000000, 0b00000000, 0b00000000] = .ok .analyze := by decide
theorem test_decode_build : decode [0b00000011, 0b00000000, 0b00000000, 0b00000000] = .ok .build := by decide
theorem test_decode_encode : decode [0b00000100, 0b00000000, 0b00000000, 0b00000000] = .ok .encode := by decide
theorem test_decode_decode : decode [0b00000101, 0b00000000, 0b00000000, 0b00000000] = .ok .decode := by decide
/-- Vectors I1 to I4. -/
theorem test_decode_illegal :
    decode [0b00000110, 0b00000000, 0b00000000, 0b00000000] = .ok (.illegal 0x00000006) ∧
    decode [0b11111111, 0b00000000, 0b00000000, 0b00000000] = .ok (.illegal 0x000000FF) ∧
    decode [0b00000110, 0b00000001, 0b00000000, 0b00000000] = .ok (.illegal 0x00000106) ∧
    decode [0b00000010, 0b00000001, 0b00000000, 0b00000000] = .ok (.illegal 0x00000102) := by decide
/-- Program P1: rd8 OBUF+1. -/
theorem test_decode_rd8 : decode [0b00, 0x01, 0x00, 0x00, 0x02, 0, 0, 0, 0] = .ok (.rd8 0x02000001) := by decide
/-- Program P1: rd32 OUT_LEN. -/
theorem test_decode_rd32 : decode [0b01, 0x1C, 0x00, 0x00, 0x00, 0, 0, 0, 0] = .ok (.rd32 0x0000001C) := by decide
/-- Program P1: the WR8 of 0x63 to IBUF+5; a byte write uses WDATA[7:0] only (R114). -/
theorem test_decode_wr8 :
    decode [0b10, 0x05, 0x00, 0x00, 0x01, 0x63, 0, 0, 0] = .ok (.wr8 0x01000005 0x63) ∧
    decode [0b10, 0x05, 0x00, 0x00, 0x01, 0x63, 0xFF, 0xFF, 0xFF] = .ok (.wr8 0x01000005 0x63) := by decide
/-- Program P5: WR32 of 0x106 to CMD. -/
theorem test_decode_wr32 :
    decode [0b11, 0x08, 0x00, 0x00, 0x00, 0x06, 0x01, 0, 0] = .ok (.wr32 0x00000008 0x00000106) := by decide

theorem test_decode_rejects_by_name :
    decode [0, 0, 0] = .error (.wrongLength 3) ∧
    decode [0b100, 0, 0, 0, 0, 0, 0, 0, 0] = .error (.attrTooWide 0b100) := by decide

theorem test_decodeTableWord :
    decodeTableWord 32 0x00000004 = some .encode ∧ decodeTableWord 32 0xFFFFFFFF = some (.illegal 0xFFFFFFFF) ∧
    decodeTableWord 8 0b00 = some (.rd8 0) ∧ decodeTableWord 8 0b01 = some (.rd32 0) ∧
    decodeTableWord 8 0b10 = some (.wr8 0 0) ∧ decodeTableWord 8 0b11 = some (.wr32 0 0) := by decide

/-- A placed word runs as the first instruction after reset: ANALYZE of nothing, DECODE without a tree, RD32 of ID. -/
theorem test_placed_word_runs :
    (match step (State.reset.withFetchWord 32 2) with | .next t => some t.errCode | _ => none) = some .emptyInput ∧
    (match step (State.reset.withFetchWord 32 5) with | .next t => some t.errCode | _ => none) = some .notReady ∧
    (match step (State.reset.withFetchWord 8 1) with | .next t => t.rdata | _ => none) = some 0x48430007 := by
  decide +kernel

/-- The transactions of program P1's statements. -/
theorem test_statements_of_P1 :
    decodeBus (Stmt.wr32 (regAddr .ctrl) 1).txn = .wr32 0x00000004 1 ∧
    loadinEvents [0x61, 0x62] = [.host ⟨0b10, 0x01000000, 0x61⟩, .host ⟨0b10, 0x01000001, 0x62⟩] ∧
    setlenEvents 6 = [.host ⟨0b11, 0x00000018, 6⟩] ∧
    runEvents 0 2 = [.host ⟨0b11, 0x00000008, 2⟩, .engine, .host ⟨0b01, 0x0000000C, 0⟩] := by decide

/-! ### The instructions -/

/-- Vector C1. -/
theorem test_nop : (after .nop (busy start)).status.word = 0x02 ∧ (after .nop (busy start)).errCode = .none := by
  decide +kernel

/-- Vector C3. -/
theorem test_clear :
    let t := after .clear (encoded aaabbc)
    t.status.word = 0x02 ∧ t.nsym = 0 ∧ t.outLen = 0 ∧ t.rootWord = 0 ∧
    t.readByte 0x02000000 = 0x07 ∧ t.readByte 0x02000001 = 0x1F ∧ t.readByte 0x02000002 = 0x00 := by decide +kernel

/-- Vector A3: first occurrence, not byte order. -/
theorem test_analyze_order :
    let t := analyzed [0x62, 0x61]
    t.symbols = [0x62, 0x61] ∧ t.nsym = 2 ∧ t.total = 2 ∧ t.status.word = 0x0A ∧
    tableAt t.freq 0x61 = 1 ∧ tableAt t.freq 0x62 = 1 ∧ tableAt t.freq 0x63 = 0 := by decide +kernel

/-- Vector A8: the table is replaced, the tree invalidated, OUT_LEN kept. -/
theorem test_analyze_replaces :
    let t := after .analyze (loaded (encoded aaabbc) [0x61, 0x61, 0x7A, 0x62, 0x62, 0x63])
    t.symbols = [0x61, 0x7A, 0x62, 0x63] ∧ tableAt t.freq 0x61 = 2 ∧ t.status.word = 0x0A ∧ t.outLen = 3 := by
  decide +kernel

/-- Vector B3: ties broken by seq. -/
theorem test_build_ties :
    let t := built aabbcd
    t.rootWord = 0x00070006 ∧ t.nodeAt 4 = { leaf := false, sym := 0, w := 2, left := 2, right := 3 } ∧
    t.nodeAt 5 = { leaf := false, sym := 0, w := 4, left := 0, right := 1 } ∧
    t.nodeAt 6 = { leaf := false, sym := 0, w := 6, left := 4, right := 5 } ∧
    t.codeFor 0x63 = [false, false] ∧ t.codeFor 0x62 = [true, true] := by decide +kernel

/-- Vector B5: the degenerate case. -/
theorem test_build_degenerate :
    let t := built aaaa
    t.rootWord = 0x00010000 ∧ t.status.word = 0x3A ∧ t.codeFor 0x61 = [false] ∧ tableAt t.clen 0x62 = 0 := by
  decide +kernel

/-- Vector E2. -/
theorem test_encode :
    let t := encoded aabbcd
    t.outputBytes = [0x04, 0xAF, 0x10] ∧ t.bitLen = 12 ∧ t.pad = 4 ∧ t.errCode = .none := by decide +kernel

/-- Vector E16: the first symbol without a code. -/
theorem test_encode_unknown :
    let t := after .encode (loaded (built aaabbc) [0x61, 0x61, 0x7A, 0x62, 0x62, 0x63])
    t.errCode = .unknownSymbol ∧ t.errInfo = 0x7A000002 ∧ t.status.word = 0x1E ∧ t.outLen = 0 := by decide +kernel

/-- Vector D2: the padding bits are not checked. -/
theorem test_decode :
    let t := decoded aaabbc [0x07, 0x1F, 0x01]
    t.outputBytes = aaabbc ∧ t.bitLen = 9 ∧ t.pad = 7 ∧ t.errCode = .none := by decide +kernel

/-- Vector D11: a leftover candidate in the degenerate case. -/
theorem test_decode_leftover :
    let t := decoded aaaa [0x04, 0x40]
    t.errCode = .malformedPayload ∧ t.errInfo = 0x30000003 ∧ t.outLen = 0 := by decide +kernel

/-- Vector I4. -/
theorem test_illegal :
    let t := after (.illegal 0x00000102) (busy start)
    t.errCode = .illegalCmd ∧ t.errInfo = 0x00000102 ∧ t.status.word = 0x06 := by decide +kernel

/-- IBUF[0..3] = "aaab", the start of the vectors M1 to M12. -/
def aaab : State := loaded start [0x61, 0x61, 0x61, 0x62]

/-- Vectors M2 and M5. -/
theorem test_rd8 :
    (after (.rd8 0x01000003) aaab).rdata = some 0x62 ∧
    (after (.rd8 0x00000000) aaab).rdata = some 0 ∧ (after (.rd8 0x00000000) aaab).status.word = 0x80 := by
  decide +kernel

/-- Vectors M1, M4 and M7. -/
theorem test_rd32 :
    (after (.rd32 0x01000000) aaab).rdata = some 0x62616161 ∧
    (after (.rd32 0x01000001) aaab).rdata = some 0 ∧ (after (.rd32 0x01000001) aaab).status.word = 0x80 ∧
    (after (.rd32 0x0000004C) aaab).status.word = 0x80 := by decide +kernel

/-- The readback after B1, at SEL = 1 and SEL = 0x161. -/
theorem test_rd32_readback :
    let s := { built aaabbc with sel := 0x001 }
    let u := { built aaabbc with sel := 0x161 }
    (after (.rd32 0x0000003C) s).rdata = some 0x00000162 ∧ (after (.rd32 0x00000044) s).rdata = some 0x81880000 ∧
    (after (.rd32 0x00000048) s).rdata = some 2 ∧ (after (.rd32 0x00000038) u).rdata = some 3 ∧
    (after (.rd32 0x00000040) u).rdata = some 1 ∧ (after (.rd32 0x00000044) u).rdata = some 0 := by decide +kernel

/-- Vector M6, and the WR8 of "Writes while BUSY". -/
theorem test_wr8 :
    (after (.wr8 0x00000004 1) aaab).status.word = 0x80 ∧ (after (.wr8 0x00000004 1) aaab).ctrl.word = 0 ∧
    (after (.wr8 0x01000000 0x62) (busy aaab)).status.word = 0x41 ∧
    (after (.wr8 0x01000000 0x62) (busy aaab)).readByte 0x01000000 = 0x61 := by decide +kernel

/-- Vector M3. -/
theorem test_wr32 :
    let t := after (.wr32 0x01000004 0x44332211) aaab
    t.readByte 0x01000004 = 0x11 ∧ t.readByte 0x01000007 = 0x44 ∧ t.readByte 0x01000003 = 0x62 := by decide +kernel

/-- ISSUE while idle, and while BUSY (I5). -/
theorem test_wr32_cmd :
    (after (.wr32 0x00000008 2) aaab).status.word = 0x01 ∧ (after (.wr32 0x00000008 2) aaab).pending = 2 ∧
    (after (.wr32 0x00000008 2) (busy aaab)).status.word = 0x41 ∧
    (after (.wr32 0x00000008 2) (busy aaab)).pending = 0 := by decide +kernel

/-! ### Witnesses: for each statement with hypotheses, states and operands that meet them, clause by clause -/

theorem witness_DecodeOfEncodeIsTheInstruction :
    (Instr.illegal 0x00000006).wellFormed = true ∧ (Instr.illegal 0x00000100).wellFormed = true ∧
    (Instr.wr8 0x01000000 0x62).wellFormed = true := by decide

theorem witness_EncodeOfDecodeIsTheWord :
    (⟨0b10, 0x01000000, 0x62⟩ : BusTxn).attr = 0b10 ∧ (⟨0b11, 0x00000018, 6⟩ : BusTxn).attr = 0b11 := by decide

/-- Words 5 and 6 stand on the two sides of OPC's bound, 0x100 has the least RSV that is not 0. -/
theorem witness_IllegalWordsIssueAndFail :
    ¬ (6 ≤ ((5 : Word).extractLsb' 0 8).toNat ∨ (5 : Word).extractLsb' 8 24 ≠ 0) ∧
    6 ≤ ((6 : Word).extractLsb' 0 8).toNat ∧ (0x100 : Word).extractLsb' 8 24 ≠ 0 ∧
    start.status.busy = false := by decide +kernel

theorem witness_PackAndUnpackAreInverses :
    8 ∣ (List.replicate 16 true).length ∧ 1 < (pack (List.replicate 16 true)).length ∧ (7 : Nat) < 8 := by decide

theorem witness_StepRunsTheDecodedInstruction :
    ({ start with schedule := [.host ⟨0b01, 0, 0⟩] } : State).schedule = .host ⟨0b01, 0, 0⟩ :: [] ∧
    decode (bytesOfTxn ⟨0b01, 0, 0⟩) = .ok (.rd32 0) ∧
    (busy start).status.busy = true ∧ decode (bytesOfWord (busy start).pending) = .ok .nop ∧
    (busy start).schedule = [] ∧
    ({ busy start with schedule := [.engine] } : State).schedule = .engine :: [] ∧
    start.status.busy = false ∧ start.schedule = [] ∧
    ({ start with schedule := [.engine] } : State).schedule = .engine :: [] := by decide +kernel

theorem witness_PlacedWordIsRunNext :
    0xFFFFFFFF < 2 ^ 32 ∧ decodeTableWord 32 0xFFFFFFFF = some (.illegal 0xFFFFFFFF) ∧
    3 < 4 ∧ decodeTableWord 8 3 = some (.wr32 0 0) := by decide

theorem witness_ResetEventResetsTheBlock :
    ∃ s : State, s.schedule = .reset :: [.engine] ∧ s.status.busy = true :=
  ⟨{ busy start with schedule := [.reset, .engine] }, rfl, rfl⟩

/-- A length one past IBUF_BYTES, and 0. -/
theorem witness_AnalyzeRejectsABadLength :
    ({ start with inLen := 65 } : State).sizes.ibufBytes < ({ start with inLen := 65 } : State).inLen.toNat ∧
    start.inLen = 0 := by decide +kernel

/-- The least and the greatest length. -/
theorem witness_AnalyzeReplacesTheTable :
    start.sizes.Valid ∧ 1 ≤ ({ start with inLen := 1 } : State).inLen.toNat ∧
    ({ start with inLen := 64 } : State).inLen.toNat ≤ start.sizes.ibufBytes := by decide +kernel

theorem witness_AnalyzeTableTotals :
    ∃ t : State, (loaded start aaabbc).sizes.Valid ∧ exec .analyze (loaded start aaabbc) = .next t ∧
      t.errCode = .none ∧ 0 < t.nsym.toNat ∧ 2 < t.nsym.toNat :=
  ⟨_, by decide +kernel, rfl, by decide +kernel⟩

theorem witness_BuildNeedsAFrequencyTable : start.status.freqValid = false := rfl

theorem witness_BuildCompletesWithATable : (analyzed aaabbc).status.freqValid = true := by decide +kernel

theorem inv_loaded_start (bs : List Byte) (hw : (loaded start bs).mem.wf)
    (hm : ∀ c ∈ (loaded start bs).mem, (loaded start bs).InIbuf c.1 ∨ (loaded start bs).InObuf c.1) :
    (loaded start bs).Inv where
  sizes_valid := by show start.sizes.Valid; decide +kernel
  mem_wf := hw
  mem_mapped := hm
  draws_past := by show 0 < 1 ∧ 0 < 1; decide
  busy_clear := by intro h; cases h
  pad_le := Nat.zero_le 8
  tree_freq := by intro h; cases h
  degen_iff := by
    constructor
    · intro h; cases h
    · rintro ⟨h, -⟩; cases h
  table := by intro h; cases h
  tree := by intro h; cases h

theorem inv_loaded_aaabbc : (loaded start aaabbc).Inv :=
  inv_loaded_start _ (by decide +kernel) (by decide +kernel)

theorem inv_loaded_aaaa : (loaded start aaaa).Inv := inv_loaded_start _ (by decide +kernel) (by decide +kernel)

theorem inv_analyzed {bs : List Byte} (h : (loaded start bs).Inv) (h1 : 1 ≤ (loaded start bs).inLen.toNat)
    (h2 : (loaded start bs).inLen.toNat ≤ 64) : (analyzed bs).Inv ∧ (analyzed bs).status.freqValid = true := by
  have e : analyzed bs =
      ((loaded start bs).commitTally (Tally.scan (loaded start bs).inputBytes)).finish .none 0 := by
    show complete (analyze (loaded start bs)) _ = _
    rw [analyze_ok h1 h2]
    rfl
  rw [e]
  exact ⟨h.analyzed h1, rfl⟩

theorem inv_built {bs : List Byte} (h : (analyzed bs).Inv ∧ (analyzed bs).status.freqValid = true) :
    (built bs).Inv ∧ (built bs).status.treeValid = true := by
  have e : built bs =
      ((analyzed bs).commitTree (Forest.build (analyzed bs).freq (analyzed bs).symbols)).finish .none 0 := by
    show complete (build (analyzed bs)) _ = _
    rw [build, if_pos h.2]
    rfl
  rw [e]
  exact ⟨h.1.built h.2, rfl⟩

theorem inv_withMem {s : State} {m : Memory} (h : s.Inv) (hw : m.wf)
    (hm : ∀ c ∈ m, s.InIbuf c.1 ∨ s.InObuf c.1) : ({ s with mem := m } : State).Inv :=
  ⟨h.sizes_valid, hw, hm, h.draws_past, h.busy_clear, h.pad_le, h.tree_freq, h.degen_iff,
    fun hv => (h.table hv).congr rfl rfl rfl rfl,
    fun hv => (h.tree hv).congr rfl rfl rfl rfl rfl rfl rfl rfl⟩

theorem inv_issue {s : State} (h : s.Inv) (v : Word) : (s.issue v).Inv :=
  ⟨h.sizes_valid, h.mem_wf, h.mem_mapped, h.draws_past, fun _ => ⟨rfl, rfl⟩, h.pad_le, h.tree_freq, h.degen_iff,
    fun hv => (h.table hv).congr rfl rfl rfl rfl,
    fun hv => (h.tree hv).congr rfl rfl rfl rfl rfl rfl rfl rfl⟩

theorem loaded_keeps (s : State) (bs : List Byte) : (loaded s bs).sizes = s.sizes ∧
    (loaded s bs).status = s.status ∧ (loaded s bs).node = s.node ∧ (loaded s bs).rootIdx = s.rootIdx :=
  ⟨rfl, rfl, rfl, rfl⟩

theorem inv_aaabbc : (analyzed aaabbc).Inv ∧ (analyzed aaabbc).status.freqValid = true :=
  inv_analyzed inv_loaded_aaabbc (by decide) (by decide)

theorem inv_aaaa : (analyzed aaaa).Inv ∧ (analyzed aaaa).status.freqValid = true :=
  inv_analyzed inv_loaded_aaaa (by decide) (by decide)

theorem inv_built_aaabbc : (built aaabbc).Inv ∧ (built aaabbc).status.treeValid = true := inv_built inv_aaabbc

theorem inv_built_aaaa : (built aaaa).Inv ∧ (built aaaa).status.treeValid = true := inv_built inv_aaaa

/-- Three symbols: leaves 0 to 2, internal nodes 3 and 4, the bounds of both ranges. -/
theorem witness_BuildArenaHasLeavesThenInnerNodes :
    ∃ s t : State, s.Inv ∧ s.status.freqValid = true ∧ exec .build s = .next t ∧
      (0 : NodeIdx).toNat < s.nsym.toNat ∧ (2 : NodeIdx).toNat < s.nsym.toNat ∧
      s.nsym.toNat ≤ (3 : NodeIdx).toNat ∧ (4 : NodeIdx).toNat < t.nnodes.toNat :=
  ⟨analyzed aaabbc, built aaabbc, inv_aaabbc.1, inv_aaabbc.2, rfl, by decide +kernel⟩

/-- At internal node 4 the queue holds the nodes 0 and 3 alone; at 3 also a third. -/
theorem witness_BuildJoinsTheTwoLeastNodes :
    ∃ s t : State, s.Inv ∧ s.status.freqValid = true ∧ exec .build s = .next t ∧
      s.nsym.toNat ≤ (3 : NodeIdx).toNat ∧ (4 : NodeIdx).toNat < t.nnodes.toNat ∧
      t.Live s.nsym.toNat 3 0 ∧ (0 : NodeIdx) ≠ (t.nodeAt 3).left ∧ (0 : NodeIdx) ≠ (t.nodeAt 3).right := by
  refine ⟨analyzed aaabbc, built aaabbc, inv_aaabbc.1, inv_aaabbc.2, rfl, by decide +kernel, by decide +kernel,
    ⟨by decide, fun k h1 h2 => ?_⟩, by decide +kernel⟩
  have h1' : (3 : NodeIdx).toNat ≤ k.toNat := h1
  exact absurd h2 (BitVec.not_lt.mpr (BitVec.le_def.mpr h1'))

theorem witness_BuildCodesArePrefixFreeAndInverse :
    ∃ s t : State, s.Inv ∧ s.status.freqValid = true ∧ exec .build s = .next t ∧ s.nsym ≠ 1 ∧
      t.Leads 0x61 t.rootIdx [false] ∧ t.HasCode 0x61 ∧ t.HasCode 0x62 ∧ (0x61 : Byte) ≠ 0x62 := by
  refine ⟨analyzed aaabbc, built aaabbc, inv_aaabbc.1, inv_aaabbc.2, rfl, by decide +kernel, ?_, by decide +kernel⟩
  exact ⟨by decide +kernel, by decide +kernel, by decide +kernel⟩

theorem witness_BuildGivesASingleSymbolTheCodeZero :
    ∃ s t : State, s.Inv ∧ s.status.freqValid = true ∧ s.nsym = 1 ∧ exec .build s = .next t :=
  ⟨analyzed aaaa, built aaaa, inv_aaaa.1, inv_aaaa.2, by decide +kernel, rfl⟩

/-- The table of "aaaa" and, after BUILD, an input that holds 0x62. -/
theorem witness_AbsentSymbolsHaveNoCode :
    ∃ s t u : State, s.Inv ∧ s.status.freqValid = true ∧ exec .build s = .next t ∧ exec .encode t = .next u ∧
      t.inLen.toNat ≤ t.sizes.ibufBytes ∧ ∃ b ∈ t.inputBytes, tableAt s.freq b = 0 := by
  have h := inv_withMem inv_aaaa.1 (m := (analyzed [0x61, 0x61, 0x61, 0x62]).mem) (by decide +kernel) (by decide +kernel)
  exact ⟨_, after .build { analyzed aaaa with mem := (analyzed [0x61, 0x61, 0x61, 0x62]).mem }, _, h, inv_aaaa.2, rfl, rfl,
    by decide +kernel, 0x62, by decide +kernel, by decide +kernel⟩

theorem witness_CodesAndWalksEndWithinMaxlen :
    ∃ s t : State, s.Inv ∧ s.status.freqValid = true ∧ exec .build s = .next t ∧ t.HasCode 0x61 ∧
      t.status.degen = false ∧ (List.replicate 255 true).length = Config.maxLen :=
  ⟨analyzed aaabbc, built aaabbc, inv_aaabbc.1, inv_aaabbc.2, rfl, by decide +kernel⟩

theorem witness_PopminTakesTheLeastKey :
    ∃ q q' : List QElem, q ≠ [] ∧ (q.map QElem.seq).Nodup ∧ q.Perm q' ∧ q ≠ q' :=
  ⟨[⟨1, 0, 0⟩, ⟨1, 1, 1⟩], [⟨1, 1, 1⟩, ⟨1, 0, 0⟩], by decide, by decide, .swap _ _ _, by decide⟩

/-! Then ENCODE and DECODE. -/

theorem witness_EncodeChecksBeforeItsData :
    start.status.treeValid = false ∧ (built aaabbc).status.treeValid = true ∧
    ({ built aaabbc with inLen := 65 } : State).sizes.ibufBytes < ({ built aaabbc with inLen := 65 } : State).inLen.toNat ∧
    ({ built aaabbc with inLen := 0 } : State).inLen = 0 := by decide +kernel

/-- Index 0 as well as an index after symbols that have codes. -/
theorem witness_EncodeReportsTheFirstUnknownSymbol :
    (∃ (s : State) (h : 0 < s.inputBytes.length), s.sizes.Valid ∧ s.status.treeValid = true ∧
      s.inLen.toNat ≤ s.sizes.ibufBytes ∧ ¬ s.HasCode s.inputBytes[0]) ∧
    (∃ (s : State) (h : 1 < s.inputBytes.length), s.sizes.Valid ∧ s.status.treeValid = true ∧
      s.inLen.toNat ≤ s.sizes.ibufBytes ∧ ¬ s.HasCode s.inputBytes[1] ∧
      ∀ (j : Nat) (hj : j < 1), s.HasCode (s.inputBytes[j]'(Nat.lt_trans hj h))) :=
  ⟨⟨loaded (built aaabbc) [0x7A], by decide +kernel, by decide +kernel, by decide +kernel, by decide +kernel,
      by decide +kernel⟩,
   ⟨loaded (built aaabbc) [0x61, 0x7A], by decide +kernel, by decide +kernel, by decide +kernel, by decide +kernel,
      by decide +kernel, by
        intro j hj
        obtain rfl : j = 0 := by omega
        exact (by decide +kernel : ∀ h : 0 < (loaded (built aaabbc) [0x61, 0x7A]).inputBytes.length,
          (loaded (built aaabbc) [0x61, 0x7A]).HasCode
            ((loaded (built aaabbc) [0x61, 0x7A]).inputBytes[0]'h)) _⟩⟩

/-- The payload of "aaabbc" has 3 bytes: OBUF of 64 and of 3 hold it, OBUF of 2 does not. -/
theorem witness_EncodeWritesThePayload :
    (built aaabbc).sizes.Valid ∧ (built aaabbc).status.treeValid = true ∧ 1 ≤ (built aaabbc).inLen.toNat ∧
    (built aaabbc).inLen.toNat ≤ (built aaabbc).sizes.ibufBytes ∧
    (∀ b ∈ (built aaabbc).inputBytes, (built aaabbc).HasCode b) ∧
    ((built aaabbc).inputBytes.flatMap (built aaabbc).codeFor).length = 9 ∧ 7 = 8 - 9 % 8 ∧ 3 = (8 + 9 + 7) / 8 ∧
    ({ built aaabbc with sizes := ⟨64, 3⟩ } : State).sizes.Valid ∧
    3 ≤ ({ built aaabbc with sizes := ⟨64, 3⟩ } : State).sizes.obufBytes ∧
    ({ built aaabbc with sizes := ⟨64, 2⟩ } : State).sizes.Valid ∧
    ({ built aaabbc with sizes := ⟨64, 2⟩ } : State).sizes.obufBytes < 3 := by decide +kernel

theorem witness_EncodedLengthAndHeader :
    ∃ t : State, (built aaabbc).sizes.Valid ∧ exec .encode (built aaabbc) = .next t ∧ t.errCode = .none :=
  ⟨_, by decide +kernel, rfl, by decide +kernel⟩

/-- Lengths 65, 1 and 2, and the headers 0 and 9. -/
theorem witness_DecodeChecksBeforeTheBody :
    start.status.treeValid = false ∧ (built aaabbc).status.treeValid = true ∧
    ({ built aaabbc with inLen := 65 } : State).sizes.ibufBytes < ({ built aaabbc with inLen := 65 } : State).inLen.toNat ∧
    (loaded (built aaabbc) [0x07]).inLen.toNat < 2 ∧
    (loaded (built aaabbc) [0x07]).inLen.toNat ≤ (built aaabbc).sizes.ibufBytes ∧
    2 ≤ (loaded (built aaabbc) [0x00, 0x1F]).inLen.toNat ∧
    ((loaded (built aaabbc) [0x00, 0x1F]).readByte Config.ibufBase).toNat < 1 ∧
    8 < ((loaded (built aaabbc) [0x09, 0x1F]).readByte Config.ibufBase).toNat := by decide +kernel

/-- "aaabbc" from its payload; a leftover bit; six symbols for an OBUF of five bytes. -/
theorem witness_DecodeWritesTheWalkedSymbols :
    let s := loaded (built aaabbc) [0x07, 0x1F, 0x00]
    let body := ((unpack s.inputBytes).take (8 * s.inLen.toNat - 7)).drop 8
    let s' := loaded (built aaabbc) [0x08, 0x01, 0x00]
    let body' := ((unpack s'.inputBytes).take (8 * s'.inLen.toNat - 8)).drop 8
    (s.sizes.Valid ∧ s.status.treeValid = true ∧ 2 ≤ s.inLen.toNat ∧ s.inLen.toNat ≤ s.sizes.ibufBytes ∧
      (s.readByte Config.ibufBase).toNat = 7) ∧
    ((s.walk body).2 = 0 ∧ (s.walk body).1.length ≤ s.sizes.obufBytes) ∧
    (({ s with sizes := ⟨64, 5⟩ } : State).sizes.Valid ∧
      ({ s with sizes := ⟨64, 5⟩ } : State).sizes.obufBytes < (s.walk body).1.length) ∧
    (2 ≤ s'.inLen.toNat ∧ (s'.readByte Config.ibufBase).toNat = 8 ∧ (s'.walk body').2 ≠ 0) := by decide +kernel

/-- Vectors D1 and D2: the payload of "aaabbc" and the same with a padding bit set. -/
theorem witness_DecodeIgnoresThePaddingBits :
    let s := loaded (built aaabbc) [0x07, 0x1F, 0x00]
    let u := { s with mem := (loaded (built aaabbc) [0x07, 0x1F, 0x01]).mem }
    s.sizes.Valid ∧ 2 ≤ s.inLen.toNat ∧ s.inLen.toNat ≤ s.sizes.ibufBytes ∧ s.mem ≠ u.mem ∧
    (s.readByte Config.ibufBase).toNat = 7 ∧
    (unpack s.inputBytes).take (max 8 17) = (unpack u.inputBytes).take (max 8 17) := by decide +kernel

theorem witness_WalkAgreesWithCandidateMatching :
    ((built aaabbc).Inv ∧ (built aaabbc).status.treeValid = true) ∧
    ((built aaaa).Inv ∧ (built aaaa).status.treeValid = true) := ⟨inv_built_aaabbc, inv_built_aaaa⟩

theorem witness_RoundTripGivesTheInputBack :
    ∃ s s1 s2 s3 r t : State, s.Inv ∧ 1 ≤ s.inLen.toNat ∧ s.inLen.toNat ≤ s.sizes.ibufBytes ∧
      exec .analyze s = .next s1 ∧ exec .build s1 = .next s2 ∧ exec .encode s2 = .next s3 ∧
      s3.errCode ≠ .outputOverflow ∧ s3.outLen.toNat ≤ s.sizes.ibufBytes ∧
      r.sizes = s3.sizes ∧ r.status.treeValid = s3.status.treeValid ∧ r.status.degen = s3.status.degen ∧
      r.node = s3.node ∧ r.rootIdx = s3.rootIdx ∧ r.inLen = s3.outLen ∧ r.inputBytes = s3.outputBytes ∧
      exec .decode r = .next t ∧ t.errCode ≠ .outputOverflow := by
  have k := loaded_keeps (encoded aaabbc) (encoded aaabbc).outputBytes
  exact ⟨loaded start aaabbc, analyzed aaabbc, built aaabbc, encoded aaabbc,
    loaded (encoded aaabbc) (encoded aaabbc).outputBytes, _, inv_loaded_aaabbc, by decide, by decide, rfl, rfl, rfl,
    by decide +kernel, by decide +kernel, k.1, congrArg Status.treeValid k.2.1, congrArg Status.degen k.2.1, k.2.2.1,
    k.2.2.2, by decide +kernel, by decide +kernel, rfl, by decide +kernel⟩

/-! Then every command, and the transactions. -/

theorem witness_CompleteSignalsAndKeepsTheRest :
    ∀ i ∈ [Instr.nop, .clear, .analyze, .build, .encode, .decode, .illegal 0x00000006],
      Instr.isCommand i = true := by decide

/-- A failed ENCODE, a failed DECODE and a failed ANALYZE. -/
theorem witness_FailedCommandChangesNoCodecState :
    (∃ t : State, exec .encode start = .next t ∧ t.errCode ≠ .none) ∧
    (∃ t : State, exec .decode start = .next t ∧ t.errCode ≠ .none) ∧
    (∃ t : State, exec .analyze start = .next t ∧ t.errCode ≠ .none) ∧
    Instr.isCommand .encode = true ∧ Instr.isCommand .decode = true ∧ Instr.isCommand .analyze = true :=
  ⟨⟨_, rfl, by decide +kernel⟩, ⟨_, rfl, by decide +kernel⟩, ⟨_, rfl, by decide +kernel⟩, rfl, rfl, rfl⟩

theorem witness_ResultRegistersReadWhileIdle :
    start.status.busy = false ∧ start.status.treeValid = false ∧
    (built aaabbc).status.busy = false ∧ (built aaabbc).status.treeValid = true := by decide +kernel

/-- The last entry that IDX < NSYM admits, the first it does not, and no table. -/
theorem witness_TableReadbackWhileIdle :
    (analyzed aaabbc).status.busy = false ∧ (analyzed aaabbc).status.freqValid = true ∧
    ({ analyzed aaabbc with sel := 2 } : State).sel.toNat < (analyzed aaabbc).nsym.toNat ∧
    ¬ ({ analyzed aaabbc with sel := 3 } : State).sel.toNat < (analyzed aaabbc).nsym.toNat ∧
    start.status.busy = false ∧ ¬ start.status.freqValid = true := by decide +kernel

/-- The last entry that IDX < NNODES admits, the first it does not, and no tree. -/
theorem witness_CodeAndNodeReadbackWhileIdle :
    (built aaabbc).status.busy = false ∧ (built aaabbc).status.treeValid = true ∧
    ({ built aaabbc with sel := 4 } : State).sel.toNat < (built aaabbc).nnodes.toNat ∧
    ¬ ({ built aaabbc with sel := 5 } : State).sel.toNat < (built aaabbc).nnodes.toNat ∧
    start.status.busy = false ∧ ¬ start.status.treeValid = true := by decide +kernel

/-- The first and last byte, and the last word, of each buffer. -/
theorem witness_BusyReadsGiveFreeValues :
    let s := busy start
    s.sizes.Valid ∧ s.status.busy = true ∧
    RegName.errCode ∉ [RegName.id, .ctrl, .status, .inLen, .sel, .cmd] ∧
    RegName.cmd ∈ [RegName.id, .ctrl, .status, .inLen, .sel, .cmd] ∧
    s.InObuf (0x02000000 : Word).toNat ∧ s.InObuf (0x0200003F : Word).toNat ∧
    (0x0200003C : Word).toNat % 4 = 0 ∧ s.InObuf (0x0200003C : Word).toNat ∧
    s.InObuf ((0x0200003C : Word).toNat + 3) ∧
    s.InIbuf (0x01000000 : Word).toNat ∧ s.InIbuf (0x0100003F : Word).toNat ∧
    (0x0100003C : Word).toNat % 4 = 0 ∧ s.InIbuf (0x0100003C : Word).toNat ∧
    s.InIbuf ((0x0100003C : Word).toNat + 3) := by decide +kernel

theorem witness_BufferReadsAreLittleEndian :
    start.sizes.Valid ∧ start.status.busy = false ∧ (busy start).InIbuf (0x0100003F : Word).toNat ∧
    (0x0100003C : Word).toNat % 4 = 0 ∧ start.InIbuf (0x0100003C : Word).toNat ∧
    start.InIbuf ((0x0100003C : Word).toNat + 3) ∧ start.InObuf (0x0200003F : Word).toNat ∧
    (0x0200003C : Word).toNat % 4 = 0 ∧ start.InObuf (0x0200003C : Word).toNat ∧
    start.InObuf ((0x0200003C : Word).toNat + 3) := by decide +kernel

/-- A byte read and a word read, the second a bus error with BUS_ERR set before. -/
theorem witness_HostReadsHaveNoSideEffect :
    (∃ t : State, exec (.rd8 0x01000000) aaab = .next t) ∧
    (∃ s t : State, exec (.rd32 0x0000004C) s = .next t ∧ s.status.busErr = true) :=
  ⟨⟨_, rfl⟩, ⟨{ start with status := { start.status with busErr := true } }, _, rfl, rfl⟩⟩

theorem witness_BufferWritesAreLittleEndian :
    start.sizes.Valid ∧ start.status.busy = false ∧ start.InIbuf (0x0100003F : Word).toNat ∧
    start.InIbuf (0x0100003C : Word).toNat ∧ (0x0100003C : Word).toNat % 4 = 0 ∧
    start.InIbuf ((0x0100003C : Word).toNat + 3) := by decide +kernel

/-- No register stands at 0x04C, in the gap of the register map, nor at a buffer's addresses. -/
theorem not_regAddr : ∀ r : RegName, (0x0000004C : Word) ≠ regAddr r ∧ (0x0100003C : Word) ≠ regAddr r ∧
    (0x00001000 : Word) ≠ regAddr r ∧ (0x02000000 : Word) ≠ regAddr r := by
  intro r
  cases r with
  | codeBitsRd k => revert k; decide
  | _ => decide

/-- (a) just past IBUF and just past REG; (b) a register; (c) a misaligned word; (d) 0x04C; (e) OBUF; (f) the last word
of an IBUF of 62 bytes. -/
theorem witness_BusErrorsOnlySetBusErr :
    let z := { start with sizes := ⟨62, 64⟩ }
    start.sizes.Valid ∧ z.sizes.Valid ∧
    (¬ start.InIbuf (0x01000040 : Word).toNat ∧ ¬ start.InObuf (0x01000040 : Word).toNat) ∧
    (¬ start.InIbuf (0x00000004 : Word).toNat ∧ ¬ start.InObuf (0x00000004 : Word).toNat) ∧
    ¬ start.InIbuf (0x02000000 : Word).toNat ∧ (0x01000001 : Word).toNat % 4 ≠ 0 ∧
    (¬ (start.InIbuf (0x0000004C : Word).toNat ∧ start.InIbuf ((0x0000004C : Word).toNat + 3)) ∧
      ¬ (start.InObuf (0x0000004C : Word).toNat ∧ start.InObuf ((0x0000004C : Word).toNat + 3)) ∧
      ∀ r : RegName, (0x0000004C : Word) ≠ regAddr r) ∧
    (¬ (start.InIbuf (0x00001000 : Word).toNat ∧ start.InIbuf ((0x00001000 : Word).toNat + 3)) ∧
      ∀ r : RegName, (0x00001000 : Word) ≠ regAddr r) ∧
    (¬ (z.InIbuf (0x0100003C : Word).toNat ∧ z.InIbuf ((0x0100003C : Word).toNat + 3)) ∧
      ¬ (z.InObuf (0x0100003C : Word).toNat ∧ z.InObuf ((0x0100003C : Word).toNat + 3)) ∧
      ∀ r : RegName, (0x0100003C : Word) ≠ regAddr r) ∧
    (¬ (start.InIbuf (0x02000000 : Word).toNat ∧ start.InIbuf ((0x02000000 : Word).toNat + 3)) ∧
      ∀ r : RegName, (0x02000000 : Word) ≠ regAddr r) := by
  refine ⟨by decide +kernel, by decide +kernel, by decide +kernel, by decide +kernel, by decide +kernel, by decide,
    ⟨by decide +kernel, by decide +kernel, fun r => (not_regAddr r).1⟩,
    ⟨by decide +kernel, fun r => (not_regAddr r).2.2.1⟩,
    ⟨by decide +kernel, by decide +kernel, fun r => (not_regAddr r).2.1⟩,
    ⟨by decide +kernel, fun r => (not_regAddr r).2.2.2⟩⟩

/-- The last clause's premises: each of the four transactions sets BUS_ERR from 0 somewhere. -/
theorem witness_BusErrorsOnlySetBusErr_converse :
    (∃ t : State, exec (.rd8 0x01000040) start = .next t ∧ start.status.busErr = false ∧ t.status.busErr = true) ∧
    (∃ t : State, exec (.wr8 0x02000000 1) start = .next t ∧ t.status.busErr = true) ∧
    (∃ t : State, exec (.rd32 0x0000004C) start = .next t ∧ t.status.busErr = true) ∧
    (∃ t : State, exec (.wr32 0x00001000 1) start = .next t ∧ t.status.busErr = true) :=
  ⟨⟨_, rfl, rfl, by decide +kernel⟩, ⟨_, rfl, by decide +kernel⟩, ⟨_, rfl, by decide +kernel⟩,
    ⟨_, rfl, by decide +kernel⟩⟩

theorem witness_BusyWritesAreBlocked :
    let s := busy start
    s.sizes.Valid ∧ s.status.busy = true ∧ RegName.cmd ≠ .ctrl ∧ RegName.cmd ≠ .status ∧
    s.InIbuf (0x0100003F : Word).toNat ∧ (0x0100003C : Word).toNat % 4 = 0 ∧ s.InIbuf (0x0100003C : Word).toNat ∧
    s.InIbuf ((0x0100003C : Word).toNat + 3) := by decide +kernel

theorem witness_RegisterWritesTakeTheirFields :
    start.status.busy = false ∧ RegName.id ∉ [RegName.ctrl, .cmd, .status, .inLen, .sel] := by decide +kernel

theorem witness_CmdWriteIssuesWhileIdle : start.status.busy = false ∧ (busy start).status.busy = true := ⟨rfl, rfl⟩

theorem witness_IrqFollowsDoneAndErr :
    ((6 : Word).getLsbD 1 = true ∧ (6 : Word).getLsbD 2 = true ∧
      ∃ t : State, exec (.wr32 0x0000000C 6) start = .next t) ∧
    (start.status.busy = false ∧ ∃ t : State, exec (.wr32 0x00000008 2) start = .next t) ∧
    (Instr.isCommand .analyze = true ∧ ∃ t : State, exec .analyze start = .next t) :=
  ⟨⟨by decide, by decide, _, rfl⟩, ⟨rfl, _, rfl⟩, rfl, _, rfl⟩

/-! Then the whole machine. -/

theorem witness_EveryStepKeepsTheInvariant :
    ∃ s t : State, s.Inv ∧ s.status.busy = true ∧ s.status.treeValid = true ∧ step s = .next t :=
  ⟨_, _, inv_issue inv_built_aaabbc.1 4, rfl, inv_built_aaabbc.2, rfl⟩

theorem witness_ResetStateHasTheInvariant :
    (⟨1, 1⟩ : Config.Sizes).Valid ∧ (⟨2 ^ 24, 2 ^ 24⟩ : Config.Sizes).Valid := by decide

/-- A run from reset that analyses one input byte. -/
theorem witness_ReachableStatesSatisfyR69 :
    ∃ t : State, (⟨64, 64⟩ : Config.Sizes).Valid ∧
      Sys2Proof.core.run 4 { State.resetWith ⟨64, 64⟩ 0 with
        schedule := loadinEvents [0x61] ++ setlenEvents 1 ++ [(Stmt.cmd 2).event, .engine] } = .next t :=
  ⟨_, by decide, rfl⟩

theorem witness_OnlyAnalyzeAndClearChangeTheFrequencyTable :
    (∃ t : State, exec .encode (built aaabbc) = .next t ∧ Instr.encode ≠ .analyze ∧ Instr.encode ≠ .clear) ∧
    (∃ t : State, exec .analyze (analyzed aaabbc) = .next t ∧ (analyzed aaabbc).status.freqValid = true) ∧
    (∃ t : State, exec .clear (analyzed aaabbc) = .next t) :=
  ⟨⟨_, rfl, by decide, by decide⟩, ⟨_, rfl, inv_aaabbc.2⟩, _, rfl⟩

theorem witness_OnlyBuildMakesATree :
    (∃ t : State, exec .nop (built aaabbc) = .next t ∧ Instr.nop ≠ .build ∧ Instr.nop ≠ .clear ∧
      t.status.treeValid = true) ∧
    (∃ t : State, exec .analyze (built aaabbc) = .next t ∧ (built aaabbc).status.treeValid = true ∧
      t.status.treeValid = false) ∧
    (∃ t : State, exec .clear (built aaabbc) = .next t ∧ t.status.treeValid = false) :=
  ⟨⟨_, rfl, by decide, by decide, by decide +kernel⟩, ⟨_, rfl, inv_built_aaabbc.2, by decide +kernel⟩,
    ⟨_, rfl, by decide +kernel⟩⟩

theorem witness_StickyBitsNeedAStatusWrite :
    ∃ s t : State, exec (.wr32 0x0000000C 0xC0) s = .next t ∧ s.status.wrBlocked = true ∧
      t.status.wrBlocked = false ∧ s.status.busErr = true ∧ t.status.busErr = false :=
  ⟨{ start with status := { start.status with wrBlocked := true, busErr := true } }, _, rfl, rfl, by decide +kernel,
    rfl, by decide +kernel⟩

theorem witness_HostTransactionsKeepResults :
    ∃ s t : State, s.sizes.Valid ∧ Instr.isCommand (.wr8 0x01000000 0x62) = false ∧
      exec (.wr8 0x01000000 0x62) s = .next t ∧ s.InObuf 0x02000000 ∧ s.InObuf 0x0200003F ∧ t.status.done = true :=
  ⟨encoded aaabbc, _, by decide +kernel, rfl, rfl, by decide +kernel⟩

theorem witness_BusyFreezesTheCommandsInputs :
    ∃ s t : State, Instr.isCommand (.wr32 0x00000018 3) = false ∧ s.status.busy = true ∧
      exec (.wr32 0x00000018 3) s = .next t :=
  ⟨busy aaab, _, rfl, rfl, rfl⟩

theorem witness_CompleteIgnoresHostTransactions :
    ∃ s s' t u : State, Instr.isCommand .encode = true ∧ Instr.isCommand (.wr8 0x01000000 0x7A) = false ∧
      s.status.busy = true ∧ exec (.wr8 0x01000000 0x7A) s = .next s' ∧ exec .encode s' = .next t ∧
      exec .encode s = .next u ∧ u.errCode = .none :=
  ⟨busy (built aaabbc), _, _, _, rfl, rfl, rfl, rfl, rfl, rfl, by decide +kernel⟩

end Sys2Proof.Tests
end

section
/-! PROOFS. Bit strings, the queue and the length bounds of spec/00_scope.md (R9, R15, R17). -/

namespace Sys2Proof.Machine

/-! ### pack and unpack (R15) -/

theorem unpack_eq_flatMap (l : List Byte) : unpack l = l.flatMap bin8 := by
  induction l with
  | nil => rfl
  | cons v rest ih => rw [unpack, List.flatMap_cons, ih]

/-- Settles O5, from the laws of pack and unpack: `unpack_pack` cuts the string into bytes, the bit placement is
`getLsbD_pack`. -/
theorem packAndUnpackAreInverses : Obligations.PackAndUnpackAreInverses := by
  unfold Obligations.PackAndUnpackAreInverses
  refine ⟨fun s hs => ⟨length_pack hs, unpack_pack hs, fun j i hj hi => getLsbD_pack hs j i hj hi⟩, fun l => ?_⟩
  exact ⟨pack_unpack l, unpack_eq_flatMap l⟩

/-! ### popmin (R17) -/

/-- Among elements of different seq the key order is total. -/
theorem QElem.key_lt_of_not_before {a b : QElem} (hseq : a.seq ≠ b.seq) (h : b.before a = false) :
    a.weight < b.weight ∨ (a.weight = b.weight ∧ a.seq < b.seq) := by
  simp only [QElem.before, Bool.or_eq_false_iff, Bool.and_eq_false_iff, decide_eq_false_iff_not] at h
  omega

/-- With distinct seqs every element that popmin leaves has a greater key than the one it takes. -/
theorem popMin_least {q rest : List QElem} {e : QElem} (hq : (q.map QElem.seq).Nodup)
    (h : popMin q = some (e, rest)) :
    ∀ x ∈ rest, e.weight < x.weight ∨ (e.weight = x.weight ∧ e.seq < x.seq) := by
  obtain ⟨hperm, hmin⟩ := popMin_spec h
  have hnodup : ((e :: rest).map QElem.seq).Nodup := (hperm.map _).nodup_iff.1 hq
  rw [List.map_cons, List.nodup_cons] at hnodup
  intro x hx
  have hseq : e.seq ≠ x.seq := fun he => hnodup.1 (he ▸ List.mem_map_of_mem hx)
  exact QElem.key_lt_of_not_before hseq (hmin x hx)

/-- popmin does not depend on the order of the queue (R154): were the two least elements different, each would have
the greater key of the two. -/
theorem popMin_perm {q q' rest rest' : List QElem} {e e' : QElem} (hq : (q.map QElem.seq).Nodup) (hqq : q.Perm q')
    (h : popMin q = some (e, rest)) (h' : popMin q' = some (e', rest')) : e' = e ∧ rest.Perm rest' := by
  have hperm := (popMin_spec h).1
  have hperm' := (popMin_spec h').1
  have hboth : (e :: rest).Perm (e' :: rest') := hperm.symm.trans (hqq.trans hperm')
  have heq : e' = e := by
    rcases List.mem_cons.1 (hboth.symm.subset List.mem_cons_self) with heq | hin
    · exact heq
    rcases List.mem_cons.1 (hboth.subset List.mem_cons_self) with heq | hin'
    · exact heq.symm
    have hlt := popMin_least hq h e' hin
    have hgt := popMin_least ((hqq.map _).nodup_iff.1 hq) h' e hin'
    omega
  subst heq
  exact ⟨rfl, hboth.cons_inv⟩

theorem popMin_of_ne_nil {q : List QElem} (h : q ≠ []) : ∃ e rest, popMin q = some (e, rest) := by
  obtain ⟨⟨e, rest⟩, hpop⟩ := Option.ne_none_iff_exists'.1 (mt popMin_eq_none.1 h)
  exact ⟨e, rest, hpop⟩

/-- Settles O25: the key order is total on a queue of distinct seqs (`popMin_least`), so the least element does not
depend on the layout (`popMin_perm`). -/
theorem popminTakesTheLeastKey : Obligations.PopminTakesTheLeastKey := by
  unfold Obligations.PopminTakesTheLeastKey
  intro q hne hq
  obtain ⟨e, rest, hpop⟩ := popMin_of_ne_nil hne
  refine ⟨e, rest, hpop, (popMin_spec hpop).1, popMin_least hq hpop, fun q' hqq => ?_⟩
  have hne' : q' ≠ [] := fun hnil => hne (by simpa [hnil] using hqq)
  obtain ⟨e', rest', hpop'⟩ := popMin_of_ne_nil hne'
  obtain ⟨rfl, hrest⟩ := popMin_perm hq hqq hpop hpop'
  exact ⟨rest', hpop', hrest⟩

/-! ### Codes and walks (R9, R159) -/

/-- A bit string at least as long as the tree is deep leads from the root to a leaf. -/
theorem HTree.exists_path_prefix (T : HTree) (bits : Bits) (h : T.depth ≤ bits.length) :
    ∃ c ∈ T.paths, c.2 <+: bits := by
  induction T generalizing bits with
  | leaf sym => exact ⟨(sym, []), by simp [HTree.paths], List.nil_prefix⟩
  | node l r hl hr =>
    cases bits with
    | nil => simp [HTree.depth] at h
    | cons b rest =>
      simp only [HTree.depth, List.length_cons] at h
      cases b with
      | false =>
        obtain ⟨c, hc, hpre⟩ := hl rest (by omega)
        exact ⟨(c.1, false :: c.2), by simp [HTree.paths, hc], by simpa using hpre⟩
      | true =>
        obtain ⟨c, hc, hpre⟩ := hr rest (by omega)
        exact ⟨(c.1, true :: c.2), by simp [HTree.paths, hc], by simpa using hpre⟩

/-- BUILD with a frequency table commits the tree (R150). -/
theorem exec_build_of_freqValid {s : State} (h : s.status.freqValid = true) :
    exec .build s = .next ((s.commitTree (Forest.build s.freq s.symbols)).finish .none 0) := by
  simp only [exec, execBuild, build, h, if_true, complete]

theorem State.finish_leads (s : State) (code : ErrCode) (info : Word) (sym : Byte) (n : NodeIdx) (p : Bits) :
    (s.finish code info).Leads sym n p ↔ s.Leads sym n p :=
  State.leads_congr (s := s.finish code info) (t := s) rfl sym n p

/-- In the tree BUILD makes every walk of NSYM - 1 bits has reached a leaf. -/
theorem State.Built.exists_leads_prefix {s t : State} {f : Forest} (h : s.Built f t) (bits : Bits)
    (hlen : s.nsym.toNat - 1 ≤ bits.length) : ∃ (sym : Byte) (p : Bits), p <+: bits ∧ t.Leads sym t.rootIdx p := by
  obtain ⟨T, hrep, -, hdepth⟩ := h.rep
  obtain ⟨⟨sym, p⟩, hpath, hpre⟩ := T.exists_path_prefix bits (by omega)
  exact ⟨sym, p, hpre, (State.leads_iff h.holds hrep sym p).2 hpath⟩

/-- Settles O24: at most 256 symbols give a tree of depth at most 255 (`State.Built`), which bounds its paths, the
codes, and the walks. -/
theorem codesAndWalksEndWithinMaxlen : Obligations.CodesAndWalksEndWithinMaxlen := by
  unfold Obligations.CodesAndWalksEndWithinMaxlen
  intro s t hinv hfreq hexec
  rw [exec_build_of_freqValid hfreq, Host.Outcome.next.injEq] at hexec
  subst hexec
  have hbuilt := (hinv.table hfreq).built
  have hnsym := (hinv.table hfreq).nsym_le
  refine ⟨fun b hb => ?_, fun _ bits hbits => ?_⟩
  · have hcode := hbuilt.codes b hb
    refine ⟨hcode, hcode.trans ?_⟩
    simp only [Config.maxLen]
    omega
  · simp only [Config.maxLen] at hbits
    obtain ⟨sym, p, hpre, hleads⟩ := hbuilt.exists_leads_prefix bits (by omega)
    exact ⟨sym, p, hpre, (State.finish_leads _ _ _ sym _ p).2 hleads⟩

end Sys2Proof.Machine
end

section
/-! PROOFS. Steps: what the next event runs, and that a schedule is carried out (R5, R94, R246, R291). -/

namespace Sys2Proof.Machine

open Sys2Proof.Laws.RoundTrip (decode_command decode_txn)

/-! ### One step, by what is scheduled -/

theorem engineStep_of_busy {s : State} (h : s.status.busy = true) : engineStep s = exec s.pendingInstr s :=
  if_pos h

theorem engineStep_of_idle {s : State} (h : s.status.busy = false) : engineStep s = .next s := by
  simp [engineStep, h]

theorem step_of_nil {s : State} (h : s.schedule = []) : step s = engineStep s := by
  simp only [step, h]

theorem step_of_cons {s : State} {e : Event} {rest : List Event} (h : s.schedule = e :: rest) :
    step s = eventStep e { s with schedule := rest } := by
  simp only [step, h]

/-- Settles O6: `decode` of a transaction's or a command word's bytes is `decodeBus` or `decodeCommand`, which is what
`step` runs. -/
theorem stepRunsTheDecodedInstruction : Obligations.StepRunsTheDecodedInstruction := by
  unfold Obligations.StepRunsTheDecodedInstruction
  intro s rest
  refine ⟨fun t i hs hi => ?_, fun i hb hi => ?_, fun hb => ⟨fun hs => ?_, fun hs => ?_⟩⟩
  · rw [decode_txn, Except.ok.injEq] at hi
    rw [step_of_cons hs, ← hi]
    rfl
  · rw [decode_command, Except.ok.injEq] at hi
    subst hi
    refine ⟨fun hs => ?_, fun hs => ?_⟩
    · rw [step_of_cons hs]
      exact engineStep_of_busy hb
    · rw [step_of_nil hs]
      exact engineStep_of_busy hb
  · rw [step_of_cons hs]
    exact engineStep_of_idle hb
  · rw [step_of_nil hs]
    exact engineStep_of_idle hb

/-! ### A placed table word -/

/-- The four bytes of a number are those of its 32-bit word. -/
theorem bytesOfNat_four (w : Nat) : bytesOfNat 4 w = bytesOfWord (BitVec.ofNat 32 w) := by
  have hbyte : ∀ k, k ≤ 24 → BitVec.ofNat 8 (w / 2 ^ k) = (BitVec.ofNat 32 w).extractLsb' k 8 := fun k hk => by
    ext i hi
    have : k + i < 32 := by omega
    simp [← BitVec.getLsbD_eq_getElem, BitVec.getLsbD_ofNat, hi, this, Nat.testBit_div_two_pow, Nat.add_comm]
  simp [bytesOfNat, bytesOfWord, List.range_succ, ← hbyte]

/-- A row of 32 bits is read as a command word. -/
theorem decodeTableWord_command {w : Nat} (h : w < 2 ^ 32) :
    decodeTableWord 32 w = some (decodeCommand (BitVec.ofNat 32 w)) := by
  simp only [decodeTableWord, instrBytes, if_true, Nat.mod_eq_of_lt h, bytesOfNat_four, decode_command]

/-- A row of 8 bits whose value has only the two ATTR bits is read as a transaction of operands 0. -/
theorem decodeTableWord_bus {w : Nat} (h : w < 4) :
    decodeTableWord 8 w = some (decodeBus { attr := BitVec.ofNat 2 w, addr := 0, wdata := 0 }) := by
  interval_cases w <;> decide

/-- A placed bus row stands next in the schedule as the transaction of its ATTR bits and operands 0. -/
theorem State.withFetchWord_bus (s : State) {w : Nat} (h : w < 4) :
    s.withFetchWord 8 w =
      { s with schedule := .host { attr := BitVec.ofNat 2 w, addr := 0, wdata := 0 } :: s.schedule } := by
  have hn : w % 2 ^ 8 = w := Nat.mod_eq_of_lt (by omega)
  have haddr : w / 2 ^ 8 = 0 := Nat.div_eq_of_lt (by omega)
  have hdata : w / 2 ^ 40 = 0 := Nat.div_eq_of_lt (by omega)
  simp only [State.withFetchWord, hn, haddr, hdata]
  rfl

/-- Settles O7: a placed command word is run by the ENGINE's turn, which is next, and a placed transaction is the next
event. -/
theorem placedWordIsRunNext : Obligations.PlacedWordIsRunNext := by
  unfold Obligations.PlacedWordIsRunNext
  intro s w i
  refine ⟨fun hw hi => ?_, fun hw hi => ?_⟩
  · rw [decodeTableWord_command hw, Option.some.injEq] at hi
    subst hi
    rfl
  · rw [decodeTableWord_bus hw, Option.some.injEq] at hi
    rw [State.withFetchWord_bus s hw, ← hi]
    rfl

/-! ### A whole schedule -/

theorem State.commitOutput_schedule (s : State) (out : List Byte) (bits pad : Nat) :
    (s.commitOutput out bits pad).schedule = s.schedule := by
  rw [State.commitOutput_eq]

theorem BusEffect.schedule_eq {s t : State} {i : Instr} (h : BusEffect s i t) : t.schedule = s.schedule := by
  cases h with
  | storeWord => rw [State.writeWord_eq]
  | _ => rfl

theorem CommandEffect.schedule_eq {s t : State} {i : Instr} (h : CommandEffect s i t) : t.schedule = s.schedule := by
  cases h with
  | produced _ _ out bits pad => exact s.commitOutput_schedule out bits pad
  | _ => rfl

/-- Every COMPLETE clears BUSY (R246). -/
theorem CommandEffect.busy_eq {s t : State} {i : Instr} (h : CommandEffect s i t) : t.status.busy = false := by
  cases h <;> rfl

theorem StepEffect.schedule_eq {s t : State} (h : StepEffect s t) : t.schedule = s.schedule := by
  cases h with
  | idle => rfl
  | complete hb t h => exact h.schedule_eq
  | host i hi t h => exact h.schedule_eq
  | reset => rfl

/-- Every step takes its event off the schedule. -/
theorem step_next_tail (s : State) : ∃ t, step s = .next t ∧ t.schedule = s.schedule.tail := by
  obtain ⟨t, hstep, heffect⟩ := step_effect s
  exact ⟨t, hstep, heffect.schedule_eq⟩

/-- With nothing scheduled a step leaves the machine idle (R5). -/
theorem step_idle_of_nil {s t : State} (hs : s.schedule = []) (h : step s = .next t) : t.status.busy = false := by
  rw [step_of_nil hs] at h
  by_cases hb : s.status.busy = true
  · rw [engineStep_of_busy hb] at h
    exact (exec_command_effect (decodeCommand_isCommand s.pending) h).busy_eq
  · rw [Bool.not_eq_true] at hb
    rw [engineStep_of_idle hb, Host.Outcome.next.injEq] at h
    exact h ▸ hb

theorem run_succ_of_step {s t : State} (h : step s = .next t) (k : Nat) :
    Sys2Proof.core.run (k + 1) s = Sys2Proof.core.run k t := by
  have hcore : Sys2Proof.core.step s = .next t := h
  simp only [Host.Core.run, hcore]

/-- Settles O9, by induction on the schedule: each step takes one event off it, and the one step after the last is the
ENGINE's turn. -/
theorem scheduledRunEndsIdle : Obligations.ScheduledRunEndsIdle := by
  unfold Obligations.ScheduledRunEndsIdle
  intro s
  induction hs : s.schedule generalizing s with
  | nil =>
    obtain ⟨t, hstep, htail⟩ := step_next_tail s
    rw [hs] at htail
    exact ⟨t, run_succ_of_step hstep 0, htail, step_idle_of_nil hs hstep⟩
  | cons e rest ih =>
    obtain ⟨u, hstep, htail⟩ := step_next_tail s
    rw [hs] at htail
    rw [List.length_cons, run_succ_of_step hstep]
    exact ih u htail

end Sys2Proof.Machine
end

section
/-! PROOFS. What instructions keep, and the invariant (R69): the frames of the frequency table, the tree, the buffers
and the signals, each said once per effect. -/

namespace Sys2Proof.Machine

/-! ### Frames -/

/-- `t` has the frequency table of `s` (R38, R50, R51, R61, R62). -/
structure State.SameTable (s t : State) : Prop where
  freq      : t.freq = s.freq
  order     : t.order = s.order
  nsym      : t.nsym = s.nsym
  total     : t.total = s.total
  freqValid : t.status.freqValid = s.status.freqValid

/-- `t` has the arena, the root and the code values of `s` (R52, R63, R64). -/
structure State.SameNodes (s t : State) : Prop where
  node    : t.node = s.node
  cbits   : t.cbits = s.cbits
  rootIdx : t.rootIdx = s.rootIdx
  nnodes  : t.nnodes = s.nnodes

/-- `t` has the tree of `s`, its code lengths and the two tree bits included (R39, R40, R64). -/
structure State.SameTree (s t : State) : Prop extends State.SameNodes s t where
  clen      : t.clen = s.clen
  treeValid : t.status.treeValid = s.status.treeValid
  degen     : t.status.degen = s.status.degen

theorem BusEffect.sameTable {s t : State} {i : Instr} (h : BusEffect s i t) : s.SameTable t := by
  cases h with
  | storeWord =>
    rw [State.writeWord_eq]
    exact ⟨rfl, rfl, rfl, rfl, rfl⟩
  | _ => exact ⟨rfl, rfl, rfl, rfl, rfl⟩

theorem BusEffect.sameTree {s t : State} {i : Instr} (h : BusEffect s i t) : s.SameTree t := by
  cases h with
  | storeWord =>
    rw [State.writeWord_eq]
    exact ⟨⟨rfl, rfl, rfl, rfl⟩, rfl, rfl, rfl⟩
  | _ => exact ⟨⟨rfl, rfl, rfl, rfl⟩, rfl, rfl, rfl⟩

theorem State.sameTable_produced (s : State) (out : List Byte) (bits pad : Nat) :
    s.SameTable ((s.commitOutput out bits pad).finish .none 0) := by
  rw [State.commitOutput_eq]
  exact ⟨rfl, rfl, rfl, rfl, rfl⟩

theorem State.sameTree_produced (s : State) (out : List Byte) (bits pad : Nat) :
    s.SameTree ((s.commitOutput out bits pad).finish .none 0) := by
  rw [State.commitOutput_eq]
  exact ⟨⟨rfl, rfl, rfl, rfl⟩, rfl, rfl, rfl⟩

/-- Of the commands only ANALYZE and CLEAR write the frequency table. -/
theorem CommandEffect.sameTable {s t : State} {i : Instr} (h : CommandEffect s i t) (ha : i ≠ .analyze)
    (hc : i ≠ .clear) : s.SameTable t := by
  cases h with
  | clear => exact absurd rfl hc
  | analyzed => exact absurd rfl ha
  | produced => exact s.sameTable_produced _ _ _
  | _ => exact ⟨rfl, rfl, rfl, rfl, rfl⟩

theorem State.TableInv.of_same {s t : State} (h : s.TableInv) (htable : s.SameTable t) : t.TableInv :=
  h.congr htable.freq htable.order htable.nsym htable.total

theorem State.TreeInv.of_same {s t : State} (h : s.TreeInv) (htable : s.SameTable t) (htree : s.SameTree t) :
    t.TreeInv :=
  h.congr htree.nnodes htable.nsym htree.clen htree.cbits htable.freq htree.node htree.rootIdx htree.degen

/-! ### The buffers' part of the invariant -/

/-- What the invariant says of the buffers (R6, R80). -/
structure State.BufferInv (s : State) : Prop where
  sizes_valid : s.sizes.Valid
  mem_wf      : s.mem.wf
  mem_mapped  : ∀ c ∈ s.mem, s.InIbuf c.1 ∨ s.InObuf c.1
  draws_past  : s.ibufDraw < s.draws ∧ s.obufDraw < s.draws

theorem State.Inv.bufferInv {s : State} (h : s.Inv) : s.BufferInv :=
  ⟨h.sizes_valid, h.mem_wf, h.mem_mapped, h.draws_past⟩

theorem State.BufferInv.congr {s t : State} (h : s.BufferInv) (hsizes : t.sizes = s.sizes) (hmem : t.mem = s.mem)
    (hibuf : t.ibufDraw = s.ibufDraw) (hobuf : t.obufDraw = s.obufDraw) (hdraws : s.draws ≤ t.draws) :
    t.BufferInv := by
  obtain ⟨hvalid, hwf, hmapped, hpast⟩ := h
  refine ⟨hsizes ▸ hvalid, hmem ▸ hwf, ?_, by omega⟩
  simpa only [State.InIbuf, State.InObuf, hsizes, hmem] using hmapped

/-- A run of writes inside the buffers keeps the memory canonical and mapped. -/
theorem State.BufferInv.writeBytes {s : State} (h : s.BufferInv) {a : Nat} {l : List Byte}
    (hin : ∀ b, a ≤ b → b < a + l.length → s.InIbuf b ∨ s.InObuf b) : (s.writeBytes a l).BufferInv := by
  have hwf := State.wf_writeBytes h.mem_wf a l
  have hmapped : ∀ c ∈ (s.writeBytes a l).mem, s.InIbuf c.1 ∨ s.InObuf c.1 := fun c hc => by
    rcases State.mem_writeBytes hc with ⟨hlo, hhi⟩ | hold
    · exact hin c.1 hlo hhi
    · exact h.mem_mapped c hold
  rw [State.writeBytes_eq]
  exact ⟨h.sizes_valid, hwf, hmapped, h.draws_past⟩

/-- A redraw of OBUF uses up the next draw (R247). -/
theorem State.BufferInv.redrawObuf {s : State} (h : s.BufferInv) : s.redrawObuf.BufferInv := by
  refine ⟨h.sizes_valid, Memory.wf_forget h.mem_wf _ _, fun c hc => h.mem_mapped c (List.mem_of_mem_filter hc), ?_⟩
  simp only [State.redrawObuf_ibufDraw, State.redrawObuf_obufDraw, State.redrawObuf_draws]
  exact ⟨Nat.lt_succ_of_lt h.draws_past.1, Nat.lt_succ_self _⟩

theorem BusEffect.bufferInv {s t : State} {i : Instr} (h : BusEffect s i t) (hs : s.BufferInv) : t.BufferInv := by
  cases h with
  | freeRead => exact hs.congr rfl rfl rfl rfl (Nat.le_succ _)
  | storeByte a v hb ha =>
    refine hs.writeBytes (l := [v]) fun b hlo hhi => .inl ?_
    obtain rfl : b = a.toNat := by simp only [List.length_singleton] at hhi; omega
    exact ha
  | storeWord a v hb ha ha' =>
    refine hs.writeBytes fun b hlo hhi => .inl ⟨ha.1.trans hlo, ?_⟩
    have hlen : (bytesOfWord v).length = 4 := rfl
    exact lt_of_le_of_lt (by omega) ha'.2
  | _ => exact hs.congr rfl rfl rfl rfl le_rfl

theorem CommandEffect.bufferInv {s t : State} {i : Instr} (h : CommandEffect s i t) (hs : s.BufferInv) :
    t.BufferInv := by
  cases h with
  | failedOutput => exact hs.redrawObuf.congr rfl rfl rfl rfl le_rfl
  | produced _ _ out bits pad ht ho hp =>
    have hwritten : (s.writeBytes Config.obufBase out).BufferInv :=
      hs.writeBytes fun b hlo hhi => .inr ⟨hlo, lt_of_lt_of_le hhi (Nat.add_le_add_left ho _)⟩
    exact hwritten.congr rfl rfl rfl rfl le_rfl
  | _ => exact hs.congr rfl rfl rfl rfl le_rfl

/-! ### The invariant, by effect -/

/-- A state that keeps the frequency table and the tree has the invariant when its buffers, its signals and PAD do. -/
theorem State.Inv.of_same {s t : State} (h : s.Inv) (htable : s.SameTable t) (htree : s.SameTree t)
    (hbuf : t.BufferInv) (hbusy : t.status.busy = true → t.status.done = false ∧ t.status.err = false)
    (hpad : t.pad.toNat ≤ 8) : t.Inv where
  sizes_valid := hbuf.sizes_valid
  mem_wf := hbuf.mem_wf
  mem_mapped := hbuf.mem_mapped
  draws_past := hbuf.draws_past
  busy_clear := hbusy
  pad_le := hpad
  tree_freq := by
    rw [htree.treeValid, htable.freqValid]
    exact h.tree_freq
  degen_iff := by
    rw [htree.degen, htree.treeValid, htable.nsym]
    exact h.degen_iff
  table hv := (h.table (htable.freqValid ▸ hv)).of_same htable
  tree hv := (h.tree (htree.treeValid ▸ hv)).of_same htable htree

/-- While BUSY a transaction leaves DONE and ERR clear (R43, R230). -/
theorem BusEffect.busy_clear {s t : State} {i : Instr} (h : BusEffect s i t)
    (hs : s.status.busy = true → s.status.done = false ∧ s.status.err = false) :
    t.status.busy = true → t.status.done = false ∧ t.status.err = false := by
  cases h with
  | storeWord => rw [State.writeWord_eq]; exact hs
  | status v =>
    intro hb
    obtain ⟨hdone, herr⟩ := hs hb
    simp [Status.clearedBy, hdone, herr]
  | issue => exact fun _ => ⟨rfl, rfl⟩
  | _ => exact hs

theorem BusEffect.pad_eq {s t : State} {i : Instr} (h : BusEffect s i t) : t.pad = s.pad := by
  cases h with
  | storeWord => rw [State.writeWord_eq]
  | _ => rfl

theorem BusEffect.inv {s t : State} {i : Instr} (h : BusEffect s i t) (hs : s.Inv) : t.Inv :=
  hs.of_same h.sameTable h.sameTree (h.bufferInv hs.bufferInv) (h.busy_clear hs.busy_clear)
    (h.pad_eq ▸ hs.pad_le)

/-- PAD is 0 or a padding length after every command (R49, R182, R201). -/
theorem CommandEffect.pad_le {s t : State} {i : Instr} (h : CommandEffect s i t) (hs : s.pad.toNat ≤ 8) :
    t.pad.toNat ≤ 8 := by
  cases h with
  | clear => exact Nat.zero_le _
  | failedOutput => exact Nat.zero_le _
  | produced _ _ out bits pad ht ho hp =>
    rw [State.finish_pad, State.commitOutput, BitVec.toNat_ofNat]
    exact (Nat.mod_le _ _).trans hp.2
  | _ => exact hs

/-- A command that keeps the frequency table and the tree keeps the invariant. -/
theorem CommandEffect.inv_of_same {s t : State} {i : Instr} (h : CommandEffect s i t) (hs : s.Inv)
    (htable : s.SameTable t) (htree : s.SameTree t) : t.Inv :=
  hs.of_same htable htree (h.bufferInv hs.bufferInv) (fun hb => by simp [h.busy_eq] at hb) (h.pad_le hs.pad_le)

/-- CLEAR leaves no table and no tree of which the invariant would say anything (R233). -/
theorem State.Inv.cleared {s : State} (h : s.Inv) : (s.cleared.finish .none 0).Inv where
  sizes_valid := h.sizes_valid
  mem_wf := h.mem_wf
  mem_mapped := h.mem_mapped
  draws_past := h.draws_past
  busy_clear := by simp
  pad_le := Nat.zero_le _
  tree_freq := by simp
  degen_iff := by simp
  table := by simp
  tree := by simp

theorem CommandEffect.inv {s t : State} {i : Instr} (h : CommandEffect s i t) (hs : s.Inv) : t.Inv := by
  have hsame := h.inv_of_same hs
  cases h with
  | clear => exact hs.cleared
  | analyzed hpos => exact hs.analyzed hpos
  | built hvalid => exact hs.built hvalid
  | produced => exact hsame (s.sameTable_produced _ _ _) (s.sameTree_produced _ _ _)
  | _ => exact hsame ⟨rfl, rfl, rfl, rfl, rfl⟩ ⟨⟨rfl, rfl, rfl, rfl⟩, rfl, rfl, rfl⟩

/-! ### Reset, steps and runs -/

/-- The state right after RESET has the invariant (R280). -/
theorem State.inv_resetWith {z : Config.Sizes} (hz : z.Valid) (d : Nat) : (State.resetWith z d).Inv where
  sizes_valid := hz
  mem_wf := List.Pairwise.nil
  mem_mapped := by simp [State.resetWith]
  draws_past := ⟨Nat.lt_succ_self d, Nat.lt_succ_self d⟩
  busy_clear _ := ⟨rfl, rfl⟩
  pad_le := Nat.zero_le _
  tree_freq := by simp [State.resetWith]
  degen_iff := by simp [State.resetWith]
  table := by simp [State.resetWith]
  tree := by simp [State.resetWith]

/-- The invariant says nothing of what belongs to the outside (log 3, log 4). -/
theorem State.Inv.outside {s : State} (h : s.Inv) (value : Option Word) (events : List Event) :
    { s with rdata := value, schedule := events }.Inv :=
  h.of_same ⟨rfl, rfl, rfl, rfl, rfl⟩ ⟨⟨rfl, rfl, rfl, rfl⟩, rfl, rfl, rfl⟩
    (h.bufferInv.congr rfl rfl rfl rfl le_rfl) h.busy_clear h.pad_le

theorem StepEffect.inv {s t : State} (h : StepEffect s t) (hs : s.Inv) : t.Inv := by
  cases h with
  | idle => exact hs
  | complete _ _ heffect => exact heffect.inv hs
  | host _ _ _ heffect => exact heffect.inv hs
  | reset => exact (State.inv_resetWith hs.sizes_valid s.draws).outside s.rdata s.schedule

/-- Settles O52, by the effect of the step: a transaction and most commands keep the frequency table and the tree
(`State.Inv.of_same`), ANALYZE and BUILD commit ones that have the invariant, CLEAR and RESET leave none. -/
theorem everyStepKeepsTheInvariant : Obligations.EveryStepKeepsTheInvariant := by
  unfold Obligations.EveryStepKeepsTheInvariant
  intro s t hs hstep
  obtain ⟨u, hu, heffect⟩ := step_effect s
  rw [hu, Host.Outcome.next.injEq] at hstep
  exact hstep ▸ heffect.inv (hs.outside s.rdata s.schedule.tail)

theorem run_inv (n : Nat) {s t : State} (hs : s.Inv) (hrun : Sys2Proof.core.run n s = .next t) : t.Inv := by
  induction n generalizing s with
  | zero =>
    obtain rfl : s = t := Host.Outcome.next.inj hrun
    exact hs
  | succ n ih =>
    obtain ⟨u, hstep, -⟩ := step_next_tail s
    rw [run_succ_of_step hstep] at hrun
    exact ih (everyStepKeepsTheInvariant s u hs hstep) hrun

theorem State.Inv.r69 {s : State} (h : s.Inv) : s.R69 where
  a := h.tree_freq
  b := h.degen_iff.1
  c hv := by
    obtain ⟨hpos, hle, htotal, hsum, -, -⟩ := h.table hv
    exact ⟨⟨hpos, hle⟩, htotal, htotal ▸ hsum⟩
  d hv := ⟨(h.tree hv).nnodes_eq, (h.tree hv).coded, (h.tree hv).prefixFree⟩

/-- Settles O54: the invariant holds after RESET and along every run, and R69 is part of it. -/
theorem reachableStatesSatisfyR69 : Obligations.ReachableStatesSatisfyR69 := by
  unfold Obligations.ReachableStatesSatisfyR69
  intro z events n t hz hrun
  exact (run_inv n ((State.inv_resetWith hz 0).outside none events) hrun).r69

end Sys2Proof.Machine
end

section
/-! PROOFS. What only some instructions change: the frequency table, the tree, the sticky bits; what no HOST transaction
changes, and what is frozen while BUSY (R38 to R45, R61 to R64, R95, R244). -/

namespace Sys2Proof.Machine

/-! ### The tables -/

/-- An instruction's effect is a command's or a transaction's. -/
theorem exec_effect {i : Instr} {s t : State} (h : exec i s = .next t) : CommandEffect s i t ∨ BusEffect s i t := by
  cases hi : Instr.isCommand i with
  | true => exact .inl (exec_command_effect hi h)
  | false => exact .inr (exec_bus_effect hi h)

theorem exec_sameTable {i : Instr} {s t : State} (h : exec i s = .next t) (ha : i ≠ .analyze) (hc : i ≠ .clear) :
    s.SameTable t := by
  rcases exec_effect h with heffect | heffect
  · exact heffect.sameTable ha hc
  · exact heffect.sameTable

/-- ANALYZE, failed or not, does not clear FREQ_VALID (R38). -/
theorem CommandEffect.freqValid_analyze {s t : State} (h : CommandEffect s .analyze t)
    (hv : s.status.freqValid = true) : t.status.freqValid = true := by
  cases h with
  | failed => exact hv
  | failedOutput _ hi => simp at hi
  | analyzed => rfl
  | produced _ hi => simp at hi

/-- Settles O55: the frame of the frequency table (`exec_sameTable`), and the two commands that write FREQ_VALID. -/
theorem onlyAnalyzeAndClearChangeTheFrequencyTable : Obligations.OnlyAnalyzeAndClearChangeTheFrequencyTable := by
  unfold Obligations.OnlyAnalyzeAndClearChangeTheFrequencyTable
  intro i s t hexec
  refine ⟨fun ha hc => ?_, ?_, ?_⟩
  · obtain ⟨hfreq, horder, hnsym, htotal, hvalid⟩ := exec_sameTable hexec ha hc
    exact ⟨hfreq, horder, hnsym, htotal, hvalid⟩
  · rintro rfl
    exact (exec_command_effect rfl hexec).freqValid_analyze
  · rintro rfl
    obtain rfl := Host.Outcome.next.inj hexec
    rfl

/-- Only BUILD writes NODE, CBITS and ROOT (R63, R64; log 10 for CLEAR). -/
theorem CommandEffect.sameNodes {s t : State} {i : Instr} (h : CommandEffect s i t) (hb : i ≠ .build) :
    s.SameNodes t := by
  cases h with
  | built => exact absurd rfl hb
  | produced => exact (s.sameTree_produced _ _ _).toSameNodes
  | _ => exact ⟨rfl, rfl, rfl, rfl⟩

/-- Only BUILD and CLEAR write CLEN (R64). -/
theorem CommandEffect.clen_eq {s t : State} {i : Instr} (h : CommandEffect s i t) (hb : i ≠ .build)
    (hc : i ≠ .clear) : t.clen = s.clen := by
  cases h with
  | clear => exact absurd rfl hc
  | built => exact absurd rfl hb
  | produced => exact (s.sameTree_produced _ _ _).clen
  | _ => rfl

/-- TREE_VALID and DEGEN after a command: as before, set by BUILD, or both cleared by ANALYZE or CLEAR (R39, R40). -/
theorem CommandEffect.treeBits {s t : State} {i : Instr} (h : CommandEffect s i t) :
    (t.status.treeValid = s.status.treeValid ∧ t.status.degen = s.status.degen) ∨
    (i = .build ∧ t.status.treeValid = true) ∨
    ((i = .analyze ∧ t.errCode = .none ∨ i = .clear) ∧ t.status.treeValid = false ∧ t.status.degen = false) := by
  cases h with
  | clear => exact .inr (.inr ⟨.inr rfl, rfl, rfl⟩)
  | analyzed => exact .inr (.inr ⟨.inl ⟨rfl, rfl⟩, rfl, rfl⟩)
  | built => exact .inr (.inl ⟨rfl, rfl⟩)
  | produced => exact .inl ⟨(s.sameTree_produced _ _ _).treeValid, (s.sameTree_produced _ _ _).degen⟩
  | _ => exact .inl ⟨rfl, rfl⟩

/-- Settles O56: a transaction keeps the whole tree, a command what `CommandEffect.sameNodes` and
`CommandEffect.clen_eq` say, and `CommandEffect.treeBits` gives the only ways the two tree bits change. -/
theorem onlyBuildMakesATree : Obligations.OnlyBuildMakesATree := by
  unfold Obligations.OnlyBuildMakesATree
  intro i s t hexec
  rcases exec_effect hexec with heffect | heffect
  · refine ⟨fun hb => ?_, heffect.clen_eq, fun hs ht => ?_⟩
    · obtain ⟨hnode, hcbits, hroot, hnnodes⟩ := heffect.sameNodes hb
      refine ⟨hnode, hcbits, hroot, hnnodes, fun ht => ?_⟩
      rcases heffect.treeBits with ⟨hvalid, hdegen⟩ | ⟨hbuild, -⟩ | ⟨-, hvalid, -⟩
      · exact ⟨hvalid ▸ ht, hdegen⟩
      · exact absurd hbuild hb
      · simp [ht] at hvalid
    · rcases heffect.treeBits with ⟨hvalid, -⟩ | ⟨-, hvalid⟩ | ⟨hi, -, hdegen⟩
      · simp [hs, ht] at hvalid
      · simp [ht] at hvalid
      · exact ⟨hi, hdegen⟩
  · obtain ⟨⟨hnode, hcbits, hroot, hnnodes⟩, hclen, hvalid, hdegen⟩ := heffect.sameTree
    refine ⟨fun _ => ⟨hnode, hcbits, hroot, hnnodes, fun ht => ⟨hvalid ▸ ht, hdegen⟩⟩, fun _ _ => hclen,
      fun hs ht => ?_⟩
    simp [hs, ht] at hvalid

/-! ### The sticky bits -/

/-- No command writes WR_BLOCKED or BUS_ERR (R41, R42). -/
theorem CommandEffect.sticky {s t : State} {i : Instr} (h : CommandEffect s i t) :
    t.status.wrBlocked = s.status.wrBlocked ∧ t.status.busErr = s.status.busErr := by
  cases h with
  | produced =>
    rw [State.commitOutput_eq]
    exact ⟨rfl, rfl⟩
  | _ => exact ⟨rfl, rfl⟩

/-- A transaction leaves a sticky bit set unless it is a STATUS write with a 1 there (R43). -/
theorem BusEffect.sticky {s t : State} {i : Instr} (h : BusEffect s i t) :
    ((s.status.wrBlocked = true → t.status.wrBlocked = true) ∧ (s.status.busErr = true → t.status.busErr = true)) ∨
    ∃ v : Word, i = .wr32 0x0000000C v ∧ t.status = s.status.clearedBy v := by
  cases h with
  | status v => exact .inr ⟨v, rfl, rfl⟩
  | storeWord =>
    rw [State.writeWord_eq]
    exact .inl ⟨id, id⟩
  | badRead => exact .inl ⟨id, fun _ => rfl⟩
  | busErr => exact .inl ⟨id, fun _ => rfl⟩
  | blocked => exact .inl ⟨fun _ => rfl, id⟩
  | _ => exact .inl ⟨id, id⟩

/-- Settles O57: no command writes the two bits, and of the transactions only a STATUS write can clear them. -/
theorem stickyBitsNeedAStatusWrite : Obligations.StickyBitsNeedAStatusWrite := by
  unfold Obligations.StickyBitsNeedAStatusWrite
  intro i s t hexec
  rcases exec_effect hexec with heffect | heffect
  · obtain ⟨hblocked, herr⟩ := heffect.sticky
    exact ⟨fun hs ht => by simp [hs, ht] at hblocked, fun hs ht => by simp [hs, ht] at herr⟩
  · rcases heffect.sticky with ⟨hblocked, herr⟩ | ⟨v, hi, hstatus⟩
    · exact ⟨fun hs ht => by simp [hblocked hs] at ht, fun hs ht => by simp [herr hs] at ht⟩
    · simp only [hstatus, Status.clearedBy]
      exact ⟨fun hs ht => ⟨v, hi, by simpa [hs] using ht⟩, fun hs ht => ⟨v, hi, by simpa [hs] using ht⟩⟩

/-! ### HOST transactions -/

/-- `t` has the error and result registers of `s` (R44, R45, R47, R48, R49). -/
structure State.SameResults (s t : State) : Prop where
  errCode : t.errCode = s.errCode
  errInfo : t.errInfo = s.errInfo
  outLen  : t.outLen = s.outLen
  bitLen  : t.bitLen = s.bitLen
  pad     : t.pad = s.pad

theorem BusEffect.sameResults {s t : State} {i : Instr} (h : BusEffect s i t) : s.SameResults t := by
  cases h with
  | storeWord =>
    rw [State.writeWord_eq]
    exact ⟨rfl, rfl, rfl, rfl, rfl⟩
  | _ => exact ⟨rfl, rfl, rfl, rfl, rfl⟩

/-- A transaction sets neither DONE nor ERR (R36, R37). -/
theorem BusEffect.done_err {s t : State} {i : Instr} (h : BusEffect s i t) :
    (t.status.done = true → s.status.done = true) ∧ (t.status.err = true → s.status.err = true) := by
  cases h with
  | storeWord =>
    rw [State.writeWord_eq]
    exact ⟨id, id⟩
  | status v =>
    simp only [Status.clearedBy, Bool.and_eq_true]
    exact ⟨And.left, And.left⟩
  | issue => exact ⟨fun h => by simp at h, fun h => by simp at h⟩
  | _ => exact ⟨id, id⟩

/-- The only bytes a transaction writes are in IBUF (R84, R85). -/
theorem BusEffect.readByte_of_not_inIbuf {s t : State} {i : Instr} (h : BusEffect s i t) {b : Nat}
    (hb : ¬ s.InIbuf b) : t.readByte b = s.readByte b := by
  cases h with
  | storeByte a v _ ha =>
    rw [State.readByte_writeByte, if_neg]
    rintro rfl
    exact hb ha
  | storeWord a v _ ha ha' =>
    have hout : ¬ (a.toNat ≤ b ∧ b ≤ a.toNat + 3) := fun ⟨hlo, hhi⟩ =>
      hb ⟨ha.1.trans hlo, hhi.trans_lt ha'.2⟩
    rw [State.readByte_writeWord, if_neg (by omega), if_neg (by omega), if_neg (by omega), if_neg (by omega)]
  | _ => rfl

/-- Settles O58, from the frames of a transaction; the bytes it can write are in IBUF, which has no address in common
with OBUF. -/
theorem hostTransactionsKeepResults : Obligations.HostTransactionsKeepResults := by
  unfold Obligations.HostTransactionsKeepResults
  intro i s t hz hi hexec
  have heffect := exec_bus_effect hi hexec
  obtain ⟨hcode, hinfo, hout, hbits, hpad⟩ := heffect.sameResults
  obtain ⟨hfreq, horder, hnsym, htotal, -⟩ := heffect.sameTable
  obtain ⟨⟨hnode, hcbits, hroot, hnnodes⟩, hclen, -, -⟩ := heffect.sameTree
  exact ⟨hcode, hinfo, hout, hbits, hpad, hnsym, htotal, hroot, hnnodes, hfreq, horder, hnode, hclen, hcbits,
    fun a ha => heffect.readByte_of_not_inIbuf fun ha' => State.not_inObuf_of_inIbuf hz ha' ha, heffect.done_err⟩

/-- `t` has what a command in progress reads of `s` beside the tables: PENDING, IN_LEN, SEL and the buffers, and is
BUSY like it (R41, R95, R286). -/
structure State.SameInputs (s t : State) : Prop where
  busy     : t.status.busy = s.status.busy
  pending  : t.pending = s.pending
  inLen    : t.inLen = s.inLen
  sel      : t.sel = s.sel
  mem      : t.mem = s.mem
  readByte : ∀ a, t.readByte a = s.readByte a

/-- While BUSY no transaction writes a command's input: the writes that could are blocked (R41). -/
theorem BusEffect.sameInputs_of_busy {s t : State} {i : Instr} (h : BusEffect s i t) (hb : s.status.busy = true) :
    s.SameInputs t := by
  cases h with
  | storeByte _ _ hidle | storeWord _ _ hidle | issue _ hidle | inLen _ hidle | sel _ hidle =>
    simp [hb] at hidle
  | _ => exact ⟨rfl, rfl, rfl, rfl, rfl, fun _ => rfl⟩

/-- Settles O59: the frame of a transaction while BUSY. -/
theorem busyFreezesTheCommandsInputs : Obligations.BusyFreezesTheCommandsInputs := by
  unfold Obligations.BusyFreezesTheCommandsInputs
  intro i s t hi hb hexec
  have heffect := exec_bus_effect hi hexec
  obtain ⟨hbusy, hpending, hlen, hsel, hmem, hbytes⟩ := heffect.sameInputs_of_busy hb
  exact ⟨hbusy.trans hb, hpending, hlen, hsel, hmem, hbytes, heffect.sameTable.freqValid,
    heffect.sameTree.treeValid, heffect.sameTree.degen⟩

end Sys2Proof.Machine
end

section
/-! PROOFS. HOST reads and writes of registers, blocked writes and IRQ (R32 to R60, R67). -/

namespace Sys2Proof.Machine

/-! ### Transactions to the buffers, by what they reach -/

/-- RD8 of IBUF, BUSY or not. -/
theorem exec_rd8_ibuf {s : State} (hz : s.sizes.Valid) {a : Word} (ha : s.InIbuf a.toNat) :
    exec (.rd8 a) s = .next (s.returning ((s.readByte a.toNat).setWidth 32)) := by
  simp only [exec, execRd8, State.read8, (target8_spec s hz a.toNat).1.2 ha]

/-- RD8 of OBUF (R60). -/
theorem exec_rd8_obuf {s : State} (hz : s.sizes.Valid) {a : Word} (ha : s.InObuf a.toNat) :
    exec (.rd8 a) s =
      .next (if s.status.busy then s.unspecifiedByte a.toNat
        else s.returning ((s.readByte a.toNat).setWidth 32)) := by
  simp only [exec, execRd8, State.read8, (target8_spec s hz a.toNat).2.1.2 ha]

/-- An aligned RD32 of IBUF, BUSY or not. -/
theorem exec_rd32_ibuf {s : State} (hz : s.sizes.Valid) {a : Word} (hal : a.toNat % 4 = 0)
    (ha : s.InIbuf a.toNat) (ha' : s.InIbuf (a.toNat + 3)) :
    exec (.rd32 a) s = .next (s.returning (s.readWord a.toNat)) := by
  simp only [exec, execRd32, State.read32, (target32_spec s hz a).1.2 ⟨hal, ha, ha'⟩]

/-- An aligned RD32 of OBUF (R60). -/
theorem exec_rd32_obuf {s : State} (hz : s.sizes.Valid) {a : Word} (hal : a.toNat % 4 = 0)
    (ha : s.InObuf a.toNat) (ha' : s.InObuf (a.toNat + 3)) :
    exec (.rd32 a) s =
      .next (if s.status.busy then s.unspecifiedWord else s.returning (s.readWord a.toNat)) := by
  simp only [exec, execRd32, State.read32, (target32_spec s hz a).2.1.2 ⟨hal, ha, ha'⟩]

/-- WR8 to IBUF (R41). -/
theorem exec_wr8_ibuf {s : State} (hz : s.sizes.Valid) {a : Word} (ha : s.InIbuf a.toNat) (v : Byte) :
    exec (.wr8 a v) s = .next (if s.status.busy then s.setWrBlocked else s.writeByte a.toNat v) := by
  simp only [exec, execWr8, State.write8, (target8_spec s hz a.toNat).1.2 ha]

/-- An aligned WR32 to IBUF (R41). -/
theorem exec_wr32_ibuf {s : State} (hz : s.sizes.Valid) {a : Word} (hal : a.toNat % 4 = 0)
    (ha : s.InIbuf a.toNat) (ha' : s.InIbuf (a.toNat + 3)) (v : Word) :
    exec (.wr32 a v) s = .next (if s.status.busy then s.setWrBlocked else s.writeWord a.toNat v) := by
  simp only [exec, execWr32, State.write32, (target32_spec s hz a).1.2 ⟨hal, ha, ha'⟩]

/-! ### Register reads -/

/-- While idle every register reads its value, and nothing else changes. -/
theorem exec_rd32_of_idle {s : State} (h : s.status.busy = false) (r : RegName) :
    exec (.rd32 (regAddr r)) s = .next { s with rdata := some (s.readReg r) } := by
  rw [exec_rd32_reg, h]
  rfl

/-- The registers that R60 does not name read their value, BUSY or not. -/
theorem exec_rd32_of_not_gated (s : State) {r : RegName} (h : r.gatedWhileBusy = false) :
    exec (.rd32 (regAddr r)) s = .next { s with rdata := some (s.readReg r) } := by
  rw [exec_rd32_reg, h, Bool.and_false]
  rfl

/-- While BUSY the registers that R60 names read a fresh free value. -/
theorem exec_rd32_of_gated {s : State} (hb : s.status.busy = true) {r : RegName} (h : r.gatedWhileBusy = true) :
    exec (.rd32 (regAddr r)) s =
      .next { s with rdata := some (Config.freeWord s.draws), draws := s.draws + 1 } := by
  rw [exec_rd32_reg, hb, h]
  rfl

/-- Settles O37: the registers concerned are not gated (R60), and CTRL has its two enables in bits 0 and 1. -/
theorem controlRegistersReadAtAnyTime : Obligations.ControlRegistersReadAtAnyTime := by
  unfold Obligations.ControlRegistersReadAtAnyTime
  intro s
  refine ⟨exec_rd32_of_not_gated s (r := .id) rfl,
    ⟨s.ctrl.word, exec_rd32_of_not_gated s (r := .ctrl) rfl, ?_, ?_, fun i hi => ?_⟩,
    exec_rd32_of_not_gated s (r := .cmd) rfl, exec_rd32_of_not_gated s (r := .inLen) rfl,
    exec_rd32_of_not_gated s (r := .sel) rfl⟩
  · rw [getLsbD_ctrlWord _ (by decide)]
    simp
  · rw [getLsbD_ctrlWord _ (by decide)]
    simp
  · by_cases hlt : i < 32
    · have h0 : i ≠ 0 := by omega
      have h1 : i ≠ 1 := by omega
      rw [getLsbD_ctrlWord _ hlt]
      simp [h0, h1]
    · exact BitVec.getLsbD_of_ge _ _ (by omega)

/-- STATUS reads 0 in its reserved bits (R43). -/
theorem getLsbD_statusWord_reserved (t : Status) {i : Nat} (hi : 8 ≤ i) : t.word.getLsbD i = false := by
  by_cases hlt : i < 32
  · rw [getLsbD_statusWord _ hlt]
    have hne : ∀ k, k < 8 → decide (i = k) = false := fun k hk => decide_eq_false (by omega)
    simp [hne]
  · exact BitVec.getLsbD_of_ge _ _ (by omega)

/-- Settles O38: the bits of the STATUS word. -/
theorem statusReadsItsEightFlags : Obligations.StatusReadsItsEightFlags := by
  unfold Obligations.StatusReadsItsEightFlags
  intro s
  refine ⟨s.status.word, exec_rd32_of_not_gated s (r := .status) rfl, ?_, ?_, ?_, ?_, ?_, ?_, ?_, ?_,
    fun i hi => getLsbD_statusWord_reserved _ hi⟩ <;>
  · rw [getLsbD_statusWord _ (by decide)]
    simp

/-- A word with one field above bit `k` and a number below it, as a number. -/
theorem fields_eq_ofNat {n : Nat} (hi : BitVec n) {k lo : Nat} (hn : n + k ≤ 32) (h : lo < 2 ^ k) :
    hi.setWidth 32 <<< k ||| BitVec.ofNat 32 lo = BitVec.ofNat 32 (hi.toNat * 2 ^ k + lo) := by
  rw [← toNat_fields hi k lo hn h, BitVec.ofNat_toNat, BitVec.setWidth_eq]

/-- A field of a word whose number is known. -/
theorem extractLsb'_eq_of_toNat {w : Word} {N k n : Nat} {x : BitVec n} (hw : w.toNat = N)
    (hx : N / 2 ^ k % 2 ^ n = x.toNat) : w.extractLsb' k n = x := by
  apply BitVec.eq_of_toNat_eq
  rw [BitVec.extractLsb'_toNat, hw, Nat.shiftRight_eq_div_pow, hx]

/-- The two fields of ROOT where there is a tree (R52). -/
theorem State.rootWord_fields {s : State} (h : s.status.treeValid = true) :
    s.rootWord.extractLsb' 0 9 = s.rootIdx ∧ s.rootWord.extractLsb' 9 7 = 0 ∧
    s.rootWord.extractLsb' 16 10 = s.nnodes ∧ s.rootWord.extractLsb' 26 6 = 0 := by
  have hroot := s.rootIdx.isLt
  have hnodes := s.nnodes.isLt
  have hword : s.rootWord.toNat = s.nnodes.toNat * 2 ^ 16 + s.rootIdx.toNat := by
    rw [State.rootWord, if_pos h, ← BitVec.ofNat_toNat (n := 9), toNat_fields _ _ _ (by decide) (by omega)]
  refine ⟨extractLsb'_eq_of_toNat hword ?_, extractLsb'_eq_of_toNat hword ?_, extractLsb'_eq_of_toNat hword ?_,
    extractLsb'_eq_of_toNat hword ?_⟩
  · omega
  · show _ = 0
    omega
  · omega
  · show _ = 0
    omega

/-- Settles O39: while idle no read is gated; the one register made of fields is ROOT (`State.rootWord_fields`). -/
theorem resultRegistersReadWhileIdle : Obligations.ResultRegistersReadWhileIdle := by
  unfold Obligations.ResultRegistersReadWhileIdle
  intro s hidle
  have hread := exec_rd32_of_idle hidle
  refine ⟨(hread .errCode).trans ?_, hread .errInfo, hread .outLen, hread .bitLen, hread .pad, hread .nsym,
    hread .total, fun hv => (hread .root).trans ?_, fun hv => ⟨s.rootWord, hread .root, State.rootWord_fields hv⟩⟩
  · simp only [State.readReg]
    cases s.errCode <;> rfl
  · simp [State.readReg, State.rootWord, hv]

/-- The fields of ORDER_RD where an entry is shown (R55). -/
theorem State.orderRd_fields {s : State} (hv : s.status.freqValid = true) (hsel : s.sel.toNat < s.nsym.toNat) :
    s.orderRd.extractLsb' 0 8 = s.orderAt s.sel.toNat ∧ s.orderRd.extractLsb' 8 24 = 1 := by
  have hlt : s.sel < s.nsym := hsel
  simp only [State.orderRd, hv, hlt, true_and, if_true]
  generalize s.orderAt s.sel.toNat = b
  revert b
  decide

/-- ORDER_RD where no entry is shown (R55). -/
theorem State.orderRd_eq_zero {s : State} (h : ¬ (s.status.freqValid = true ∧ s.sel.toNat < s.nsym.toNat)) :
    s.orderRd = 0 :=
  if_neg h

/-- Settles O40: while idle no read is gated; ORDER_RD is `State.orderRd_fields` or `State.orderRd_eq_zero`. -/
theorem tableReadbackWhileIdle : Obligations.TableReadbackWhileIdle := by
  unfold Obligations.TableReadbackWhileIdle
  intro s hidle
  have hread := exec_rd32_of_idle hidle
  refine ⟨hread .freqRd, fun hv hsel => ⟨s.orderRd, hread .orderRd, State.orderRd_fields hv hsel⟩,
    fun hnone => (hread .orderRd).trans ?_, hread .codeLenRd⟩
  rw [State.readReg, State.orderRd_eq_zero hnone]

/-- The bits of CODEBITS_RDk (R57). -/
theorem State.getLsbD_codeBitsRd (s : State) (k : Fin 8) {j : Nat} (hj : j < 32) :
    (s.codeBitsRd k).getLsbD j =
      (s.status.treeValid && (tableAt s.cbits (s.sel.extractLsb' 0 8)).getLsbD (32 * k.val + j)) := by
  have hbit : 32 * k.val + j < 256 := by omega
  cases hv : s.status.treeValid <;>
    simp [State.codeBitsRd, State.selSym, hv, hj, hbit]

/-- NODE_RD as a number (R58). -/
theorem nodeWord_toNat (n : Node) :
    (nodeWord n).toNat =
      n.leaf.toNat * 2 ^ 31 + (n.sym.toNat * 2 ^ 18 + (n.right.toNat * 2 ^ 9 + n.left.toNat)) := by
  have hleft := n.left.isLt
  have hright := n.right.isLt
  have hsym := n.sym.isLt
  rw [nodeWord, bitAt, BitVec.or_assoc, BitVec.or_assoc, ← BitVec.ofNat_toNat (x := n.left),
    fields_eq_ofNat _ (by decide) (by omega), fields_eq_ofNat _ (by decide) (by omega),
    toNat_fields _ _ _ (by decide) (by omega), BitVec.toNat_ofBool]

/-- The fields of NODE_RD's layout (R58). -/
theorem nodeWord_fields (n : Node) :
    (nodeWord n).extractLsb' 0 9 = n.left ∧ (nodeWord n).extractLsb' 9 9 = n.right ∧
    (nodeWord n).extractLsb' 18 8 = n.sym ∧ (nodeWord n).extractLsb' 26 5 = 0 ∧ (nodeWord n).getLsbD 31 = n.leaf := by
  have hleft := n.left.isLt
  have hright := n.right.isLt
  have hsym := n.sym.isLt
  have hword := nodeWord_toNat n
  refine ⟨extractLsb'_eq_of_toNat hword ?_, extractLsb'_eq_of_toNat hword ?_, extractLsb'_eq_of_toNat hword ?_,
    extractLsb'_eq_of_toNat hword ?_, ?_⟩
  · omega
  · omega
  · omega
  · show _ = 0
    omega
  · rw [← BitVec.testBit_toNat, hword, Nat.testBit_eq_decide_div_mod_eq]
    cases n.leaf with
    | false =>
      rw [Bool.toNat_false, decide_eq_false_iff_not]
      omega
    | true =>
      rw [Bool.toNat_true, decide_eq_true_iff]
      omega

theorem State.nodeShown_iff (s : State) :
    s.nodeShown = true ↔ s.status.treeValid = true ∧ s.sel.toNat < s.nnodes.toNat := by
  rw [State.nodeShown, Bool.and_eq_true, decide_eq_true_iff]

theorem regAddr_codeBitsRd (k : Fin 8) : regAddr (.codeBitsRd k) = BitVec.ofNat 32 (0x60 + 4 * k.val) := by
  rw [regAddr, Config.regBase, Nat.zero_add, RegName.offset]

/-- Settles O41: while idle no read is gated, and the three words have the bits of their layouts. -/
theorem codeAndNodeReadbackWhileIdle : Obligations.CodeAndNodeReadbackWhileIdle := by
  unfold Obligations.CodeAndNodeReadbackWhileIdle
  intro s hidle
  have hread := exec_rd32_of_idle hidle
  refine ⟨fun k => ⟨s.codeBitsRd k, ?_, fun j hj => s.getLsbD_codeBitsRd k hj⟩, fun hv hsel => ?_, fun hnone => ?_⟩
  · rw [← regAddr_codeBitsRd]
    exact hread (.codeBitsRd k)
  · have hshown := s.nodeShown_iff.2 ⟨hv, hsel⟩
    refine ⟨⟨nodeWord (s.nodeAt s.sel), (hread .nodeRd).trans ?_, nodeWord_fields _⟩, (hread .nodeWRd).trans ?_⟩
    · simp only [State.readReg, State.nodeRd, hshown, if_true]
    · simp only [State.readReg, State.nodeWRd, hshown, if_true]
  · have hshown : s.nodeShown = false := by rwa [← Bool.not_eq_true, s.nodeShown_iff]
    refine ⟨(hread .nodeRd).trans ?_, (hread .nodeWRd).trans ?_⟩
    · simp [State.readReg, State.nodeRd, hshown]
    · simp [State.readReg, State.nodeWRd, hshown]

/-- The registers that R60 leaves readable while BUSY. -/
theorem RegName.gatedWhileBusy_eq_false_iff (r : RegName) :
    r.gatedWhileBusy = false ↔ r ∈ [RegName.id, .ctrl, .status, .inLen, .sel, .cmd] := by
  cases r <;> simp [RegName.gatedWhileBusy]

/-- Settles O42: which registers are gated is R60's list, and of the buffers OBUF alone is gated. -/
theorem busyReadsGiveFreeValues : Obligations.BusyReadsGiveFreeValues := by
  unfold Obligations.BusyReadsGiveFreeValues
  intro s hz hb
  refine ⟨fun r hr => ?_, fun a ha => ?_, fun a hal ha ha' => ?_, fun r hr => ?_, fun a ha => exec_rd8_ibuf hz ha,
    fun a hal ha ha' => exec_rd32_ibuf hz hal ha ha'⟩
  · rw [← RegName.gatedWhileBusy_eq_false_iff, Bool.not_eq_false] at hr
    exact exec_rd32_of_gated hb hr
  · rw [exec_rd8_obuf hz ha, if_pos hb]
    rfl
  · rw [exec_rd32_obuf hz hal ha ha', if_pos hb]
    rfl
  · exact exec_rd32_of_not_gated s (r.gatedWhileBusy_eq_false_iff.2 hr)

/-! ### Register writes and blocked writes -/

theorem exec_wr32_of_idle {s : State} (h : s.status.busy = false) (r : RegName) (v : Word) :
    exec (.wr32 (regAddr r) v) s = .next (s.writeRegIdle v r) := by
  rw [exec_wr32_reg, State.writeReg, h]
  rfl

theorem exec_wr32_of_busy {s : State} (h : s.status.busy = true) (r : RegName) (v : Word) :
    exec (.wr32 (regAddr r) v) s = .next (s.writeRegBusy v r) := by
  rw [exec_wr32_reg, State.writeReg, h]
  rfl

/-- While BUSY only CTRL and STATUS take a write (R41, log 9). -/
theorem State.writeRegBusy_eq_setWrBlocked (s : State) (v : Word) {r : RegName} (hctrl : r ≠ .ctrl)
    (hstatus : r ≠ .status) : s.writeRegBusy v r = s.setWrBlocked := by
  cases r with
  | ctrl => exact absurd rfl hctrl
  | status => exact absurd rfl hstatus
  | _ => rfl

/-- Settles O47: what is written while BUSY, a register other than CTRL and STATUS or IBUF, is blocked. -/
theorem busyWritesAreBlocked : Obligations.BusyWritesAreBlocked := by
  unfold Obligations.BusyWritesAreBlocked
  intro s hz hb
  refine ⟨fun r v hctrl hstatus => ?_, fun a v ha => ?_, fun a v hal ha ha' => ?_⟩
  · rw [exec_wr32_of_busy hb, s.writeRegBusy_eq_setWrBlocked v hctrl hstatus]
    rfl
  · rw [exec_wr8_ibuf hz ha, if_pos hb]
    rfl
  · rw [exec_wr32_ibuf hz hal ha ha', if_pos hb]
    rfl

/-- CTRL takes a write at any time (R33). -/
theorem exec_wr32_ctrl (s : State) (v : Word) :
    exec (.wr32 0x00000004 v) s = .next { s with ctrl := Ctrl.ofWord v } := by
  refine (exec_wr32_reg s .ctrl v).trans ?_
  cases hb : s.status.busy <;> simp only [State.writeReg, hb] <;> rfl

/-- STATUS takes a write at any time (R43). -/
theorem exec_wr32_status (s : State) (v : Word) :
    exec (.wr32 0x0000000C v) s = .next { s with status := s.status.clearedBy v } := by
  refine (exec_wr32_reg s .status v).trans ?_
  cases hb : s.status.busy <;> simp only [State.writeReg, hb] <;> rfl

/-- A register that is neither CTRL, CMD, STATUS, IN_LEN nor SEL ignores a write while idle (spec/10_state.md section 2). -/
theorem State.writeRegIdle_readOnly (s : State) (v : Word) {r : RegName}
    (h : r ∉ [RegName.ctrl, .cmd, .status, .inLen, .sel]) : s.writeRegIdle v r = s := by
  cases r with
  | ctrl | cmd | status | inLen | sel => simp at h
  | _ => rfl

/-- Settles O48: CTRL takes a write at any time, the other registers are written as while idle. -/
theorem registerWritesTakeTheirFields : Obligations.RegisterWritesTakeTheirFields := by
  unfold Obligations.RegisterWritesTakeTheirFields
  intro s v
  refine ⟨exec_wr32_ctrl s v, fun hidle =>
    ⟨exec_wr32_of_idle hidle .inLen v, exec_wr32_of_idle hidle .sel v, fun r hr => ?_⟩⟩
  rw [exec_wr32_of_idle hidle, s.writeRegIdle_readOnly v hr]

/-- A bit written with 1 to clear. -/
theorem and_not_eq_ite (b c : Bool) : (b && !c) = if c = true then false else b := by
  cases c <;> simp

/-- Settles O49: a STATUS write is the write-1-to-clear of its four bits (`exec_wr32_status`). -/
theorem statusWriteClearsWhereOne : Obligations.StatusWriteClearsWhereOne := by
  unfold Obligations.StatusWriteClearsWhereOne
  intro s v
  simp only [exec_wr32_status, Status.clearedBy, and_not_eq_ite]

/-! ### IRQ -/

/-- Every COMPLETE sets DONE, and ERR where it reports an error, and leaves CTRL (R246). -/
theorem CommandEffect.signals {s t : State} {i : Instr} (h : CommandEffect s i t) :
    t.status.done = true ∧ t.status.err = decide (t.errCode ≠ .none) ∧ t.ctrl = s.ctrl := by
  cases h with
  | produced =>
    rw [State.commitOutput_eq]
    exact ⟨rfl, rfl, rfl⟩
  | _ => exact ⟨rfl, rfl, rfl⟩

theorem State.irq_of_done_err_clear {s : State} (hdone : s.status.done = false) (herr : s.status.err = false) :
    s.irq = false := by
  simp [State.irq, hdone, herr]

/-- Settles O51: a STATUS write of both bits and an ISSUE clear DONE and ERR, a COMPLETE writes them as
`CommandEffect.signals` says. -/
theorem irqFollowsDoneAndErr : Obligations.IrqFollowsDoneAndErr := by
  unfold Obligations.IrqFollowsDoneAndErr
  intro s
  refine ⟨rfl, rfl, fun v t hdone herr hexec => ?_, fun v t hidle hexec => ?_, fun i t hi hexec => ?_⟩
  · rw [exec_wr32_status, Host.Outcome.next.injEq] at hexec
    subst hexec
    exact State.irq_of_done_err_clear (by simp [Status.clearedBy, hdone]) (by simp [Status.clearedBy, herr])
  · obtain rfl := Host.Outcome.next.inj ((exec_wr32_of_idle hidle .cmd v).symm.trans hexec)
    rfl
  · obtain ⟨hdone, herr, hctrl⟩ := (exec_command_effect hi hexec).signals
    rw [State.irq, hdone, herr, hctrl, Bool.true_and]

end Sys2Proof.Machine
end

section
/-! PROOFS. The HOST's side of memory: buffer reads and writes, bus errors, reads without side effect; and that
every step answers (R81 to R87). -/

namespace Sys2Proof.Machine

/-- Settles O8: every arm of `step` answers a next state (`step_effect`). -/
theorem everyStepGoesOn : Obligations.EveryStepGoesOn := by
  unfold Obligations.EveryStepGoesOn
  intro s
  obtain ⟨t, hstep, -⟩ := step_effect s
  exact ⟨t, hstep⟩

/-! ### Buffer reads and writes (R83, R84) -/

/-- Settles O43: RD8 and RD32 by the buffer they reach; the word is `State.readWord_eq`. -/
theorem bufferReadsAreLittleEndian : Obligations.BufferReadsAreLittleEndian := by
  unfold Obligations.BufferReadsAreLittleEndian
  intro s a hz hbuf
  simp only [← State.readWord_eq]
  refine ⟨?_, fun hal hword => ?_⟩
  · rcases hbuf with ha | ⟨ha, hidle⟩
    · exact exec_rd8_ibuf hz ha
    · rw [exec_rd8_obuf hz ha, hidle]
      rfl
  · rcases hword with ⟨ha, ha'⟩ | ⟨ha, ha'⟩
    · exact exec_rd32_ibuf hz hal ha ha'
    · rcases hbuf with hin | ⟨-, hidle⟩
      · exact absurd ha (State.not_inObuf_of_inIbuf hz hin)
      · rw [exec_rd32_obuf hz hal ha ha', hidle]
        rfl

/-- Settles O45: while idle WR8 and WR32 of IBUF are `State.writeByte` and `State.writeWord`, which write the buffer
bytes only. -/
theorem bufferWritesAreLittleEndian : Obligations.BufferWritesAreLittleEndian := by
  unfold Obligations.BufferWritesAreLittleEndian
  intro s a hz hidle ha
  refine ⟨fun v => ⟨s.writeByte a.toNat v, ?_, rfl, s.readByte_writeByte a.toNat v⟩,
    fun v hal ha' => ⟨s.writeWord a.toNat v, ?_, s.writeWord_eq a.toNat v, fun k hk => ?_, fun b hb => ?_⟩⟩
  · rw [exec_wr8_ibuf hz ha, hidle]
    rfl
  · rw [exec_wr32_ibuf hz hal ha ha', hidle]
    rfl
  · rw [State.readByte_writeWord]
    interval_cases k <;> simp
  · rw [State.readByte_writeWord, if_neg (by omega), if_neg (by omega), if_neg (by omega), if_neg (by omega)]

/-! ### Reads change nothing (R87) -/

/-- What a read leaves: the value returned, at most BUS_ERR, and a draw used up where R60 asks for one. -/
theorem BusEffect.frame_of_read {s t : State} {i : Instr} (h : BusEffect s i t)
    (hi : (∃ a, i = .rd8 a) ∨ ∃ a, i = .rd32 a) :
    t = { s with rdata := t.rdata, draws := t.draws, status := { s.status with busErr := t.status.busErr } } ∧
    (s.status.busErr = true → t.status.busErr = true) ∧ t.rdata ≠ none := by
  cases h with
  | read => exact ⟨rfl, id, by simp⟩
  | badRead => exact ⟨rfl, fun _ => rfl, by simp [State.badRead]⟩
  | freeRead => exact ⟨rfl, id, by simp⟩
  | busErr _ hw | blocked _ hw => rcases hw with ⟨_, _, rfl⟩ | ⟨_, _, rfl⟩ <;> simp at hi
  | _ => simp at hi

/-- Settles O44, by the effect of the read. -/
theorem hostReadsHaveNoSideEffect : Obligations.HostReadsHaveNoSideEffect := by
  unfold Obligations.HostReadsHaveNoSideEffect
  rintro s t a (hexec | hexec)
  · exact (exec_bus_effect rfl hexec).frame_of_read (.inl ⟨a, rfl⟩)
  · exact (exec_bus_effect rfl hexec).frame_of_read (.inr ⟨a, rfl⟩)

/-! ### Bus errors (R86) -/

/-- A word write is no bus error at an IBUF word or a register: what R86 (a) to (f) leave. -/
theorem target32_not_writable {s : State} (hz : s.sizes.Valid) (a : Word) :
    (target32 s.sizes a.toNat ≠ .ibuf ∧ ∀ r, target32 s.sizes a.toNat ≠ .reg r) ↔
      a.toNat % 4 ≠ 0 ∨ (¬ (s.InIbuf a.toNat ∧ s.InIbuf (a.toNat + 3)) ∧ ∀ r : RegName, a ≠ regAddr r) := by
  obtain ⟨hibuf, -, hreg⟩ := target32_spec s hz a
  have haligned : ∀ r, a.toNat % 4 ≠ 0 → a ≠ regAddr r := by
    rintro r hne rfl
    exact hne (regAddr_toNat r ▸ (offset_lt r).2)
  simp only [ne_eq, hibuf, hreg]
  constructor
  · rintro ⟨hnot, hreg⟩
    exact or_iff_not_imp_left.2 fun hal => ⟨fun hin => hnot ⟨not_not.1 hal, hin⟩, hreg⟩
  · rintro (hne | ⟨hnot, hreg⟩)
    · exact ⟨fun hin => hne hin.1, fun r => haligned r hne⟩
    · exact ⟨fun hin => hnot hin.2, hreg⟩

theorem State.read8_of_error {s : State} {a : Nat} (h : target8 s.sizes a = .error) : s.read8 a = s.badRead := by
  rw [State.read8, h]

theorem State.read32_of_error {s : State} {a : Nat} (h : target32 s.sizes a = .error) : s.read32 a = s.badRead := by
  rw [State.read32, h]

theorem State.write8_of_not_ibuf {s : State} {a : Nat} (h : target8 s.sizes a ≠ .ibuf) (v : Byte) :
    s.write8 a v = s.setBusErr := by
  unfold State.write8
  split
  · contradiction
  all_goals rfl

theorem State.write32_of_not_writable {s : State} {a : Nat} (hibuf : target32 s.sizes a ≠ .ibuf)
    (hreg : ∀ r, target32 s.sizes a ≠ .reg r) (v : Word) : s.write32 a v = s.setBusErr := by
  unfold State.write32
  split
  · next r h => exact absurd h (hreg r)
  · contradiction
  all_goals rfl

/-- A byte read of a buffer leaves BUS_ERR. -/
theorem State.read8_busErr {s : State} {a : Nat} (h : target8 s.sizes a = .ibuf ∨ target8 s.sizes a = .obuf) :
    (s.read8 a).status.busErr = s.status.busErr := by
  rcases h with h | h
  · rw [State.read8, h]
    rfl
  · simp only [State.read8, h]
    split <;> rfl

theorem State.read32_busErr {s : State} {a : Nat} (h : target32 s.sizes a ≠ .error) :
    (s.read32 a).status.busErr = s.status.busErr := by
  unfold State.read32
  split
  · split <;> rfl
  · rfl
  · split <;> rfl
  · contradiction

theorem State.write8_busErr {s : State} {a : Nat} (h : target8 s.sizes a = .ibuf) (v : Byte) :
    (s.write8 a v).status.busErr = s.status.busErr := by
  simp only [State.write8, h]
  split <;> rfl

/-- A register write does not set BUS_ERR; a write of STATUS can clear it (R43). -/
theorem State.writeReg_busErr (s : State) (r : RegName) (v : Word) (h : s.status.busErr = false) :
    (s.writeReg r v).status.busErr = false := by
  unfold State.writeReg
  split
  · cases r with
    | status => simp [State.writeRegBusy, Status.clearedBy, h]
    | _ => exact h
  · cases r with
    | status => simp [State.writeRegIdle, Status.clearedBy, h]
    | _ => exact h

theorem State.write32_busErr {s : State} {a : Nat}
    (h : target32 s.sizes a = .ibuf ∨ ∃ r, target32 s.sizes a = .reg r) (v : Word) (hs : s.status.busErr = false) :
    (s.write32 a v).status.busErr = false := by
  rcases h with h | ⟨r, h⟩
  · simp only [State.write32, h]
    split
    · exact hs
    · rw [State.writeWord_eq]
      exact hs
  · rw [State.write32, h]
    exact s.writeReg_busErr r v hs

/-- Settles O46: each transaction by what it reaches (R80, R82, R85), an error and nothing else setting BUS_ERR. -/
theorem busErrorsOnlySetBusErr : Obligations.BusErrorsOnlySetBusErr := by
  unfold Obligations.BusErrorsOnlySetBusErr
  intro s a hz
  obtain ⟨hibuf, hobuf, herror, -⟩ := target8_spec s hz a.toNat
  refine ⟨fun hi ho => congrArg _ (State.read8_of_error (herror.2 ⟨hi, ho⟩)),
    fun hi v => congrArg _ (State.write8_of_not_ibuf (mt hibuf.1 hi) v),
    fun h => congrArg _ (State.read32_of_error ((target32_error s hz a).2 h)), fun h v => ?_, ?_⟩
  · obtain ⟨hni, hnr⟩ := (target32_not_writable hz a).2 h
    exact congrArg _ (State.write32_of_not_writable hni hnr v)
  · intro i t hexec hs ht
    refine ⟨?_, ?_, ?_, ?_⟩
    · rintro rfl
      obtain rfl := Host.Outcome.next.inj hexec
      refine ⟨fun hi => ?_, fun ho => ?_⟩
      · simp [State.read8_busErr (.inl (hibuf.2 hi)), hs] at ht
      · simp [State.read8_busErr (.inr (hobuf.2 ho)), hs] at ht
    · rintro v rfl hi
      obtain rfl := Host.Outcome.next.inj hexec
      simp [State.write8_busErr (hibuf.2 hi), hs] at ht
    · rintro rfl
      obtain rfl := Host.Outcome.next.inj hexec
      refine (target32_error s hz a).1 (by_contra fun hne => ?_)
      simp [State.read32_busErr hne, hs] at ht
    · rintro v rfl
      obtain rfl := Host.Outcome.next.inj hexec
      refine (target32_not_writable hz a).1 ⟨fun hi => ?_, fun r hr => ?_⟩
      · simp [State.write32_busErr (.inl hi) v hs] at ht
      · simp [State.write32_busErr (.inr ⟨r, hr⟩) v hs] at ht

end Sys2Proof.Machine
end

section
/-! PROOFS. What a command computes does not depend on the HOST transactions made while BUSY (R41, R95, R230). -/

namespace Sys2Proof.Machine

/-! ### What the HOST can change while BUSY -/

/-- The part of the state that a HOST transaction can change while BUSY: CTRL, the four write-1-to-clear bits of STATUS,
the draw counter and the value returned (R33, R41, R43, R60). -/
structure HostSide where
  ctrl      : Ctrl
  done      : Bool
  err       : Bool
  wrBlocked : Bool
  busErr    : Bool
  draws     : Nat
  rdata     : Option Word

/-- The HOST's side of a state. -/
def State.hostSide (s : State) : HostSide :=
  ⟨s.ctrl, s.status.done, s.status.err, s.status.wrBlocked, s.status.busErr, s.draws, s.rdata⟩

/-- A state with the HOST's side replaced. -/
def State.withHostSide (s : State) (h : HostSide) : State :=
  { s with
    ctrl := h.ctrl
    status := { s.status with done := h.done, err := h.err, wrBlocked := h.wrBlocked, busErr := h.busErr }
    draws := h.draws
    rdata := h.rdata }

/-- While BUSY a transaction changes the HOST's side only. -/
theorem BusEffect.eq_withHostSide {s t : State} {i : Instr} (h : BusEffect s i t) (hb : s.status.busy = true) :
    t = s.withHostSide t.hostSide := by
  cases h with
  | storeByte _ _ hidle | storeWord _ _ hidle | issue _ hidle | inLen _ hidle | sel _ hidle =>
    simp [hb] at hidle
  | _ => rfl

/-! ### No command reads the HOST's side -/

/-- The walk reads NODE, ROOT and DEGEN only. -/
theorem State.walk_withHostSide (s : State) (h : HostSide) (body : Bits) :
    (s.withHostSide h).walk body = s.walk body :=
  State.walk_congr (s := s.withHostSide h) (t := s) rfl rfl rfl body

theorem State.writeBytes_withHostSide (s : State) (h : HostSide) (a : Nat) (l : List Byte) :
    (s.withHostSide h).writeBytes a l = (s.writeBytes a l).withHostSide h := by
  induction l generalizing s a with
  | nil => rfl
  | cons v rest ih => exact ih (s.writeByte a v) (a + 1)

theorem State.commitOutput_withHostSide (s : State) (h : HostSide) (out : List Byte) (bits pad : Nat) :
    (s.withHostSide h).commitOutput out bits pad = (s.commitOutput out bits pad).withHostSide h := by
  rw [State.commitOutput, State.writeBytes_withHostSide]
  rfl

/-- Checks and commit read no field of the HOST's side, so both sides are the same tree of conditions, leaf by leaf. -/
theorem analyze_withHostSide (s : State) (h : HostSide) :
    analyze (s.withHostSide h) = (analyze s).map (·.withHostSide h) := by
  simp only [analyze, apply_ite (Except.map _)]
  rfl

theorem build_withHostSide (s : State) (h : HostSide) :
    build (s.withHostSide h) = (build s).map (·.withHostSide h) := by
  simp only [build, apply_ite (Except.map _)]
  rfl

/-- The code bits depend on the code table only. -/
theorem State.encodeFrom_withHostSide (s : State) (h : HostSide) (i : Nat) (l : List Byte) :
    (s.withHostSide h).encodeFrom i l = s.encodeFrom i l := by
  induction l generalizing i with
  | nil => rfl
  | cons sym rest ih =>
    simp only [State.encodeFrom, ih]
    rfl

theorem State.encodeResult_withHostSide (s : State) (h : HostSide) :
    (s.withHostSide h).encodeResult = s.encodeResult := by
  simp only [State.encodeResult, State.encodeFrom_withHostSide]
  rfl

theorem encodeInput_withHostSide (s : State) (h : HostSide) :
    encodeInput (s.withHostSide h) = (encodeInput s).map (·.withHostSide h) := by
  rw [encodeInput_eq, encodeInput_eq, State.encodeResult_withHostSide]
  cases s.encodeResult with
  | error e => rfl
  | ok bits => exact congrArg _ (s.commitOutput_withHostSide h _ _ _)

theorem State.decodeResult_withHostSide (s : State) (h : HostSide) (p : Nat) (body : Bits) :
    (s.withHostSide h).decodeResult p body = s.decodeResult p body := by
  simp only [State.decodeResult, State.walk_withHostSide]
  rfl

theorem State.decodePadded_withHostSide (s : State) (h : HostSide) (p : Nat) :
    (s.withHostSide h).decodePadded p = (s.decodePadded p).map (·.withHostSide h) := by
  have hinput : (s.withHostSide h).inputBytes = s.inputBytes := rfl
  rw [decodePadded_eq, decodePadded_eq, State.decodeResult_withHostSide, hinput]
  cases s.decodeResult p (bodyBits s.inputBytes p) with
  | error e => rfl
  | ok out => exact congrArg _ (s.commitOutput_withHostSide h _ _ _)

theorem decodeInput_withHostSide (s : State) (h : HostSide) :
    decodeInput (s.withHostSide h) = (decodeInput s).map (·.withHostSide h) := by
  simp only [decodeInput, State.decodePadded_withHostSide, apply_ite (Except.map _)]
  rfl

/-! ### An error is never NONE -/

theorem encodeInput_error_ne_none {s : State} {e : Raise} (h : encodeInput s = .error e) : e.code ≠ .none := by
  unfold encodeInput at h
  split_ifs at h
  · cases h; simp
  · cases h; simp
  · cases h; simp
  · split at h
    · next hfrom => cases h; simp [encodeFrom_error hfrom]
    · split_ifs at h
      cases h; simp

theorem decodeInput_error_ne_none {s : State} {e : Raise} (h : decodeInput s = .error e) : e.code ≠ .none := by
  simp only [decodeInput, State.decodePadded] at h
  split_ifs at h <;> cases h <;> simp

/-! ### COMPLETE -/

/-- `t` and `u` are two ends of a command issued in `s` with the same results, tables and ERR, the same
bytes outside OBUF and, after a success, in it (an error leaves free values there, R247). -/
structure State.SameOutcome (s t u : State) : Prop extends
    State.SameResults u t, State.SameTable u t, State.SameTree u t where
  err     : t.status.err = u.status.err
  outside : ∀ a, ¬ s.InObuf a → t.readByte a = u.readByte a
  bytes   : u.errCode = .none → ∀ a, t.readByte a = u.readByte a

/-- Two ends that differ in the HOST's side, but for ERR, only. -/
theorem State.sameOutcome_withHostSide (s u : State) {h : HostSide} (herr : h.err = u.status.err) :
    s.SameOutcome (u.withHostSide h) u :=
  ⟨⟨rfl, rfl, rfl, rfl, rfl⟩, ⟨rfl, rfl, rfl, rfl, rfl⟩, ⟨⟨rfl, rfl, rfl, rfl⟩, rfl, rfl, rfl⟩, herr, fun _ _ => rfl,
    fun _ _ => rfl⟩

/-- COMPLETE overwrites DONE and ERR, so what the HOST made of them is lost (R246). -/
theorem State.sameOutcome_finish (s u : State) (h : HostSide) (code : ErrCode) (info : Word) :
    s.SameOutcome ((u.withHostSide h).finish code info) (u.finish code info) :=
  s.sameOutcome_withHostSide (u.finish code info) (h := ((u.withHostSide h).finish code info).hostSide) rfl

theorem sameOutcome_complete {s : State} {h : HostSide} {r r' : Except Raise State}
    (hr : r' = r.map (·.withHostSide h)) :
    s.SameOutcome (complete r' (s.withHostSide h)) (complete r s) := by
  subst hr
  cases r with
  | ok u => exact s.sameOutcome_finish u h .none 0
  | error e => exact s.sameOutcome_finish s h e.code e.info

/-- A failed ENCODE or DECODE redraws OBUF, from a draw that depends on the HOST's reads (R60, R247). -/
theorem sameOutcome_completeOutput {s : State} {h : HostSide} {r r' : Except Raise State}
    (hr : r' = r.map (·.withHostSide h)) (hcode : ∀ e, r = .error e → e.code ≠ .none) :
    s.SameOutcome (completeOutput r' (s.withHostSide h)) (completeOutput r s) := by
  subst hr
  cases r with
  | ok u => exact s.sameOutcome_finish u h .none 0
  | error e =>
    refine ⟨⟨rfl, rfl, rfl, rfl, rfl⟩, ⟨rfl, rfl, rfl, rfl, rfl⟩, ⟨⟨rfl, rfl, rfl, rfl⟩, rfl, rfl, rfl⟩, rfl,
      fun a ha => ?_, fun hnone => absurd hnone (hcode e rfl)⟩
    calc (s.withHostSide h).redrawObuf.readByte a
        = s.readByte a := ((s.withHostSide h).readByte_redrawObuf a).trans (if_neg ha)
      _ = s.redrawObuf.readByte a := ((s.readByte_redrawObuf a).trans (if_neg ha)).symm

theorem State.SameOutcome.of_next {s t u t' u' : State} (h : s.SameOutcome t' u')
    (ht : (.next t' : Host.Outcome State Fault Refusal) = .next t)
    (hu : (.next u' : Host.Outcome State Fault Refusal) = .next u) : s.SameOutcome t u := by
  obtain rfl := Host.Outcome.next.inj ht
  obtain rfl := Host.Outcome.next.inj hu
  exact h

/-- A command has the same outcome whatever the HOST's side is. -/
theorem exec_command_sameOutcome {i : Instr} (hi : Instr.isCommand i = true) {s t u : State} (h : HostSide)
    (ht : exec i (s.withHostSide h) = .next t) (hu : exec i s = .next u) : s.SameOutcome t u := by
  cases i with
  | nop => exact (sameOutcome_complete (r := .ok s) rfl).of_next ht hu
  | clear => exact (sameOutcome_complete (r := .ok s.cleared) rfl).of_next ht hu
  | illegal w => exact (sameOutcome_complete (r := .error ⟨.illegalCmd, w⟩) rfl).of_next ht hu
  | analyze => exact (sameOutcome_complete (analyze_withHostSide s h)).of_next ht hu
  | build => exact (sameOutcome_complete (build_withHostSide s h)).of_next ht hu
  | encode =>
    exact (sameOutcome_completeOutput (encodeInput_withHostSide s h) fun _ => encodeInput_error_ne_none).of_next ht hu
  | decode =>
    exact (sameOutcome_completeOutput (decodeInput_withHostSide s h) fun _ => decodeInput_error_ne_none).of_next ht hu
  | rd8 | rd32 | wr8 | wr32 => simp [Instr.isCommand] at hi

/-- Settles O60: while BUSY the HOST changes its own side of the state only (`BusEffect.eq_withHostSide`), which no command
reads (`exec_command_sameOutcome`). -/
theorem completeIgnoresHostTransactions : Obligations.CompleteIgnoresHostTransactions := by
  unfold Obligations.CompleteIgnoresHostTransactions
  intro i b s s' t u hi hb hbusy hhost ht hu
  rw [(exec_bus_effect hb hhost).eq_withHostSide hbusy] at ht
  obtain ⟨⟨hcode, hinfo, hout, hbits, hpad⟩, ⟨hfreq, horder, hnsym, htotal, hfv⟩,
    ⟨⟨hnode, hcbits, hroot, hnnodes⟩, hclen, htv, hdegen⟩, herr, houtside, hbytes⟩ :=
    exec_command_sameOutcome hi s'.hostSide ht hu
  exact ⟨hcode, hinfo, hout, hbits, hpad, hnsym, htotal, hroot, hnnodes, hfreq, horder, hnode, hclen, hcbits, hfv, htv,
    hdegen, herr, houtside, hbytes⟩

end Sys2Proof.Machine
end

section
/-! PROOFS. Encodings: which command words are illegal, and that the decoder and the encoder are inverses (R110 to
R114). -/

namespace Sys2Proof.Machine

/-! ### Instructions to bytes and back -/

/-- Settles O2: one law of the round trip per constructor of `Instr`; the operands come back because a word's bytes,
put together again, are the word. -/
theorem decodeOfEncodeIsTheInstruction : Obligations.DecodeOfEncodeIsTheInstruction := by
  unfold Obligations.DecodeOfEncodeIsTheInstruction
  intro i hwf
  cases i with
  | nop => exact Laws.RoundTrip.nop hwf
  | clear => exact Laws.RoundTrip.clear hwf
  | analyze => exact Laws.RoundTrip.analyze hwf
  | build => exact Laws.RoundTrip.build hwf
  | encode => exact Laws.RoundTrip.encode hwf
  | decode => exact Laws.RoundTrip.decode hwf
  | illegal word => exact Laws.RoundTrip.illegal word hwf
  | rd8 addr => exact Laws.RoundTrip.rd8 addr hwf
  | rd32 addr => exact Laws.RoundTrip.rd32 addr hwf
  | wr8 addr value => exact Laws.RoundTrip.wr8 addr value hwf
  | wr32 addr value => exact Laws.RoundTrip.wr32 addr value hwf

/-! ### Command words (R111, R113) -/

theorem opcField_toNat (w : Word) : (opcField w).toNat = w.toNat % 2 ^ 8 := by
  rw [opcField, BitVec.extractLsb'_toNat, Nat.shiftRight_zero]

theorem rsvField_eq_zero_iff (w : Word) : rsvField w = 0 ↔ w.toNat < 2 ^ 8 := by
  have hval : (rsvField w).toNat = w.toNat / 2 ^ 8 := by
    rw [rsvField, BitVec.extractLsb'_toNat, Nat.shiftRight_eq_div_pow]
    omega
  rw [← BitVec.toNat_inj, hval, BitVec.ofNat_eq_ofNat, BitVec.toNat_zero, Nat.div_eq_zero_iff_lt (by decide)]

/-- R113's condition, in its own words. -/
theorem isIllegalWord_iff_fields (w : Word) :
    isIllegalWord w = true ↔ 6 ≤ (opcField w).toNat ∨ rsvField w ≠ 0 := by
  rw [isIllegalWord, Bool.or_eq_true, decide_eq_true_iff, decide_eq_true_iff]

/-- What R113 says by the fields OPC and RSV is that the illegal words are the numbers from 6 on. -/
theorem isIllegalWord_iff (w : Word) : isIllegalWord w = true ↔ 6 ≤ w.toNat := by
  rw [isIllegalWord_iff_fields, Ne, rsvField_eq_zero_iff, opcField_toNat]
  omega

theorem decodeCommand_of_illegal {w : Word} (h : isIllegalWord w = true) : decodeCommand w = .illegal w :=
  if_pos h

/-- The six words that are not illegal, with the command of each. -/
theorem decodeCommand_of_legal {w : Word} (h : ¬ isIllegalWord w = true) :
    (w = 0 ∧ decodeCommand w = .nop) ∨ (w = 1 ∧ decodeCommand w = .clear) ∨
    (w = 2 ∧ decodeCommand w = .analyze) ∨ (w = 3 ∧ decodeCommand w = .build) ∨
    (w = 4 ∧ decodeCommand w = .encode) ∨ (w = 5 ∧ decodeCommand w = .decode) := by
  rw [isIllegalWord_iff, not_le] at h
  obtain ⟨n, rfl⟩ : ∃ n : Fin 6, w = BitVec.ofNat 32 n := ⟨⟨w.toNat, h⟩, by simp⟩
  revert n
  decide

theorem commandWord_decodeCommand (w : Word) :
    (decodeCommand w).wellFormed = true ∧ commandWord (decodeCommand w) = some w := by
  by_cases h : isIllegalWord w = true
  · rw [decodeCommand_of_illegal h]
    exact ⟨h, rfl⟩
  · rcases decodeCommand_of_legal h with ⟨rfl, hi⟩ | ⟨rfl, hi⟩ | ⟨rfl, hi⟩ | ⟨rfl, hi⟩ | ⟨rfl, hi⟩ | ⟨rfl, hi⟩ <;>
      rw [hi] <;> exact ⟨rfl, rfl⟩

/-! ### Bus transactions (R114) -/

/-- ATTR picks the transaction's kind. -/
theorem decodeBus_cases (t : BusTxn) :
    (t.attr = 0b00 ∧ decodeBus t = .rd8 t.addr) ∨ (t.attr = 0b01 ∧ decodeBus t = .rd32 t.addr) ∨
    (t.attr = 0b10 ∧ decodeBus t = .wr8 t.addr (t.wdata.extractLsb' 0 8)) ∨
    (t.attr = 0b11 ∧ decodeBus t = .wr32 t.addr t.wdata) := by
  obtain ⟨attr, addr, wdata⟩ := t
  have hattr : attr = 0b00 ∨ attr = 0b01 ∨ attr = 0b10 ∨ attr = 0b11 := by
    revert attr
    decide
  rcases hattr with rfl | rfl | rfl | rfl <;> simp [decodeBus]

theorem extractLsb'_setWidth_byte (v : Byte) : (v.setWidth 32).extractLsb' 0 8 = v := by
  rw [← BitVec.setWidth_eq_extractLsb' (by decide), BitVec.setWidth_setWidth_of_le v (by decide), BitVec.setWidth_eq]

/-- Settles O3: a command word is one of the six or is held whole (`commandWord_decodeCommand`), and a transaction is
written down again from ATTR (`decodeBus_cases`). -/
theorem encodeOfDecodeIsTheWord : Obligations.EncodeOfDecodeIsTheWord := by
  unfold Obligations.EncodeOfDecodeIsTheWord
  refine ⟨commandWord_decodeCommand, fun t => ?_⟩
  rcases decodeBus_cases t with ⟨ha, hi⟩ | ⟨ha, hi⟩ | ⟨ha, hi⟩ | ⟨ha, hi⟩ <;> rw [hi, ha]
  · exact ⟨rfl, _, rfl, rfl, rfl, by simp, by simp⟩
  · exact ⟨rfl, _, rfl, rfl, rfl, by simp, by simp⟩
  · exact ⟨rfl, _, rfl, rfl, rfl, fun _ => extractLsb'_setWidth_byte _, by simp⟩
  · exact ⟨rfl, _, rfl, rfl, rfl, by simp, fun _ => rfl⟩

/-! ### Illegal words (R113) -/

/-- Settles O4: OPC and RSV decide between `illegal` and the six commands (`decodeCommand_of_illegal`,
`decodeCommand_of_legal`), a CMD write issues any word while idle (`exec_wr32_of_idle`), and the meaning of an illegal
word is the COMPLETE of its error. -/
theorem illegalWordsIssueAndFail : Obligations.IllegalWordsIssueAndFail := by
  unfold Obligations.IllegalWordsIssueAndFail
  intro w
  have hfields : (6 ≤ (w.extractLsb' 0 8).toNat ∨ w.extractLsb' 8 24 ≠ 0) ↔ isIllegalWord w = true :=
    (isIllegalWord_iff_fields w).symm
  rw [hfields]
  exact ⟨decodeCommand_of_illegal, decodeCommand_of_legal, fun s hidle => exec_wr32_of_idle hidle .cmd w, fun s => rfl⟩

/-! ### Words of the spec's tables (R111, R114) -/

/-- Settles O1: each byte string is closed, and the decoder runs on it. -/
theorem specWordsDecodeToTheirInstructions : Obligations.SpecWordsDecodeToTheirInstructions := by
  unfold Obligations.SpecWordsDecodeToTheirInstructions
  decide

end Sys2Proof.Machine
end

section
/-! PROOFS. ANALYZE (R130 to R134): its two errors, the table it commits, and what that table adds up to. -/

namespace Sys2Proof.Machine

/-! ### What ANALYZE answers -/

theorem exec_analyze_of_long {s : State} (h : s.sizes.ibufBytes < s.inLen.toNat) :
    exec .analyze s = .next (s.finish .lengthRange s.inLen) := by
  simp only [exec, execAnalyze, analyze, if_pos h, complete]

theorem exec_analyze_of_empty {s : State} (h : s.inLen = 0) :
    exec .analyze s = .next (s.finish .emptyInput 0) := by
  have hfits : ¬ s.sizes.ibufBytes < s.inLen.toNat := by simp [h]
  simp only [exec, execAnalyze, analyze, if_neg hfits, if_pos h, complete]

theorem exec_analyze_of_legal {s : State} (h1 : 1 ≤ s.inLen.toNat) (h2 : s.inLen.toNat ≤ s.sizes.ibufBytes) :
    exec .analyze s = .next ((s.commitTally (Tally.scan s.inputBytes)).finish .none 0) := by
  simp only [exec, execAnalyze, analyze_ok h1 h2, complete]

/-- With an error code COMPLETE sets ERR and changes only its own fields (R246, R247). -/
theorem State.failedTo_finish (s : State) {code : ErrCode} (info : Word) (h : code ≠ .none) :
    s.FailedTo code info (s.finish code info) := by
  simp only [State.FailedTo, State.finish, Status.completed, decide_eq_true h]

/-- An ANALYZE that ends without an error had a length in range and committed its pass (R130). -/
theorem exec_analyze_committed {s t : State} (h : exec .analyze s = .next t) (hok : t.errCode = .none) :
    1 ≤ s.inLen.toNat ∧ t = (s.commitTally (Tally.scan s.inputBytes)).finish .none 0 := by
  cases exec_command_effect rfl h with
  | failed _ _ code _ hcode => exact absurd hok hcode
  | failedOutput _ hi => simp at hi
  | produced _ hi => simp at hi
  | analyzed hpos => exact ⟨hpos, rfl⟩

/-! ### The committed table -/

theorem State.inputBytes_length_lt (s : State) : s.inputBytes.length < 2 ^ 32 :=
  s.length_inputBytes ▸ s.inLen.isLt

/-- Every symbol that ANALYZE lists is a symbol of the input, so there are at most IN_LEN of them (R134). -/
theorem State.nsym_commitTally_le (s : State) :
    (s.commitTally (Tally.scan s.inputBytes)).nsym.toNat ≤ s.inLen.toNat := by
  obtain ⟨-, hle, -⟩ := Tally.count_le s.inputBytes_length_lt
  rw [← State.length_symbols, State.symbols_commitTally s.inputBytes_length_lt]
  simpa [Tally.listed] using hle

/-- ORDER's entries below NSYM are pairwise distinct when the listed symbols do not repeat. -/
theorem State.orderAt_ne_of_nodup {s : State} (h : s.symbols.Nodup) {i j : Nat} (hi : i < s.nsym.toNat)
    (hj : j < s.nsym.toNat) (hij : i ≠ j) : s.orderAt i ≠ s.orderAt j := fun heq =>
  hij (List.inj_on_of_nodup_map h (List.mem_range.2 hi) (List.mem_range.2 hj) heq)

/-! ### R130 to R134 -/

/-- Settles O15: the pass over the input keeps `Tally.Inv`, whose fields are the four facts of R131 and R132 about the
table ANALYZE commits; the frame is the commit's own. -/
theorem analyzeReplacesTheTable : Obligations.AnalyzeReplacesTheTable := by
  unfold Obligations.AnalyzeReplacesTheTable
  intro s _ hpos hfits
  have hpass := Tally.scan_inv s.inputBytes_length_lt
  have hsymbols : ((s.commitTally (Tally.scan s.inputBytes)).finish .none 0).symbols =
      (Tally.scan s.inputBytes).listed := State.symbols_commitTally s.inputBytes_length_lt
  refine ⟨_, exec_analyze_of_legal hpos hfits, rfl, hpass.counts, ?_⟩
  rw [hsymbols]
  exact ⟨hpass.nodup, hpass.mem, hpass.first⟩

/-- Settles O16: an ANALYZE without an error committed its pass (`exec_analyze_committed`), and the committed table has
the invariant of a frequency table (`State.tableInv_commitTally`). -/
theorem analyzeTableTotals : Obligations.AnalyzeTableTotals := by
  unfold Obligations.AnalyzeTableTotals
  intro s t _ hexec hok
  obtain ⟨hpos, rfl⟩ := exec_analyze_committed hexec hok
  have htable := State.tableInv_commitTally hpos
  exact ⟨htable.total_eq.symm, rfl, htable.nsym_pos, le_min s.nsym_commitTally_le htable.nsym_le,
    fun i j hi hj hij => State.orderAt_ne_of_nodup htable.distinct hi hj hij⟩

/-- Settles O14: a length past IBUF_BYTES and length 0 each take their error branch of ANALYZE, whose COMPLETE changes
only its own fields (`State.failedTo_finish`). -/
theorem analyzeRejectsABadLength : Obligations.AnalyzeRejectsABadLength := by
  unfold Obligations.AnalyzeRejectsABadLength
  intro s
  exact ⟨fun hlong => ⟨_, exec_analyze_of_long hlong, s.failedTo_finish _ (by decide)⟩,
    fun hempty => ⟨_, exec_analyze_of_empty hempty, s.failedTo_finish _ (by decide)⟩⟩

end Sys2Proof.Machine
end

section
/-! PROOFS. BUILD (R150 to R158): its one error, the arena and the merges that fill it, and the codes. -/

namespace Sys2Proof.Machine

/-! ### What BUILD answers -/

theorem exec_build_of_not_freqValid {s : State} (h : s.status.freqValid = false) :
    exec .build s = .next (s.finish .notReady 1) := by
  simp only [exec, execBuild, build, h, Bool.false_eq_true, if_false, complete]

/-- COMPLETE writes no field that says what BUILD left. -/
theorem State.Built.finish {s t : State} {f : Forest} (h : s.Built f t) (code : ErrCode) (info : Word) :
    s.Built f (t.finish code info) :=
  { h with
    tree := h.tree.congr rfl rfl rfl rfl rfl rfl rfl rfl
    values := fun hd b p hp => h.values hd b p ((t.finish_leads code info b _ p).1 hp) }

/-- A BUILD from a state with the invariant and a table leaves the tree of the table, the table itself and the two
tree bits (R150). -/
theorem State.Inv.built_of_exec {s t : State} (hinv : s.Inv) (hv : s.status.freqValid = true)
    (hexec : exec .build s = .next t) :
    s.Built (Forest.build s.freq s.symbols) t ∧ t.freq = s.freq ∧ t.status.treeValid = true ∧
      t.status.degen = decide (s.nsym = 1) := by
  rw [exec_build_of_freqValid hv, Host.Outcome.next.injEq] at hexec
  subst hexec
  exact ⟨(hinv.table hv).built.finish _ _, rfl, rfl, rfl⟩

/-! ### The arena as the state holds it -/

namespace State.Built

variable {s t : State} {f : Forest}

theorem nnodes_eq (h : s.Built f t) : t.nnodes.toNat = f.arena.length := h.nodes.trans h.size.symm

theorem getElem?_arena (h : s.Built f t) {i : NodeIdx} (hi : i.toNat < t.nnodes.toNat) :
    f.arena[i.toNat]? = some (t.nodeAt i) := by
  rw [h.nnodes_eq] at hi
  have hget := List.getElem?_eq_getElem hi
  rw [hget, h.holds i _ hget]

theorem nodeAt_leaf (h : s.Built f t) {i : NodeIdx} (hi : i.toNat < s.nsym.toNat) :
    t.nodeAt i = leafNode s.freq (s.orderAt i.toNat) :=
  h.holds i _ (h.leaf _ hi)

/-- An internal node has two earlier nodes as children and the sum of their weights (R152). -/
theorem nodeAt_inner (h : s.Built f t) {i : NodeIdx} (hm : s.nsym.toNat ≤ i.toNat) (hi : i.toNat < t.nnodes.toNat) :
    (t.nodeAt i).leaf = false ∧ (t.nodeAt i).sym = 0 ∧ (t.nodeAt i).left < i ∧ (t.nodeAt i).right < i ∧
    (t.nodeAt i).w.toNat = (t.nodeAt (t.nodeAt i).left).w.toNat + (t.nodeAt (t.nodeAt i).right).w.toNat := by
  obtain ⟨hleaf, hsym, hleft, hright, hw⟩ := h.inner _ hm _ (h.getElem?_arena hi)
  exact ⟨hleaf, hsym, hleft, hright,
    hw _ _ (h.getElem?_arena (hleft.trans hi)) (h.getElem?_arena (hright.trans hi))⟩

/-- Which nodes are in the queue can be read off the state's arena. -/
theorem live_iff (h : s.Built f t) {i : NodeIdx} (hi : i.toNat ≤ t.nnodes.toNat) (j : NodeIdx) :
    t.Live s.nsym.toNat i j ↔ LiveIn f.arena s.nsym.toNat i.toNat j.toNat := by
  refine and_congr Iff.rfl ⟨fun hfree k hm hk nd hnd => ?_, fun hfree k hm hk => ?_⟩
  · have hk9 : (BitVec.ofNat 9 k).toNat = k := Nat.mod_eq_of_lt (hk.trans i.isLt)
    have hnode : t.nodeAt (BitVec.ofNat 9 k) = nd := h.holds _ _ (hk9.symm ▸ hnd)
    obtain ⟨hleft, hright⟩ := hfree (BitVec.ofNat 9 k) (hk9.symm ▸ hm) (by rw [BitVec.lt_def, hk9]; exact hk)
    rw [hnode] at hleft hright
    exact ⟨mt BitVec.eq_of_toNat_eq hleft, mt BitVec.eq_of_toNat_eq hright⟩
  · obtain ⟨hleft, hright⟩ := hfree _ hm hk _ (h.getElem?_arena (Nat.lt_of_lt_of_le hk hi))
    exact ⟨mt (congrArg BitVec.toNat) hleft, mt (congrArg BitVec.toNat) hright⟩

/-- The order of two nodes' keys can be read off the state's arena. -/
theorem keyBefore_of_keyIn (h : s.Built f t) {a b : NodeIdx} (ha : a.toNat < t.nnodes.toNat)
    (hb : b.toNat < t.nnodes.toNat) (hkey : KeyIn f.arena a.toNat b.toNat) : t.KeyBefore a b := by
  obtain hw | ⟨hw, hab⟩ := hkey _ _ (h.getElem?_arena ha) (h.getElem?_arena hb)
  · exact .inl hw
  · exact .inr ⟨BitVec.eq_of_toNat_eq hw, hab⟩

/-- The root is the one node that no merge took (R153). -/
theorem ne_rootIdx_iff (h : s.Built f t) {j : NodeIdx} (hj : j.toNat < t.nnodes.toNat) :
    j ≠ t.rootIdx ↔ ∃ i : NodeIdx, s.nsym.toNat ≤ i.toNat ∧ i.toNat < t.nnodes.toNat ∧
      ((t.nodeAt i).left = j ∨ (t.nodeAt i).right = j) := by
  have hend : (BitVec.ofNat 9 t.nnodes.toNat).toNat = t.nnodes.toNat := by
    have := h.nodes
    have := h.root
    have := t.rootIdx.isLt
    rw [BitVec.toNat_ofNat]
    omega
  have hroot : t.Live s.nsym.toNat (BitVec.ofNat 9 t.nnodes.toNat) j ↔ j = t.rootIdx := by
    rw [h.live_iff hend.le, hend, h.nnodes_eq, h.last, BitVec.toNat_inj]
  rw [ne_eq, ← hroot]
  simp only [State.Live, BitVec.lt_def, hend, hj, true_and, not_forall, not_and_or, ne_eq, not_not, exists_prop]

/-- A path from the root has at most NSYM - 1 bits (R9). -/
theorem length_lt_of_leads (h : s.Built f t) {sym : Byte} {p : Bits} (hp : t.Leads sym t.rootIdx p) :
    p.length < s.nsym.toNat := by
  obtain ⟨T, hrep, -, hdepth⟩ := h.rep
  exact (HTree.length_le_depth ((State.leads_iff h.holds hrep sym p).1 hp)).trans_lt hdepth

end State.Built

/-! ### A table of one symbol (R156) -/

/-- The one symbol's code is "0". -/
theorem State.TableInv.codes_of_single {s : State} (h : s.TableInv) (hone : s.nsym = 1) :
    (Forest.build s.freq s.symbols).codes s.nsym.toNat = [(s.orderAt 0, [false])] := by
  have hbuilt := h.built
  obtain ⟨-, -, hroot, -⟩ := h.commitTree
  have hn : s.nsym.toNat = 1 := by rw [hone]; rfl
  have hroot0 : (Forest.build s.freq s.symbols).root = 0 := by rw [← hroot, hbuilt.root, hn]
  rw [Forest.codes, if_pos hn, hroot0, hbuilt.leaf 0 (by omega)]
  rfl

/-! ### ENCODE of a symbol without a code (R157) -/

theorem hasCode_of_encodeFrom_ok {s : State} {i : Nat} {l : List Byte} {bits : Bits}
    (h : s.encodeFrom i l = .ok bits) : ∀ b ∈ l, s.HasCode b := by
  induction l generalizing i bits with
  | nil => simp
  | cons a rest ih =>
    rw [State.encodeFrom] at h
    split at h
    · cases h
    · rename_i ha
      split at h
      · rename_i hrest
        exact List.forall_mem_cons.2 ⟨ha, ih hrest⟩
      · cases h

/-- With a tree and a length in range, an input symbol without a code makes ENCODE fail with UNKNOWN_SYMBOL (R180). -/
theorem exec_encode_of_uncoded {s t : State} (hv : s.status.treeValid = true)
    (hfits : s.inLen.toNat ≤ s.sizes.ibufBytes) {b : Byte} (hb : b ∈ s.inputBytes) (hcode : ¬ s.HasCode b)
    (hexec : exec .encode s = .next t) : t.errCode = .unknownSymbol := by
  have hpos : s.inLen ≠ 0 := by
    intro h0
    have := List.length_pos_of_mem hb
    simp [h0] at this
  obtain ⟨e, he⟩ : ∃ e, s.encodeFrom 0 s.inputBytes = .error e := by
    cases hfrom : s.encodeFrom 0 s.inputBytes with
    | error e => exact ⟨e, rfl⟩
    | ok bits => exact absurd (hasCode_of_encodeFrom_ok hfrom b hb) hcode
  have hin : encodeInput s = .error e := by
    simp only [encodeInput, hv, Bool.true_eq_false, if_false, if_neg (Nat.not_lt.2 hfits), if_neg hpos, he]
  rw [exec, execEncode, hin, Host.Outcome.next.injEq] at hexec
  subst hexec
  exact encodeFrom_error he

/-! ### R150 to R158 -/

/-- Settles O19: the arena BUILD commits is the one `Forest.build_spec` describes, read through the state
(`State.Built`); the root is the one node that no merge took. -/
theorem buildArenaHasLeavesThenInnerNodes : Obligations.BuildArenaHasLeavesThenInnerNodes := by
  unfold Obligations.BuildArenaHasLeavesThenInnerNodes
  intro s t hinv hv hexec
  obtain ⟨hbuilt, -⟩ := hinv.built_of_exec hv hexec
  exact ⟨hbuilt.nodes, hbuilt.root, fun i hi => hbuilt.nodeAt_leaf hi, fun i hm hi => hbuilt.nodeAt_inner hm hi,
    fun j hj => hbuilt.ne_rootIdx_iff hj⟩

/-- Settles O20: every round of the loop keeps `Forest.Choice`, which says it of the arena; the state's arena is that
one. -/
theorem buildJoinsTheTwoLeastNodes : Obligations.BuildJoinsTheTwoLeastNodes := by
  unfold Obligations.BuildJoinsTheTwoLeastNodes
  intro s t hinv hv hexec i hm hi
  obtain ⟨hbuilt, -⟩ := hinv.built_of_exec hv hexec
  obtain ⟨hleaf, -, hleft, hright, hw⟩ := hbuilt.nodeAt_inner hm hi
  obtain ⟨liveLeft, liveRight, hkey, hleast⟩ := hbuilt.choice.least _ hm _ (hbuilt.getElem?_arena hi)
  have hlive := hbuilt.live_iff hi.le
  have earlier : ∀ {j : NodeIdx}, j < i → j.toNat < t.nnodes.toNat := fun hj => Nat.lt_trans hj hi
  refine ⟨hleaf, hw, (hlive _).2 liveLeft, (hlive _).2 liveRight,
    hbuilt.keyBefore_of_keyIn (earlier hleft) (earlier hright) hkey, fun j hj jl jr => ?_⟩
  exact hbuilt.keyBefore_of_keyIn (earlier hright) (earlier hj.1)
    (hleast _ ((hlive j).1 hj) (mt BitVec.eq_of_toNat_eq jl) (mt BitVec.eq_of_toNat_eq jr))

/-- Settles O21: the codes are the root-to-leaf paths (`State.TreeInv`), hence prefix-free; a path has at most 255 bits
(`State.Built.length_lt_of_leads`), so CLEN and CBITS hold its length and value whole. -/
theorem buildCodesArePrefixFreeAndInverse : Obligations.BuildCodesArePrefixFreeAndInverse := by
  unfold Obligations.BuildCodesArePrefixFreeAndInverse
  intro s t hinv hv hexec
  obtain ⟨hbuilt, -, -, hdegen⟩ := hinv.built_of_exec hv hexec
  refine ⟨hbuilt.tree.prefixFree, hbuilt.tree.inverse, fun hm sym p hp => ?_⟩
  have hgeneral : t.status.degen = false := hdegen.trans (decide_eq_false hm)
  obtain ⟨hclen, hcbits⟩ := hbuilt.values hgeneral sym p hp
  have hlen : p.length ≤ 255 := by
    have := hbuilt.length_lt_of_leads hp
    have := (hinv.table hv).nsym_le
    omega
  have hval : natOfBits p < 2 ^ 255 := (natOfBits_lt p).trans_le (Nat.pow_le_pow_right (by decide) hlen)
  refine ⟨?_, ?_, ?_⟩
  · rintro rfl
    exact absurd (hp.1.symm.trans (hbuilt.tree.root_inner hgeneral)) (by decide)
  · rw [hclen, BitVec.toNat_ofNat, Nat.mod_eq_of_lt (by omega)]
  · rw [hcbits, BitVec.toNat_ofNat, Nat.mod_eq_of_lt hval]

/-- Settles O22: one symbol gives one leaf, which is the root, and the list of codes has the one entry "0". -/
theorem buildGivesASingleSymbolTheCodeZero : Obligations.BuildGivesASingleSymbolTheCodeZero := by
  unfold Obligations.BuildGivesASingleSymbolTheCodeZero
  intro s t hinv hv hone hexec
  obtain ⟨hbuilt, -, -, hdegen⟩ := hinv.built_of_exec hv hexec
  have hcodes := (hinv.table hv).codes_of_single hone
  rw [exec_build_of_freqValid hv, Host.Outcome.next.injEq] at hexec
  have hclen : t.clen = codeLengths [(s.orderAt 0, [false])] := by rw [← hexec, ← hcodes]; rfl
  have hcbits : t.cbits = codeValues [(s.orderAt 0, [false])] := by rw [← hexec, ← hcodes]; rfl
  have hlen : tableAt t.clen (s.orderAt 0) = 1 := by simp [hclen, codeLengths]
  have hval : tableAt t.cbits (s.orderAt 0) = 0 := by simp [hcbits, codeValues, natOfBits]
  refine ⟨hlen, hval, ?_, BitVec.eq_of_toNat_eq ?_, BitVec.eq_of_toNat_eq ?_, ?_⟩
  · rw [State.codeFor, hlen, hval]
    decide
  · rw [hbuilt.root, hone]
    rfl
  · rw [hbuilt.nodes, hone]
    rfl
  · rw [hdegen, hone]
    rfl

/-- Settles O23: the coded symbols are those of the table (`State.TreeInv.coded`), and ENCODE meets one without a code
before it can succeed. -/
theorem absentSymbolsHaveNoCode : Obligations.AbsentSymbolsHaveNoCode := by
  unfold Obligations.AbsentSymbolsHaveNoCode
  intro s t u hinv hv hexec
  obtain ⟨hbuilt, hfreq, htree, -⟩ := hinv.built_of_exec hv hexec
  have hcoded : ∀ b : Byte, tableAt t.clen b = 0 ↔ tableAt s.freq b = 0 := fun b => by
    rw [← hfreq]
    exact not_iff_not.1 (hbuilt.tree.coded b)
  refine ⟨hcoded, ?_⟩
  rintro hencode hfits ⟨b, hb, habsent⟩
  exact exec_encode_of_uncoded htree hfits hb (not_not.2 ((hcoded b).2 habsent)) hencode

/-- Settles O17: without a table BUILD raises NOT_READY, and COMPLETE of a failure changes only its own fields
(`State.failedTo_finish`). -/
theorem buildNeedsAFrequencyTable : Obligations.BuildNeedsAFrequencyTable := by
  unfold Obligations.BuildNeedsAFrequencyTable
  intro s hv
  exact ⟨_, exec_build_of_not_freqValid hv, s.failedTo_finish _ (by decide)⟩

/-- Settles O18: with a table BUILD commits (`exec_build_of_freqValid`), and the fields listed are those that the commit
and COMPLETE write. -/
theorem buildCompletesWithATable : Obligations.BuildCompletesWithATable := by
  unfold Obligations.BuildCompletesWithATable
  intro s hv
  exact ⟨_, exec_build_of_freqValid hv, rfl⟩

end Sys2Proof.Machine
end

section
/-! PROOFS. ENCODE (R180 to R185): its errors in the order of R242, and the payload it writes. -/

namespace Sys2Proof.Machine

/-! ### What ENCODE's pseudocode answers (R180) -/

theorem encodeInput_of_not_treeValid {s : State} (h : s.status.treeValid = false) :
    encodeInput s = .error { code := .notReady, info := 2 } := by
  rw [encodeInput, if_pos h]

theorem encodeInput_of_long {s : State} (hv : s.status.treeValid = true) (h : s.sizes.ibufBytes < s.inLen.toNat) :
    encodeInput s = .error { code := .lengthRange, info := s.inLen } := by
  rw [encodeInput, if_neg (by simp [hv]), if_pos h]

theorem encodeInput_of_empty {s : State} (hv : s.status.treeValid = true) (h : s.inLen = 0) :
    encodeInput s = .error { code := .emptyInput, info := 0 } := by
  rw [encodeInput, if_neg (by simp [hv]), if_neg (by simp [h]), if_pos h]

/-- Past the early checks an error of the scan is ENCODE's (R180, R181). -/
theorem encodeInput_of_encodeFrom_error {s : State} {e : Raise} (hv : s.status.treeValid = true) (hne : s.inLen ≠ 0)
    (hfits : s.inLen.toNat ≤ s.sizes.ibufBytes) (h : s.encodeFrom 0 s.inputBytes = .error e) :
    encodeInput s = .error e := by
  rw [encodeInput, if_neg (by simp [hv]), if_neg (by omega), if_neg hne, h]

/-- Past the early checks the first symbol without a code decides the answer (R180, R242). -/
theorem encodeInput_of_unknown {s : State} (hv : s.status.treeValid = true)
    (hfits : s.inLen.toNat ≤ s.sizes.ibufBytes) {i : Nat} (h : i < s.inputBytes.length)
    (hi : ¬ s.HasCode s.inputBytes[i])
    (hbefore : ∀ (j : Nat) (hj : j < i), s.HasCode (s.inputBytes[j]'(Nat.lt_trans hj h))) :
    encodeInput s = .error { code := .unknownSymbol, info := unknownInfo s.inputBytes[i] i } := by
  have hne : s.inLen ≠ 0 := fun h0 => by simp [h0] at h
  have hfrom := encodeFrom_unknown 0 h hi hbefore
  rw [Nat.zero_add] at hfrom
  exact encodeInput_of_encodeFrom_error hv hne hfits hfrom

/-- The code bits of the input, in order (R181). -/
def State.codeBits (s : State) : Bits := s.inputBytes.flatMap s.codeFor

/-- Past the early checks, with a code for every symbol, only the size of OBUF is left to decide (R180, R184). -/
theorem encodeInput_of_coded {s : State} (hv : s.status.treeValid = true) (hpos : 1 ≤ s.inLen.toNat)
    (hfits : s.inLen.toNat ≤ s.sizes.ibufBytes) (hcoded : ∀ b ∈ s.inputBytes, s.HasCode b) :
    encodeInput s =
      if s.sizes.obufBytes < s.codeBits.length / 8 + 2 then
        .error { code := .outputOverflow, info := BitVec.ofNat 32 (s.codeBits.length / 8 + 2) }
      else .ok (s.commitOutput (payload s.codeBits) s.codeBits.length (padLength s.codeBits)) := by
  have hne : s.inLen ≠ 0 := fun h0 => by simp [h0] at hpos
  have hk : (payloadBits s.codeBits).length / 8 = s.codeBits.length / 8 + 2 := by
    rw [length_payloadBits, Nat.mul_div_cancel_left _ (by decide)]
  rw [encodeInput, if_neg (by simp [hv]), if_neg (by omega), if_neg hne, encodeFrom_ok hcoded 0, ← hk]
  rfl

/-- An ENCODE without an error had a length in range and committed the payload, which OBUF holds (R180). -/
theorem encodeInput_ok {s u : State} (h : encodeInput s = .ok u) :
    s.inLen.toNat ≤ s.sizes.ibufBytes ∧ s.codeBits.length / 8 + 2 ≤ s.sizes.obufBytes ∧
      u = s.commitOutput (payload s.codeBits) s.codeBits.length (padLength s.codeBits) := by
  cases hv : s.status.treeValid with
  | false => simp [encodeInput_of_not_treeValid hv] at h
  | true =>
    by_cases hlong : s.sizes.ibufBytes < s.inLen.toNat
    · simp [encodeInput_of_long hv hlong] at h
    by_cases hempty : s.inLen = 0
    · simp [encodeInput_of_empty hv hempty] at h
    have hpos : 1 ≤ s.inLen.toNat :=
      Nat.pos_of_ne_zero fun h0 => hempty (BitVec.eq_of_toNat_eq (by simpa using h0))
    have hcoded : ∀ b ∈ s.inputBytes, s.HasCode b := by
      cases hfrom : s.encodeFrom 0 s.inputBytes with
      | ok bits => exact hasCode_of_encodeFrom_ok hfrom
      | error e => simp [encodeInput_of_encodeFrom_error hv hempty (Nat.not_lt.1 hlong) hfrom] at h
    rw [encodeInput_of_coded hv hpos (by omega) hcoded] at h
    split_ifs at h with hover
    exact ⟨by omega, by omega, (Except.ok.inj h).symm⟩

/-! ### COMPLETE of ENCODE (R246, R247) -/

theorem exec_encode (s : State) : exec .encode s = .next (completeOutput (encodeInput s) s) := rfl

theorem exec_encode_of_ok {s u : State} (h : encodeInput s = .ok u) : exec .encode s = .next (u.finish .none 0) := by
  rw [exec_encode, h, completeOutput]

/-- Whatever error ENCODE raises, COMPLETE drops the output and changes nothing else. -/
theorem failedOutputTo_of_encodeInput {s : State} {e : Raise} (h : encodeInput s = .error e) :
    s.FailedOutputTo e.code e.info (completeOutput (encodeInput s) s) := by
  rw [h]
  exact s.failedOutputTo_drop e.info (encodeInput_error_ne_none h)

/-- The same, with ERR_INFO read from the next state. -/
theorem exec_encode_of_error {s : State} {e : Raise} (h : encodeInput s = .error e) :
    ∃ t, exec .encode s = .next t ∧ s.FailedOutputTo e.code t.errInfo t ∧ t.errInfo = e.info := by
  have hinfo : (completeOutput (encodeInput s) s).errInfo = e.info := by rw [h]; rfl
  exact ⟨_, exec_encode s, hinfo ▸ failedOutputTo_of_encodeInput h, hinfo⟩

/-- At most 2^24 symbols of at most 255 bits each (R6, R9): BITLEN holds the number of code bits whole. -/
theorem State.length_codeBits_lt {s : State} (hsizes : s.sizes.Valid) (hfits : s.inLen.toNat ≤ s.sizes.ibufBytes) :
    s.codeBits.length < 2 ^ 32 := by
  obtain ⟨⟨-, hibuf⟩, -⟩ := hsizes
  have hle : s.codeBits.length ≤ 255 * s.inputBytes.length := length_codes_le s s.inputBytes
  rw [State.length_inputBytes] at hle
  omega

/-- COMPLETE of the commit writes the payload (R183, R184). -/
theorem State.producedTo_payload {s : State} (hsizes : s.sizes.Valid) (hfits : s.inLen.toNat ≤ s.sizes.ibufBytes) :
    s.ProducedTo (payload s.codeBits) s.codeBits.length (padLength s.codeBits)
      ((s.commitOutput (payload s.codeBits) s.codeBits.length (padLength s.codeBits)).finish .none 0) := by
  have hbits := State.length_codeBits_lt hsizes hfits
  have hpad := padLength_le s.codeBits
  have hout := length_payload s.codeBits
  exact s.producedTo_commit (by omega) hbits (by omega)

/-- An ENCODE that ends without an error produced the payload of its input. -/
theorem exec_encode_produced {s t : State} (hsizes : s.sizes.Valid) (h : exec .encode s = .next t)
    (hok : t.errCode = .none) :
    s.ProducedTo (payload s.codeBits) s.codeBits.length (padLength s.codeBits) t := by
  rw [exec_encode, Host.Outcome.next.injEq] at h
  subst h
  cases hin : encodeInput s with
  | error e =>
    rw [hin] at hok
    exact absurd hok (encodeInput_error_ne_none hin)
  | ok u =>
    obtain ⟨hfits, -, rfl⟩ := encodeInput_ok hin
    exact State.producedTo_payload hsizes hfits

/-! ### R180 to R185 -/

/-- Settles O28: with every check passed ENCODE either commits the payload or reports its length
(`encodeInput_of_coded`), which is k since (8 + L + P) / 8 = L / 8 + 2. -/
theorem encodeWritesThePayload : Obligations.EncodeWritesThePayload := by
  unfold Obligations.EncodeWritesThePayload
  rintro s hsizes hv hpos hfits hcoded _ _ k rfl rfl hk
  have hin := encodeInput_of_coded hv hpos hfits hcoded
  have hlen := s.length_codeBits_lt hsizes hfits
  have hpad := padLength_le s.codeBits
  replace hk : k = s.codeBits.length / 8 + 2 := by
    simp only [hk, State.codeBits]
    omega
  rw [← hk] at hin
  by_cases hover : s.sizes.obufBytes < k
  · rw [if_pos hover] at hin
    obtain ⟨t, hexec, hfailed, hinfo⟩ := exec_encode_of_error hin
    refine ⟨t, hexec, fun hle => absurd hover (Nat.not_lt.2 hle), fun _ => ⟨hfailed, ?_⟩⟩
    rw [hinfo, BitVec.toNat_ofNat]
    omega
  · rw [if_neg hover] at hin
    have hproduced := State.producedTo_payload hsizes hfits
    have ⟨_, hout, _⟩ := hproduced
    rw [length_payload, ← hk] at hout
    exact ⟨_, exec_encode_of_ok hin, fun _ => ⟨hproduced, hout, hpad⟩, fun h => absurd h hover⟩

/-- Settles O29: a successful ENCODE produced the payload (`exec_encode_produced`), whose length is L / 8 + 2 and whose
first byte is the header P (`payload_eq`). -/
theorem encodedLengthAndHeader : Obligations.EncodedLengthAndHeader := by
  unfold Obligations.EncodedLengthAndHeader
  intro s t hsizes hexec hok
  obtain ⟨-, hout, hbits, hpad, hbyte, -⟩ := exec_encode_produced hsizes hexec hok
  have hp := padLength_le s.codeBits
  have hheader : t.readByte Config.obufBase = BitVec.ofNat 8 (padLength s.codeBits) := by
    have h0 := hbyte 0 (by rw [length_payload]; omega)
    simpa [payload_eq] using h0
  refine ⟨?_, ?_, by omega, by omega⟩
  · rw [hout, hbits, length_payload]
  · rw [hheader, hpad, BitVec.toNat_ofNat]
    omega

/-- Settles O27: the scan stops at the first symbol without a code (`encodeInput_of_unknown`), and an index below 2^24
fits the lower field of ERR_INFO (`unknownInfo_spec`). -/
theorem encodeReportsTheFirstUnknownSymbol : Obligations.EncodeReportsTheFirstUnknownSymbol := by
  unfold Obligations.EncodeReportsTheFirstUnknownSymbol
  intro s i h hsizes hv hfits hi hbefore
  obtain ⟨t, hexec, hfailed, hinfo⟩ := exec_encode_of_error (encodeInput_of_unknown hv hfits h hi hbefore)
  have hindex : i < 2 ^ 24 := by
    obtain ⟨⟨-, hibuf⟩, -⟩ := hsizes
    have hlt : i < s.inLen.toNat := s.length_inputBytes ▸ h
    omega
  refine ⟨t, hexec, hfailed, ?_⟩
  rw [hinfo]
  exact unknownInfo_spec _ hindex

/-- Settles O26: each of the three early checks answers its error, and a failed ENCODE drops the output
(`failedOutputTo_of_encodeInput`). -/
theorem encodeChecksBeforeItsData : Obligations.EncodeChecksBeforeItsData := by
  unfold Obligations.EncodeChecksBeforeItsData
  intro s
  exact ⟨_, exec_encode s, fun hv => failedOutputTo_of_encodeInput (encodeInput_of_not_treeValid hv),
    fun hv hlong => failedOutputTo_of_encodeInput (encodeInput_of_long hv hlong),
    fun hv hempty => failedOutputTo_of_encodeInput (encodeInput_of_empty hv hempty)⟩

end Sys2Proof.Machine
end

section
/-! PROOFS. DECODE (R200 to R208): its errors in the order of R242, the symbols it writes, the padding bits it does not
look at, the source's own loop, and the round trip from ENCODE. -/

namespace Sys2Proof.Machine

/-! ### What DECODE's pseudocode answers (R200) -/

theorem decodeInput_of_not_treeValid {s : State} (h : s.status.treeValid = false) :
    decodeInput s = .error { code := .notReady, info := 2 } := by
  rw [decodeInput, if_pos h]

theorem decodeInput_of_long {s : State} (hv : s.status.treeValid = true) (h : s.sizes.ibufBytes < s.inLen.toNat) :
    decodeInput s = .error { code := .lengthRange, info := s.inLen } := by
  rw [decodeInput, if_neg (by simp [hv]), if_pos h]

theorem decodeInput_of_short {s : State} (hv : s.status.treeValid = true) (hfits : s.inLen.toNat ≤ s.sizes.ibufBytes)
    (h : s.inLen.toNat < 2) :
    decodeInput s = .error { code := .malformedPayload, info := malformedInfo 1 s.inLen.toNat } := by
  rw [decodeInput, if_neg (by simp [hv]), if_neg (Nat.not_lt.2 hfits), if_pos h]

/-- The header P, the first input byte (R201). -/
def State.header (s : State) : Nat := (s.readByte Config.ibufBase).toNat

/-- The body, between the header and the last P bits (R202). -/
def State.body (s : State) : Bits := bodyBits s.inputBytes s.header

/-- Past the early checks the header and the body decide what is written (R200). -/
theorem decodeInput_of_legal {s : State} (hv : s.status.treeValid = true) (hlen : 2 ≤ s.inLen.toNat)
    (hfits : s.inLen.toNat ≤ s.sizes.ibufBytes) :
    decodeInput s =
      (s.decodeResult s.header s.body).map fun out => s.commitOutput out s.body.length s.header := by
  rw [decodeInput, if_neg (by simp [hv]), if_neg (Nat.not_lt.2 hfits), if_neg (Nat.not_lt.2 hlen), decodePadded_eq]
  rfl

theorem State.decodeResult_of_bad_header (s : State) {p : Nat} (h : p < 1 ∨ 8 < p) (body : Bits) :
    s.decodeResult p body = .error { code := .malformedPayload, info := malformedInfo 2 p } := by
  rw [State.decodeResult, if_pos h]

/-- A candidate left by the walk is the first thing that can go wrong in the body (R206). -/
theorem State.decodeResult_of_leftover {s : State} {p : Nat} (hp : 1 ≤ p ∧ p ≤ 8) {body : Bits}
    (h : (s.walk body).2 ≠ 0) :
    s.decodeResult p body = .error { code := .malformedPayload, info := malformedInfo 3 (s.walk body).2 } := by
  rw [State.decodeResult, if_neg (by omega), if_pos h]

/-- With no candidate left only the size of OBUF is left to decide (R200). -/
theorem State.decodeResult_of_complete {s : State} {p : Nat} (hp : 1 ≤ p ∧ p ≤ 8) {body : Bits} {out : List Byte}
    (h : s.walk body = (out, 0)) :
    s.decodeResult p body =
      if s.sizes.obufBytes < out.length then
        .error { code := .outputOverflow, info := BitVec.ofNat 32 out.length }
      else .ok out := by
  rw [State.decodeResult, if_neg (by omega), h, if_neg (by simp)]

/-- DECODE writes no more than OBUF holds (R200). -/
theorem State.decodeResult_ok_length {s : State} {p : Nat} {body : Bits} {out : List Byte}
    (h : s.decodeResult p body = .ok out) : out.length ≤ s.sizes.obufBytes := by
  unfold State.decodeResult at h
  split_ifs at h with _ _ hover
  exact Except.ok.inj h ▸ Nat.not_lt.1 hover

/-! ### COMPLETE of DECODE (R246, R247) -/

theorem exec_decode (s : State) : exec .decode s = .next (completeOutput (decodeInput s) s) := rfl

/-- Whatever error DECODE raises, COMPLETE drops the output and changes nothing else. -/
theorem failedOutputTo_of_decodeInput {s : State} {e : Raise} (h : decodeInput s = .error e) :
    s.FailedOutputTo e.code e.info (completeOutput (decodeInput s) s) := by
  rw [h]
  exact s.failedOutputTo_drop e.info (decodeInput_error_ne_none h)

theorem errInfo_of_decodeInput_error {s : State} {e : Raise} (h : decodeInput s = .error e) :
    (completeOutput (decodeInput s) s).errInfo = e.info := by
  rw [h, completeOutput, State.finish_errInfo]

/-- The error with the number that ERR_INFO holds. -/
theorem failedOutputTo_errInfo_of_decodeInput {s : State} {e : Raise} (h : decodeInput s = .error e) {k : Nat}
    (hk : e.info.toNat = k) :
    s.FailedOutputTo e.code (completeOutput (decodeInput s) s).errInfo (completeOutput (decodeInput s) s) ∧
      (completeOutput (decodeInput s) s).errInfo.toNat = k := by
  rw [errInfo_of_decodeInput_error h]
  exact ⟨failedOutputTo_of_decodeInput h, hk⟩

/-! ### The header and the body (R201, R202) -/

theorem State.header_lt (s : State) : s.header < 2 ^ 8 := (s.readByte Config.ibufBase).isLt

theorem State.body_eq (s : State) :
    s.body = ((unpack s.inputBytes).take (8 * s.inLen.toNat - s.header)).drop 8 := by
  rw [State.body, bodyBits, State.length_inputBytes]

theorem State.length_body (s : State) : s.body.length = 8 * (s.inLen.toNat - 1) - s.header := by
  rw [State.body_eq, List.length_drop, List.length_take, length_unpack, State.length_inputBytes]
  omega

/-- The body is at most 2^24 bytes, so its length fits ERR_INFO[27:0] (R6, R206). -/
theorem State.length_body_lt {s : State} (hsizes : s.sizes.Valid) (hfits : s.inLen.toNat ≤ s.sizes.ibufBytes) :
    s.body.length < 2 ^ 28 := by
  obtain ⟨⟨-, hibuf⟩, -⟩ := hsizes
  rw [State.length_body]
  omega

/-- The first 8 bits of the input are the header's (R201). -/
theorem State.take_unpack_inputBytes {s : State} (h : 1 ≤ s.inLen.toNat) :
    (unpack s.inputBytes).take 8 = bin8 (s.readByte Config.ibufBase) := by
  obtain ⟨rest, hrest⟩ := s.inputBytes_cons h
  rw [hrest, unpack, List.take_left' (length_bin8 _)]

/-! ### The same report of two DECODEs -/

/-- Two states report the same end of an ENCODE or DECODE: the error and the output (R240, R247). -/
structure State.SameReport (t u : State) : Prop where
  errCode : t.errCode = u.errCode
  errInfo : t.errInfo = u.errInfo
  outLen  : t.outLen = u.outLen
  bitLen  : t.bitLen = u.bitLen
  pad     : t.pad = u.pad
  output  : t.outputBytes = u.outputBytes

theorem State.sameReport_drop (s s' : State) (code : ErrCode) (info : Word) :
    (s.dropOutput.finish code info).SameReport (s'.dropOutput.finish code info) :=
  ⟨rfl, rfl, rfl, rfl, rfl, (s.outputBytes_drop code info).trans (s'.outputBytes_drop code info).symm⟩

theorem State.sameReport_commit (s s' : State) {out : List Byte} (h : out.length < 2 ^ 32) (bits pad : Nat) :
    ((s.commitOutput out bits pad).finish .none 0).SameReport ((s'.commitOutput out bits pad).finish .none 0) :=
  ⟨rfl, rfl, rfl, rfl, rfl, (s.outputBytes_commit bits pad h).trans (s'.outputBytes_commit bits pad h).symm⟩

/-- COMPLETE's report depends on what was computed, not on the state it is written to. -/
theorem sameReport_completeOutput (s s' : State) {result : Except Raise (List Byte)}
    (h : ∀ out, result = .ok out → out.length < 2 ^ 32) (bits pad : Nat) :
    (completeOutput (result.map fun out => s.commitOutput out bits pad) s).SameReport
      (completeOutput (result.map fun out => s'.commitOutput out bits pad) s') := by
  cases result with
  | ok out => exact s.sameReport_commit s' (h out rfl) bits pad
  | error e => exact s.sameReport_drop s' e.code e.info

/-- The state with other buffer bytes. -/
def State.withMem (s : State) (m : Memory) : State := { s with mem := m }

/-- Past the header and the body DECODE reads no buffer byte: the walk reads NODE, ROOT and DEGEN only. -/
theorem State.decodeResult_withMem (s : State) (m : Memory) (p : Nat) (body : Bits) :
    (s.withMem m).decodeResult p body = s.decodeResult p body := by
  have hwalk : (s.withMem m).walk body = s.walk body := State.walk_congr (s := s.withMem m) (t := s) rfl rfl rfl body
  simp only [State.decodeResult, hwalk]
  rfl

/-- With other buffer bytes, but the same header and, when that is legal, the same body, a DECODE of a legal length
reports the same. -/
theorem sameReport_decode_withMem {s : State} {m : Memory} (hsizes : s.sizes.Valid) (hlen : 2 ≤ s.inLen.toNat)
    (hfits : s.inLen.toNat ≤ s.sizes.ibufBytes) (hheader : (s.withMem m).header = s.header)
    (hbody : 1 ≤ s.header ∧ s.header ≤ 8 → (s.withMem m).body = s.body) :
    (completeOutput (decodeInput s) s).SameReport
      (completeOutput (decodeInput (s.withMem m)) (s.withMem m)) := by
  cases hv : s.status.treeValid with
  | false =>
    rw [decodeInput_of_not_treeValid hv, decodeInput_of_not_treeValid (s := s.withMem m) hv]
    exact s.sameReport_drop _ _ _
  | true =>
    rw [decodeInput_of_legal hv hlen hfits, decodeInput_of_legal (s := s.withMem m) hv hlen hfits, hheader]
    by_cases hp : 1 ≤ s.header ∧ s.header ≤ 8
    · rw [hbody hp, State.decodeResult_withMem]
      refine sameReport_completeOutput s _ (fun out hout => ?_) _ _
      have := State.decodeResult_ok_length hout
      obtain ⟨-, -, hobuf⟩ := hsizes
      omega
    · have hbad : s.header < 1 ∨ 8 < s.header := by omega
      rw [State.decodeResult_of_bad_header _ hbad, State.decodeResult_of_bad_header _ hbad]
      exact s.sameReport_drop _ _ _

/-! ### The source's loop (R205) -/

/-- The candidate `cand` stands for node `n`: the paths on from `n` are those from the root that begin with it. -/
def State.StandsFor (s : State) (cand : Bits) (n : NodeIdx) : Prop :=
  ∀ (sym : Byte) (p : Bits), s.Leads sym n p ↔ s.Leads sym s.rootIdx (cand ++ p)

theorem State.standsFor_root (s : State) : s.StandsFor [] s.rootIdx := fun _ _ => Iff.rfl

/-- One more bit takes the candidate to the child it leads to. -/
theorem State.StandsFor.child {s : State} {cand : Bits} {n : NodeIdx} (h : s.StandsFor cand n)
    (hn : (s.nodeAt n).leaf = false) (b : Bool) : s.StandsFor (cand ++ [b]) (Node.child (s.nodeAt n) b) := by
  intro sym p
  rw [List.append_assoc, List.singleton_append, ← h sym (b :: p), State.Leads]
  exact (and_iff_right hn).symm

/-- In the general case the inverse mapping finds exactly the symbols at the ends of the paths (R158, R205). -/
theorem State.TreeInv.symbolOf_eq_some_iff {s : State} (ht : s.TreeInv) (hd : s.status.degen = false) (cand : Bits)
    (sym : Byte) : s.symbolOf cand = some sym ↔ s.Leads sym s.rootIdx cand := by
  have inverse : ∀ (x : Byte) (p : Bits), (s.HasCode x ∧ s.codeFor x = p) ↔ s.Leads x s.rootIdx p := by
    have inv := ht.inverse
    rwa [State.MapsInverse, if_neg (by simp [hd])] at inv
  constructor
  · exact fun h => (inverse sym cand).1 (State.symbolOf_spec h)
  · intro h
    obtain ⟨hcode, hfor⟩ := (inverse sym cand).2 h
    obtain ⟨x, hx⟩ := State.symbolOf_complete hcode hfor
    have hlead := (inverse x cand).1 (State.symbolOf_spec hx)
    obtain ⟨rfl, -⟩ := State.leads_prefix hlead h (List.prefix_refl cand)
    exact hx

/-- R203 and the source's loop, from a candidate and the inner node it stands for: the candidate matches an entry
exactly when the walk is at a leaf. -/
theorem State.TreeInv.walkTree_eq_sourceWalk {s : State} (ht : s.TreeInv) (hd : s.status.degen = false) {cand : Bits}
    {n : NodeIdx} (hcand : s.StandsFor cand n) (hn : (s.nodeAt n).leaf = false) (body : Bits) :
    s.walkTree n cand.length body = ((s.sourceWalk cand body).1, (s.sourceWalk cand body).2.length) := by
  induction body generalizing cand n with
  | nil => rfl
  | cons b rest ih =>
    have hnext := hcand.child hn b
    have hmatch (sym : Byte) : s.symbolOf (cand ++ [b]) = some sym ↔ s.Leads sym (Node.child (s.nodeAt n) b) [] := by
      rw [ht.symbolOf_eq_some_iff hd, hnext sym [], List.append_nil]
    simp only [State.walkTree, State.sourceWalk]
    cases hleaf : (s.nodeAt (Node.child (s.nodeAt n) b)).leaf with
    | true =>
      rw [(hmatch _).2 ⟨hleaf, rfl⟩]
      have hroot := ih s.standsFor_root (ht.root_inner hd)
      simp only [List.length_nil] at hroot
      simp only [if_true, hroot]
    | false =>
      have hnone : s.symbolOf (cand ++ [b]) = none :=
        Option.eq_none_iff_forall_ne_some.2 fun sym hsym => by simp [((hmatch sym).1 hsym).1] at hleaf
      rw [hnone]
      simpa using ih hnext hleaf

/-- In the degenerate case the root's symbol has the one code "0" (R156). -/
theorem State.Inv.degenerate_code {s : State} (hinv : s.Inv) (hd : s.status.degen = true) :
    s.HasCode (s.nodeAt s.rootIdx).sym ∧ s.codeFor (s.nodeAt s.rootIdx).sym = [false] := by
  obtain ⟨hv, hone⟩ := hinv.degen_iff.1 hd
  have table := hinv.table (hinv.tree_freq hv)
  have tree := hinv.tree hv
  obtain ⟨a, ha⟩ := List.length_eq_one_iff.1 (s.length_symbols.trans hone)
  have hcode : s.HasCode a := (tree.coded a).2 ((table.listed a).1 (by simp [ha]))
  have inv := tree.inverse
  rw [State.MapsInverse, if_pos hd] at inv
  obtain ⟨rfl, hzero⟩ := (inv a).1 hcode
  exact ⟨hcode, hzero⟩

/-- In the degenerate case the inverse mapping has the one entry "0" (R204). -/
theorem State.Inv.symbolOf_degenerate {s : State} (hinv : s.Inv) (hd : s.status.degen = true) (cand : Bits) :
    s.symbolOf cand = if cand = [false] then some (s.nodeAt s.rootIdx).sym else none := by
  have inv := (hinv.tree (hinv.degen_iff.1 hd).1).inverse
  rw [State.MapsInverse, if_pos hd] at inv
  have found : ∀ {sym}, s.symbolOf cand = some sym → sym = (s.nodeAt s.rootIdx).sym ∧ cand = [false] := fun h => by
    obtain ⟨hcode, hfor⟩ := State.symbolOf_spec h
    obtain ⟨hsym, hzero⟩ := (inv _).1 hcode
    exact ⟨hsym, hfor.symm.trans hzero⟩
  split_ifs with hcand
  · obtain ⟨hcode, hzero⟩ := hinv.degenerate_code hd
    obtain ⟨sym, hsym⟩ := State.symbolOf_complete hcode (hzero.trans hcand.symm)
    rw [hsym, (found hsym).1]
  · exact Option.eq_none_iff_forall_ne_some.2 fun sym hsym => hcand (found hsym).2

/-- R204 and the source's loop: "0" is matched from an empty candidate only, and a longer candidate never is. -/
theorem State.Inv.walkDegenerate_eq_sourceWalk {s : State} (hinv : s.Inv) (hd : s.status.degen = true)
    (cand body : Bits) :
    walkDegenerate (s.nodeAt s.rootIdx).sym cand.length body =
      ((s.sourceWalk cand body).1, (s.sourceWalk cand body).2.length) := by
  induction body generalizing cand with
  | nil => rfl
  | cons b rest ih =>
    have hmatch : cand ++ [b] = [false] ↔ cand.length = 0 ∧ b = false := by
      cases cand <;> simp
    simp only [walkDegenerate, State.sourceWalk, hinv.symbolOf_degenerate hd, hmatch]
    split_ifs with h
    · obtain ⟨hlen, -⟩ := h
      simp only [hlen]
      have hroot := ih []
      simp only [List.length_nil] at hroot
      rw [hroot]
    · simpa using ih (cand ++ [b])

/-! ### The round trip (R208) -/

/-- `t` is ready to ENCODE the input of `s`: a tree with a code for every symbol of it. -/
structure State.ReadyFor (s t : State) : Prop where
  tree      : t.TreeInv
  treeValid : t.status.treeValid = true
  sizes     : t.sizes = s.sizes
  inLen     : t.inLen = s.inLen
  input     : t.inputBytes = s.inputBytes
  coded     : ∀ b ∈ t.inputBytes, t.HasCode b

/-- ANALYZE's pass counts every symbol of the input at least once (R132). -/
theorem Tally.scan_freq_ne_zero {l : List Byte} (hl : l.length < 2 ^ 32) {b : Byte} (hb : b ∈ l) :
    tableAt (Tally.scan l).freq b ≠ 0 := fun hzero => by
  have hcount := (Tally.scan_inv hl).counts b
  rw [hzero] at hcount
  exact (List.count_pos_iff.2 hb).ne hcount

/-- ANALYZE and BUILD give every symbol of the input a code (R131, R132, R155). -/
theorem State.Inv.readyFor_of_exec {s s1 s2 : State} (hinv : s.Inv) (hpos : 1 ≤ s.inLen.toNat)
    (hfits : s.inLen.toNat ≤ s.sizes.ibufBytes) (hanalyze : exec .analyze s = .next s1)
    (hbuild : exec .build s1 = .next s2) : s.ReadyFor s2 := by
  rw [exec_analyze_of_legal hpos hfits, Host.Outcome.next.injEq] at hanalyze
  subst hanalyze
  obtain ⟨hbuilt, hfreq, hv, -⟩ := (hinv.analyzed hpos).built_of_exec rfl hbuild
  rw [exec_build_of_freqValid rfl, Host.Outcome.next.injEq] at hbuild
  have hinput : s2.inputBytes = s.inputBytes := by rw [← hbuild]; rfl
  refine ⟨hbuilt.tree, hv, by rw [← hbuild]; rfl, by rw [← hbuild]; rfl, hinput, fun b hb => ?_⟩
  rw [hbuilt.tree.coded b, hfreq]
  exact Tally.scan_freq_ne_zero s.inputBytes_length_lt (hinput ▸ hb)

/-- An ENCODE with a code for every symbol that does not overflow produces the payload (R180). -/
theorem exec_encode_produced_of_coded {s t : State} (hsizes : s.sizes.Valid) (hv : s.status.treeValid = true)
    (hpos : 1 ≤ s.inLen.toNat) (hfits : s.inLen.toNat ≤ s.sizes.ibufBytes) (hcoded : ∀ b ∈ s.inputBytes, s.HasCode b)
    (hexec : exec .encode s = .next t) (hover : t.errCode ≠ .outputOverflow) :
    s.ProducedTo (payload s.codeBits) s.codeBits.length (padLength s.codeBits) t := by
  refine exec_encode_produced hsizes hexec ?_
  rw [exec_encode, encodeInput_of_coded hv hpos hfits hcoded, Host.Outcome.next.injEq] at hexec
  subst hexec
  split_ifs at hover ⊢
  · exact absurd rfl hover
  · rfl

/-- The bytes an ENCODE or DECODE produced are those at OBUF[0 .. OUT_LEN-1]. -/
theorem State.ProducedTo.outputBytes_eq {s t : State} {out : List Byte} {bits pad : Nat}
    (h : s.ProducedTo out bits pad t) : t.outputBytes = out := by
  obtain ⟨-, hlen, -, -, hbyte, -⟩ := h
  rw [State.outputBytes, hlen]
  exact List.ext_getElem (by simp) fun j _ hj => by simpa using hbyte j hj

/-- An ENCODE or DECODE keeps the tree (R180, R200). -/
theorem State.ProducedTo.sameTree {s t : State} {out : List Byte} {bits pad : Nat} (h : s.ProducedTo out bits pad t) :
    s.SameTree t := by
  obtain ⟨hframe, -⟩ := h
  rw [hframe]
  exact ⟨⟨rfl, rfl, rfl, rfl⟩, rfl, rfl, rfl⟩

/-- The payload's first byte is the padding length (R182). -/
theorem State.header_of_payload {s : State} {bits : Bits} (h : s.inputBytes = payload bits) :
    s.header = padLength bits := by
  have hlen : s.inLen.toNat = bits.length / 8 + 2 := by
    rw [← s.length_inputBytes, h, length_payload]
  obtain ⟨rest, hrest⟩ := s.inputBytes_cons (by omega)
  rw [h, payload_eq, List.cons.injEq] at hrest
  have hpad := padLength_le bits
  rw [State.header, ← hrest.1, BitVec.toNat_ofNat, Nat.mod_eq_of_lt (by omega)]

/-- A DECODE of a payload whose code bits walk to `out` with nothing left produces `out`, when it does not overflow
(R183, R200). -/
theorem exec_decode_produced_of_payload {s t : State} {bits : Bits} {out : List Byte} (hsizes : s.sizes.Valid)
    (hv : s.status.treeValid = true) (hfits : s.inLen.toNat ≤ s.sizes.ibufBytes) (hinput : s.inputBytes = payload bits)
    (hwalk : s.walk bits = (out, 0)) (hexec : exec .decode s = .next t) (hover : t.errCode ≠ .outputOverflow) :
    s.ProducedTo out bits.length (padLength bits) t := by
  have hheader := State.header_of_payload hinput
  have hbody : s.body = bits := by rw [State.body, hheader, hinput, bodyBits_payload]
  have hlen : 2 ≤ s.inLen.toNat := by
    rw [← s.length_inputBytes, hinput, length_payload]
    omega
  have hpad := padLength_le bits
  have hbits := State.length_body_lt hsizes hfits
  rw [hbody] at hbits
  rw [exec_decode, decodeInput_of_legal hv hlen hfits, hbody, hheader,
    State.decodeResult_of_complete hpad hwalk, Host.Outcome.next.injEq] at hexec
  subst hexec
  split_ifs at hover ⊢ with hroom
  · exact absurd rfl hover
  · obtain ⟨-, -, hobuf⟩ := hsizes
    exact s.producedTo_commit (by omega) (by omega) (by omega)

/-! ### R200 to R208 -/

/-- Settles O33: in the general case a candidate stands for a node of the tree
(`State.TreeInv.walkTree_eq_sourceWalk`), in the degenerate case "0" is the one entry. -/
theorem walkAgreesWithCandidateMatching : Obligations.WalkAgreesWithCandidateMatching := by
  unfold Obligations.WalkAgreesWithCandidateMatching
  intro s body hinv hv
  have tree := hinv.tree hv
  cases hd : s.status.degen with
  | true =>
    rw [State.walk, if_pos hd]
    exact hinv.walkDegenerate_eq_sourceWalk hd [] body
  | false =>
    rw [State.walk, if_neg (by simp [hd])]
    exact tree.walkTree_eq_sourceWalk hd s.standsFor_root (tree.root_inner hd) body

/-- Settles O34: ENCODE produces the payload of the code bits (`exec_encode_produced_of_coded`), and DECODE, having the
same tree, walks them back to the symbols (`State.TreeInv.walk_codes`). -/
theorem roundTripGivesTheInputBack : Obligations.RoundTripGivesTheInputBack := by
  unfold Obligations.RoundTripGivesTheInputBack
  intro s s1 s2 s3 r t hinv hpos hfits hanalyze hbuild hencode hnoOver hcopyFits hsizes hvalid hdegen hnode hroot hinLen
    hinput hdecode hover
  obtain ⟨tree, hv, hsizes2, hinLen2, hinput2, hcoded⟩ := hinv.readyFor_of_exec hpos hfits hanalyze hbuild
  have hencoded := exec_encode_produced_of_coded (hsizes2 ▸ hinv.sizes_valid) hv (hinLen2 ▸ hpos)
    (by rwa [hinLen2, hsizes2]) hcoded hencode hnoOver
  have hkept := hencoded.sameTree
  have ⟨hframe, _⟩ := hencoded
  have hsizesR : r.sizes = s.sizes := hsizes.trans ((congrArg State.sizes hframe).trans hsizes2)
  have hwalk : r.walk s2.codeBits = (s2.inputBytes, 0) :=
    (State.walk_congr (hnode.trans hkept.node) (hroot.trans hkept.rootIdx) (hdegen.trans hkept.degen) _).trans
      (tree.walk_codes hcoded)
  have hdecoded := exec_decode_produced_of_payload (hsizesR ▸ hinv.sizes_valid)
    (hvalid.trans (hkept.treeValid.trans hv)) (by rwa [hinLen, hsizesR])
    (hinput.trans hencoded.outputBytes_eq) hwalk hdecode hover
  have ⟨hframeR, houtLen, _⟩ := hdecoded
  refine ⟨congrArg State.errCode hframeR, BitVec.eq_of_toNat_eq ?_, hdecoded.outputBytes_eq.trans hinput2⟩
  rw [houtLen, hinput2, State.length_inputBytes]

/-- Settles O31: past the checks the walk decides between the two errors and the commit
(`State.decodeResult_of_leftover`, `State.decodeResult_of_complete`). -/
theorem decodeWritesTheWalkedSymbols : Obligations.DecodeWritesTheWalkedSymbols := by
  unfold Obligations.DecodeWritesTheWalkedSymbols
  intro s hsizes hv hlen hfits p body hheader hp1 hp8 hbody
  obtain rfl : p = s.header := hheader
  obtain rfl : body = s.body := hbody.trans s.body_eq.symm
  have hp := And.intro hp1 hp8
  have hin := decodeInput_of_legal hv hlen hfits
  have hbodyLt := State.length_body_lt hsizes hfits
  obtain ⟨houtLe, hleftLe⟩ := s.walk_le s.body
  have hwalk (hdone : (s.walk s.body).2 = 0) : s.walk s.body = ((s.walk s.body).1, 0) := Prod.ext rfl hdone
  refine ⟨s.length_body, hleftLe, hbodyLt, _, exec_decode s, fun hleft => ?_, fun hdone hover => ?_,
    fun hdone hroom => ?_⟩
  · rw [State.decodeResult_of_leftover hp hleft] at hin
    exact failedOutputTo_errInfo_of_decodeInput hin (malformedInfo_toNat 3 (by omega))
  · rw [State.decodeResult_of_complete hp (hwalk hdone), if_pos hover] at hin
    exact failedOutputTo_errInfo_of_decodeInput hin (BitVec.toNat_ofNat _ _ ▸ Nat.mod_eq_of_lt (by omega))
  · rw [State.decodeResult_of_complete hp (hwalk hdone), if_neg (Nat.not_lt.2 hroom)] at hin
    rw [hin]
    exact s.producedTo_commit (by omega) (by omega) (by omega)

/-- Settles O32: the first 8 bits are the header's, and with a legal header the bits up to the last P hold the whole
body; DECODE reports alike when both agree (`sameReport_decode_withMem`). -/
theorem decodeIgnoresThePaddingBits : Obligations.DecodeIgnoresThePaddingBits := by
  unfold Obligations.DecodeIgnoresThePaddingBits
  intro s m hsizes hlen hfits hagree t u ht hu
  replace hagree : (unpack s.inputBytes).take (max 8 (8 * s.inLen.toNat - s.header)) =
      (unpack (s.withMem m).inputBytes).take (max 8 (8 * s.inLen.toNat - s.header)) := hagree _ rfl
  have hheader : (s.withMem m).header = s.header := by
    have hfirst := congrArg (List.take 8) hagree
    rw [List.take_take, List.take_take, min_eq_left (le_max_left _ _), State.take_unpack_inputBytes (by omega),
      State.take_unpack_inputBytes (s := s.withMem m) (Nat.le_of_succ_le hlen)] at hfirst
    exact congrArg BitVec.toNat (bin8_injective hfirst).symm
  have hbody : 1 ≤ s.header ∧ s.header ≤ 8 → (s.withMem m).body = s.body := fun hp => by
    rw [max_eq_right (by omega)] at hagree
    rw [State.body_eq, State.body_eq, hheader, hagree]
    rfl
  rw [exec_decode, Host.Outcome.next.injEq] at ht hu
  subst ht hu
  obtain ⟨hcode, hinfo, hout, hbits, hpad, houtput⟩ := sameReport_decode_withMem hsizes hlen hfits hheader hbody
  exact ⟨hcode, hinfo, hout, hbits, hpad, houtput⟩

/-- Settles O30: each of the four early checks answers its error, and a failed DECODE drops the output
(`failedOutputTo_of_decodeInput`); the length and the header fit below the sub-cause. -/
theorem decodeChecksBeforeTheBody : Obligations.DecodeChecksBeforeTheBody := by
  unfold Obligations.DecodeChecksBeforeTheBody
  intro s
  refine ⟨_, exec_decode s, fun hv => failedOutputTo_of_decodeInput (decodeInput_of_not_treeValid hv),
    fun hv hlong => failedOutputTo_of_decodeInput (decodeInput_of_long hv hlong), fun hv hfits hshort => ?_, ?_⟩
  · have hin := decodeInput_of_short hv hfits hshort
    exact failedOutputTo_errInfo_of_decodeInput hin (malformedInfo_toNat 1 (by omega))
  · rintro hv hfits hlen _ rfl hbad
    change s.header < 1 ∨ 8 < s.header at hbad
    have hin := decodeInput_of_legal hv hlen hfits
    rw [State.decodeResult_of_bad_header s hbad] at hin
    have hlt := s.header_lt
    exact failedOutputTo_errInfo_of_decodeInput hin (malformedInfo_toNat 2 (by omega))

end Sys2Proof.Machine
end

section
/-! PROOFS. Control: NOP (R231), CLEAR and the errors that follow it (R233), and the CMD write that issues a command
(R230). -/

namespace Sys2Proof.Machine

/-! ### What NOP and CLEAR answer -/

theorem exec_nop (s : State) : exec .nop s = .next (s.finish .none 0) := rfl

theorem exec_clear (s : State) : exec .clear s = .next (s.cleared.finish .none 0) := rfl

/-! ### R230, R231, R233 -/

/-- Settles O13: CLEAR's commit fills the three tables with 0 (`tableAt_replicate`) and clears both valid bits, so BUILD
lacks its frequency table (`buildNeedsAFrequencyTable`) and ENCODE and DECODE their tree. -/
theorem clearZeroesTheCodecState : Obligations.ClearZeroesTheCodecState := by
  unfold Obligations.ClearZeroesTheCodecState
  intro s
  exact ⟨_, exec_clear s, rfl, fun b => ⟨tableAt_replicate 0 b, tableAt_replicate 0 b, tableAt_replicate 0 b⟩,
    buildNeedsAFrequencyTable _ rfl,
    ⟨_, exec_encode _, failedOutputTo_of_encodeInput (encodeInput_of_not_treeValid rfl)⟩,
    ⟨_, exec_decode _, failedOutputTo_of_decodeInput (decodeInput_of_not_treeValid rfl)⟩⟩

/-- Settles O12: COMPLETE of NOP commits the state as it is (`exec_nop`) and writes its own fields only. -/
theorem nopWritesOnlyTheCompleteFields : Obligations.NopWritesOnlyTheCompleteFields := by
  unfold Obligations.NopWritesOnlyTheCompleteFields
  exact ⟨by decide, exec_nop⟩

/-- Settles O50: BUSY decides whether the write to CMD issues (`exec_wr32_of_idle`) or is blocked
(`exec_wr32_of_busy`). -/
theorem cmdWriteIssuesWhileIdle : Obligations.CmdWriteIssuesWhileIdle := by
  unfold Obligations.CmdWriteIssuesWhileIdle
  intro s v
  exact ⟨fun hidle => exec_wr32_of_idle hidle .cmd v, fun hbusy => exec_wr32_of_busy hbusy .cmd v⟩

end Sys2Proof.Machine
end

section
/-! PROOFS. What every COMPLETE does (R246) and what a failed command leaves unchanged (R247). -/

namespace Sys2Proof.Machine

/-! ### What every COMPLETE keeps and reports -/

/-- No command writes IN_LEN, SEL, PENDING, the sizes or the value last returned to the HOST. -/
theorem CommandEffect.keeps_inputs {s t : State} {i : Instr} (h : CommandEffect s i t) :
    t.inLen = s.inLen ∧ t.sel = s.sel ∧ t.pending = s.pending ∧ t.sizes = s.sizes ∧ t.rdata = s.rdata := by
  cases h with
  | produced =>
    rw [State.commitOutput_eq]
    exact ⟨rfl, rfl, rfl, rfl, rfl⟩
  | _ => exact ⟨rfl, rfl, rfl, rfl, rfl⟩

/-- ERR_INFO is 0 after a success (R45). -/
theorem CommandEffect.errInfo_of_success {s t : State} {i : Instr} (h : CommandEffect s i t)
    (hok : t.errCode = .none) : t.errInfo = 0 := by
  cases h with
  | illegal w => exact absurd hok (by simp)
  | failed _ _ _ _ hcode => exact absurd hok hcode
  | failedOutput _ _ _ _ hcode => exact absurd hok hcode
  | _ => rfl

/-- Output that fits OBUF is written inside it. -/
theorem State.readByte_commitOutput_of_not_inObuf {s : State} {out : List Byte} (hfits : out.length ≤ s.sizes.obufBytes)
    (bits pad : Nat) {a : Nat} (ha : ¬ s.InObuf a) : (s.commitOutput out bits pad).readByte a = s.readByte a := by
  rw [State.readByte_commitOutput]
  split
  · rw [List.getElem?_eq_none (by omega), Option.getD_none]
  · rfl

/-- A command writes buffer bytes in OBUF only: a success its output, a failure the redraw (R88, R247). -/
theorem CommandEffect.readByte_of_not_inObuf {s t : State} {i : Instr} (h : CommandEffect s i t) {a : Nat}
    (ha : ¬ s.InObuf a) : t.readByte a = s.readByte a := by
  cases h with
  | failedOutput => exact (s.readByte_redrawObuf a).trans (if_neg ha)
  | produced _ _ out bits pad _ hfits => exact State.readByte_commitOutput_of_not_inObuf hfits bits pad ha
  | _ => rfl

/-! ### R246, R247 -/

/-- Settles O35: every command has one of the effects of `CommandEffect` (`exec_command`), and each clause is a fact about
all of them. -/
theorem completeSignalsAndKeepsTheRest : Obligations.CompleteSignalsAndKeepsTheRest := by
  unfold Obligations.CompleteSignalsAndKeepsTheRest
  intro i s hi
  obtain ⟨t, hexec, heffect⟩ := exec_command hi s
  obtain ⟨hdone, herr, hctrl⟩ := heffect.signals
  obtain ⟨hinLen, hsel, hpending, hsizes, hrdata⟩ := heffect.keeps_inputs
  obtain ⟨hblocked, hbusErr⟩ := heffect.sticky
  exact ⟨t, hexec, heffect.busy_eq, hdone, by rw [herr, decide_eq_true_iff], heffect.errInfo_of_success, hctrl, hinLen,
    hsel, hpending, hsizes, hblocked, hbusErr, hrdata, heffect.schedule_eq, fun _ => heffect.readByte_of_not_inObuf⟩

/-- Settles O36: a failure is an illegal word, an error of ANALYZE or BUILD (`State.failedTo_finish`), or one of ENCODE or
DECODE (`State.failedOutputTo_drop`); the other effects of a command report NONE. -/
theorem failedCommandChangesNoCodecState : Obligations.FailedCommandChangesNoCodecState := by
  unfold Obligations.FailedCommandChangesNoCodecState
  intro i s t hi hexec herr
  cases exec_command_effect hi hexec with
  | illegal w => exact ⟨by simp, fun _ _ => s.failedTo_finish w herr⟩
  | failed _ hab code info hcode =>
    refine ⟨fun hed => ?_, fun _ _ => s.failedTo_finish info hcode⟩
    rcases hab with rfl | rfl <;> simp at hed
  | failedOutput _ hed code info hcode =>
    exact ⟨fun _ => s.failedOutputTo_drop info hcode, fun he hd => absurd hed (by simp [he, hd])⟩
  | nop | clear | analyzed | built | produced => exact absurd rfl herr

end Sys2Proof.Machine
end

section
/-! PROOFS. Reset (R280, R281, R282): what every register, table and buffer byte holds right after it. -/

namespace Sys2Proof.Machine

/-! ### What the state after reset holds -/

/-- Registers without a reset value of their own read 0 because the valid bit that opens them is 0 (R280): FREQ_VALID
for FREQ_RD and ORDER_RD, TREE_VALID for those that show the tree. -/
theorem State.readReg_resetWith (z : Config.Sizes) (d : Nat) {r : RegName} (hr : r ≠ .id) :
    (State.resetWith z d).readReg r = 0 := by
  have hfreq : (State.resetWith z d).status.freqValid = false := rfl
  have htree : (State.resetWith z d).status.treeValid = false := rfl
  cases r with
  | id => exact absurd rfl hr
  | ctrl => exact (by decide : Ctrl.word ⟨false, false⟩ = 0)
  | status => exact (by decide : Status.word ⟨false, false, false, false, false, false, false, false⟩ = 0)
  | freqRd => simp [State.readReg, State.freqRd, hfreq]
  | orderRd => exact State.orderRd_eq_zero (by simp [hfreq])
  | root => simp [State.readReg, State.rootWord, htree]
  | codeLenRd => simp [State.readReg, State.codeLenRd, htree]
  | codeBitsRd k => simp [State.readReg, State.codeBitsRd, htree]
  | nodeRd => simp [State.readReg, State.nodeRd, State.nodeShown, htree]
  | nodeWRd => simp [State.readReg, State.nodeWRd, State.nodeShown, htree]
  | _ => rfl

/-- With no byte written and one draw for both buffers, every byte is that draw's free value (R282). -/
theorem State.readByte_resetWith (z : Config.Sizes) (d a : Nat) :
    (State.resetWith z d).readByte a = Config.freeByte d a := by
  have hdraw : (State.resetWith z d).drawOf a = d := ite_self d
  exact congrArg (Config.freeByte · a) hdraw

/-- FREQ, ORDER and CLEN hold 0 (R280). -/
theorem State.tables_resetWith (z : Config.Sizes) (d : Nat) (b : Byte) :
    tableAt (State.resetWith z d).freq b = 0 ∧ tableAt (State.resetWith z d).order b = 0 ∧
    tableAt (State.resetWith z d).clen b = 0 :=
  ⟨tableAt_replicate 0 b, tableAt_replicate 0 b, tableAt_replicate 0 b⟩

theorem State.irq_resetWith (z : Config.Sizes) (d : Nat) : (State.resetWith z d).irq = false :=
  State.irq_of_done_err_clear rfl rfl

/-! ### RESET in any state -/

/-- No register shows what RESET leaves to the outside, the schedule and the value last read. -/
theorem State.readReg_applyReset (s : State) (r : RegName) :
    s.applyReset.readReg r = (State.resetWith s.sizes s.draws).readReg r := rfl

/-- RESET leaves every buffer byte at the free value of a fresh draw (R282). -/
theorem State.readByte_applyReset (s : State) (a : Nat) : s.applyReset.readByte a = Config.freeByte s.draws a :=
  State.readByte_resetWith s.sizes s.draws a

theorem step_of_reset {s : State} {rest : List Event} (h : s.schedule = .reset :: rest) :
    step s = .next { s with schedule := rest }.applyReset :=
  step_of_cons h

/-! ### R280, R281, R282 -/

/-- Settles O11: the step is RESET (`step_of_reset`), and what it leaves is the state after reset at the machine's own
sizes and next draw. -/
theorem resetEventResetsTheBlock : Obligations.ResetEventResetsTheBlock := by
  unfold Obligations.ResetEventResetsTheBlock
  intro s rest hnext
  exact ⟨_, step_of_reset hnext, rfl,
    fun r hr => (State.readReg_applyReset _ r).trans (State.readReg_resetWith _ _ hr), rfl, rfl,
    State.tables_resetWith s.sizes s.draws, rfl, rfl, rfl, State.irq_resetWith s.sizes s.draws,
    State.readByte_applyReset _, rfl, rfl, rfl⟩

/-- Settles O10: `State.reset` is the state after reset at the default sizes. -/
theorem resetStateHoldsTheResetValues : Obligations.ResetStateHoldsTheResetValues := by
  unfold Obligations.ResetStateHoldsTheResetValues
  exact ⟨rfl, fun _ => State.readReg_resetWith _ _, State.tables_resetWith _ _, rfl, rfl, rfl,
    State.irq_resetWith _ _, rfl⟩

/-- Settles O53: the state after reset has the invariant at all valid sizes (`State.inv_resetWith`), whatever is
scheduled (`State.Inv.outside`). -/
theorem resetStateHasTheInvariant : Obligations.ResetStateHasTheInvariant := by
  unfold Obligations.ResetStateHasTheInvariant
  exact ⟨fun _ d events hz => (State.inv_resetWith hz d).outside none events, State.inv_resetWith (by decide) 0⟩

end Sys2Proof.Machine
end
